-- ==== Sys2Proof/Word.lean ====
section
/-! DEFINITION. The word types of the hardware (spec/00_scope.md R7, R9): bytes, 32-bit words, 5-bit register numbers. -/

namespace Sys2Proof

/-- One byte of memory (R23: memory is addressed by byte, each 8 bits). -/
abbrev Byte := BitVec 8

/-- `XLEN = 32` (R7): a general register, the PC and an effective address are 32-bit values, and
`+`, `-`, `<<` on them are modulo 2^32 (R9). -/
abbrev Word := BitVec 32

/-- A register operand of an instruction is a 5-bit field (R11): no instruction can name slot 32. -/
abbrev RegIdx := BitVec 5

end Sys2Proof
end

