-- ==== Sys2Proof/Machine/Flags.lean ====
section
/-! DEFINITION. The hardware has no flags (spec/10_state.md R19): a comparison writes 0 or 1 to a general register or
decides a branch inside one instruction. These are the comparisons (spec/45_alu_register.md R166, spec/00_scope.md R9). -/

namespace Sys2Proof.Machine

/-- `signed(a) < signed(b)` (R9). -/
def ltSigned (a b : Word) : Bool := decide (a.toInt < b.toInt)

/-- `a <u b` (R9). -/
def ltUnsigned (a b : Word) : Bool := decide (a.toNat < b.toNat)

/-- The result of a set-less-than: exactly 0 or 1 (R166). -/
def boolWord (c : Bool) : Word := if c then 1#32 else 0#32

/-- The six branch conditions (R175 to R180). -/
def condEq (a b : Word) : Bool := decide (a = b)
def condNe (a b : Word) : Bool := !condEq a b
def condLt (a b : Word) : Bool := ltSigned a b
def condGe (a b : Word) : Bool := !ltSigned a b
def condLtu (a b : Word) : Bool := ltUnsigned a b
def condGeu (a b : Word) : Bool := !ltUnsigned a b

end Sys2Proof.Machine
end

