-- ==== Sys2Proof/Syntax.lean ====
section
/-! DEFINITION. The 47 instructions (spec/30_encoding.md R87), one constructor per row of spec/opcode_table.json, with
the operand bundle of the row's format (R67 to R74) at the widths the encoding gives the fields. -/

namespace Sys2Proof

/-- An instruction with its operands. Immediates keep the width of their format: 12 bits for formats I and S, 20 bits for
format U (the field `inst[31:12]`), 13 and 21 bits for formats B and J (with the constant low zero that R71 and R72 place
there); extension to 32 bits is the machine's (Machine/Operands.lean). The fields of `FENCE` and `FENCE.I` that the hardware
ignores (R84) are kept, so that no bit of a word is lost. -/
inductive Instr where
  -- upper immediate, R120, R121
  | lui (rd : RegIdx) (imm20 : BitVec 20)
  | auipc (rd : RegIdx) (imm20 : BitVec 20)
  -- control transfer, R172 to R180
  | jal (rd : RegIdx) (offset : BitVec 21)
  | jalr (rd rs1 : RegIdx) (imm : BitVec 12)
  | beq (rs1 rs2 : RegIdx) (offset : BitVec 13)
  | bne (rs1 rs2 : RegIdx) (offset : BitVec 13)
  | blt (rs1 rs2 : RegIdx) (offset : BitVec 13)
  | bge (rs1 rs2 : RegIdx) (offset : BitVec 13)
  | bltu (rs1 rs2 : RegIdx) (offset : BitVec 13)
  | bgeu (rs1 rs2 : RegIdx) (offset : BitVec 13)
  -- loads, R126 to R130
  | lb (rd rs1 : RegIdx) (imm : BitVec 12)
  | lh (rd rs1 : RegIdx) (imm : BitVec 12)
  | lw (rd rs1 : RegIdx) (imm : BitVec 12)
  | lbu (rd rs1 : RegIdx) (imm : BitVec 12)
  | lhu (rd rs1 : RegIdx) (imm : BitVec 12)
  -- stores, R186 to R188: rs1 is the base, rs2 the data
  | sb (rs1 rs2 : RegIdx) (imm : BitVec 12)
  | sh (rs1 rs2 : RegIdx) (imm : BitVec 12)
  | sw (rs1 rs2 : RegIdx) (imm : BitVec 12)
  -- ALU with immediate, R141 to R149
  | addi (rd rs1 : RegIdx) (imm : BitVec 12)
  | slti (rd rs1 : RegIdx) (imm : BitVec 12)
  | sltiu (rd rs1 : RegIdx) (imm : BitVec 12)
  | xori (rd rs1 : RegIdx) (imm : BitVec 12)
  | ori (rd rs1 : RegIdx) (imm : BitVec 12)
  | andi (rd rs1 : RegIdx) (imm : BitVec 12)
  | slli (rd rs1 : RegIdx) (shamt : BitVec 5)
  | srli (rd rs1 : RegIdx) (shamt : BitVec 5)
  | srai (rd rs1 : RegIdx) (shamt : BitVec 5)
  -- ALU register-register, R156 to R165
  | add (rd rs1 rs2 : RegIdx)
  | sub (rd rs1 rs2 : RegIdx)
  | sll (rd rs1 rs2 : RegIdx)
  | slt (rd rs1 rs2 : RegIdx)
  | sltu (rd rs1 rs2 : RegIdx)
  | xor (rd rs1 rs2 : RegIdx)
  | srl (rd rs1 rs2 : RegIdx)
  | sra (rd rs1 rs2 : RegIdx)
  | or (rd rs1 rs2 : RegIdx)
  | and (rd rs1 rs2 : RegIdx)
  -- fences and environment, R136 to R138, R197
  | fence (fm pred succ : BitVec 4) (rs1 rd : RegIdx)
  | fenceI (imm : BitVec 12) (rs1 rd : RegIdx)
  | ecall
  | ebreak
  -- CSR instructions, R191 to R196
  | csrrw (rd : RegIdx) (csr : BitVec 12) (rs1 : RegIdx)
  | csrrs (rd : RegIdx) (csr : BitVec 12) (rs1 : RegIdx)
  | csrrc (rd : RegIdx) (csr : BitVec 12) (rs1 : RegIdx)
  | csrrwi (rd : RegIdx) (csr : BitVec 12) (uimm : BitVec 5)
  | csrrsi (rd : RegIdx) (csr : BitVec 12) (uimm : BitVec 5)
  | csrrci (rd : RegIdx) (csr : BitVec 12) (uimm : BitVec 5)
  deriving DecidableEq, Repr

/-- The three tiers of R6: S has its semantics from the source, N is named there, U is not named there. -/
inductive Tier where
  | S
  | N
  | U
  deriving DecidableEq, Repr

/-- The tier of each instruction (R6, R87). -/
def Instr.tier : Instr → Tier
  | .lui _ _ | .lb _ _ _ | .lh _ _ _ | .lw _ _ _ | .lbu _ _ _ | .lhu _ _ _ => .S
  | .fence _ _ _ _ _ | .fenceI _ _ _ | .ebreak => .S
  | .auipc _ _ => .U
  | .jal _ _ | .jalr _ _ _ => .N
  | .beq _ _ _ | .bne _ _ _ | .blt _ _ _ | .bge _ _ _ | .bltu _ _ _ | .bgeu _ _ _ => .N
  | .sb _ _ _ | .sh _ _ _ | .sw _ _ _ => .N
  | .addi _ _ _ | .slti _ _ _ | .sltiu _ _ _ | .xori _ _ _ | .ori _ _ _ | .andi _ _ _ => .N
  | .slli _ _ _ | .srli _ _ _ | .srai _ _ _ => .N
  | .add _ _ _ | .sub _ _ _ | .sll _ _ _ | .slt _ _ _ | .sltu _ _ _ => .N
  | .xor _ _ _ | .srl _ _ _ | .sra _ _ _ | .or _ _ _ | .and _ _ _ => .N
  | .ecall => .N
  | .csrrw _ _ _ | .csrrs _ _ _ | .csrrc _ _ _ | .csrrwi _ _ _ | .csrrsi _ _ _ | .csrrci _ _ _ => .N

/-- The mnemonic of each instruction, as spec/opcode_table.json spells it (R87). -/
def Instr.mnemonic : Instr → String
  | .lui _ _ => "LUI" | .auipc _ _ => "AUIPC" | .jal _ _ => "JAL" | .jalr _ _ _ => "JALR"
  | .beq _ _ _ => "BEQ" | .bne _ _ _ => "BNE" | .blt _ _ _ => "BLT"
  | .bge _ _ _ => "BGE" | .bltu _ _ _ => "BLTU" | .bgeu _ _ _ => "BGEU"
  | .lb _ _ _ => "LB" | .lh _ _ _ => "LH" | .lw _ _ _ => "LW" | .lbu _ _ _ => "LBU" | .lhu _ _ _ => "LHU"
  | .sb _ _ _ => "SB" | .sh _ _ _ => "SH" | .sw _ _ _ => "SW"
  | .addi _ _ _ => "ADDI" | .slti _ _ _ => "SLTI" | .sltiu _ _ _ => "SLTIU"
  | .xori _ _ _ => "XORI" | .ori _ _ _ => "ORI" | .andi _ _ _ => "ANDI"
  | .slli _ _ _ => "SLLI" | .srli _ _ _ => "SRLI" | .srai _ _ _ => "SRAI"
  | .add _ _ _ => "ADD" | .sub _ _ _ => "SUB" | .sll _ _ _ => "SLL" | .slt _ _ _ => "SLT" | .sltu _ _ _ => "SLTU"
  | .xor _ _ _ => "XOR" | .srl _ _ _ => "SRL" | .sra _ _ _ => "SRA" | .or _ _ _ => "OR" | .and _ _ _ => "AND"
  | .fence _ _ _ _ _ => "FENCE" | .fenceI _ _ _ => "FENCE.I" | .ecall => "ECALL" | .ebreak => "EBREAK"
  | .csrrw _ _ _ => "CSRRW" | .csrrs _ _ _ => "CSRRS" | .csrrc _ _ _ => "CSRRC"
  | .csrrwi _ _ _ => "CSRRWI" | .csrrsi _ _ _ => "CSRRSI" | .csrrci _ _ _ => "CSRRCI"

end Sys2Proof
end

