-- ==== Sys2Proof/Decode.lean ====
section
/-! DEFINITION. Bits to instructions and back (spec/30_encoding.md): byte order, the decoder's primitives of R60 to R64,
the formats of R66 to R74, the decoder of R76 to R84, the opcode table of R87, and the encoder. -/

namespace Sys2Proof

/-! ### Byte order (R33) -/

/-- The number a list of bytes stands for, the first (lowest address) least significant (R33). -/
def leNat : List Byte → Nat
  | [] => 0
  | b :: bs => b.toNat + 256 * leNat bs

/-- The `k` low bytes of a number, least significant first (R33). -/
def leBytes : Nat → Nat → List Byte
  | 0, _ => []
  | k + 1, v => BitVec.ofNat 8 v :: leBytes k (v / 256)

/-! ### Decoder primitives of the source (R60 to R64) -/

/-- `extract_bits(w, s, e)` = `(w >> s) & ((1 << (e-s+1)) - 1)`, for `0 ≤ s ≤ e ≤ 31` (R60). Outside that range the spec
refuses (entry U7) and nothing of the model calls it there. -/
def extractBits (w : Word) (s e : Nat) : Word := (w >>> s) &&& ((1#32 <<< (e - s + 1)) - 1#32)

/-- `sext_field(v, k)`: the low `k` bits of `v` as two's complement, extended to 32 bits, for `1 ≤ k ≤ 32` (R61). -/
def sextField (v : Word) (k : Nat) : Word := (v.setWidth k).signExtend 32

/-- The field builder's state: an accumulated value and a bit offset (R62). -/
structure FieldBuilder where
  acc : Word
  off : Nat
  deriving DecidableEq, Repr

/-- Both 0 at the start (R62). -/
def FieldBuilder.start : FieldBuilder := { acc := 0#32, off := 0 }

/-- `add_bits(word, start, end)` (R62). -/
def FieldBuilder.addBits (b : FieldBuilder) (w : Word) (s e : Nat) : FieldBuilder :=
  { acc := b.acc ||| (extractBits w s e <<< b.off), off := b.off + (e - s + 1) }

/-- `skip_bits(count)` (R63). -/
def FieldBuilder.skipBits (b : FieldBuilder) (count : Nat) : FieldBuilder := { b with off := b.off + count }

/-- `zext()`: the accumulated unsigned value (R64). -/
def FieldBuilder.zext (b : FieldBuilder) : Word := b.acc

/-- `sext()`: sign-extended from the total accumulated width (R64). -/
def FieldBuilder.sext (b : FieldBuilder) : Word := sextField b.acc b.off

/-! ### Fields of a word (R66) -/

def opcodeOf (w : Word) : BitVec 7 := w.extractLsb' 0 7
def rdOf (w : Word) : RegIdx := w.extractLsb' 7 5
def funct3Of (w : Word) : BitVec 3 := w.extractLsb' 12 3
def rs1Of (w : Word) : RegIdx := w.extractLsb' 15 5
def rs2Of (w : Word) : RegIdx := w.extractLsb' 20 5
def funct7Of (w : Word) : BitVec 7 := w.extractLsb' 25 7

/-- A field `f` placed with its bit 0 at bit `lo` of an `n`-bit word whose other bits are 0. -/
def put {m : Nat} (n : Nat) (f : BitVec m) (lo : Nat) : BitVec n := (f.setWidth n) <<< lo

/-! ### Immediates at the width of their format (R68 to R74) -/

/-- Format I: `inst[31:20]` (R68); also the CSR address of R74. -/
def immIOf (w : Word) : BitVec 12 := w.extractLsb' 20 12

/-- Format U: `inst[31:12]` (R69). -/
def immUOf (w : Word) : BitVec 20 := w.extractLsb' 12 20

/-- Format S: `inst[31:25] ++ inst[11:7]` (R70). -/
def immSOf (w : Word) : BitVec 12 := put 12 (w.extractLsb' 25 7) 5 ||| put 12 (w.extractLsb' 7 5) 0

/-- Format B: `inst[31] ++ inst[7] ++ inst[30:25] ++ inst[11:8] ++ 0` (R71). -/
def immBOf (w : Word) : BitVec 13 :=
  put 13 (w.extractLsb' 31 1) 12 ||| put 13 (w.extractLsb' 7 1) 11 |||
    put 13 (w.extractLsb' 25 6) 5 ||| put 13 (w.extractLsb' 8 4) 1

/-- Format J: `inst[31] ++ inst[19:12] ++ inst[20] ++ inst[30:21] ++ 0` (R72). -/
def immJOf (w : Word) : BitVec 21 :=
  put 21 (w.extractLsb' 31 1) 20 ||| put 21 (w.extractLsb' 12 8) 12 |||
    put 21 (w.extractLsb' 20 1) 11 ||| put 21 (w.extractLsb' 21 10) 1

/-! ### The decoder (R76 to R84): within each major opcode, the secondary function bits select -/

/-- JALR requires `funct3 = 0b000` (R79). -/
def decodeJalr (w : Word) : Option Instr :=
  if funct3Of w = 0b000#3 then some (.jalr (rdOf w) (rs1Of w) (immIOf w)) else none

/-- BRANCH (R79). -/
def decodeBranch (w : Word) : Option Instr :=
  if funct3Of w = 0b000#3 then some (.beq (rs1Of w) (rs2Of w) (immBOf w))
  else if funct3Of w = 0b001#3 then some (.bne (rs1Of w) (rs2Of w) (immBOf w))
  else if funct3Of w = 0b100#3 then some (.blt (rs1Of w) (rs2Of w) (immBOf w))
  else if funct3Of w = 0b101#3 then some (.bge (rs1Of w) (rs2Of w) (immBOf w))
  else if funct3Of w = 0b110#3 then some (.bltu (rs1Of w) (rs2Of w) (immBOf w))
  else if funct3Of w = 0b111#3 then some (.bgeu (rs1Of w) (rs2Of w) (immBOf w))
  else none

/-- LOAD (R80). -/
def decodeLoad (w : Word) : Option Instr :=
  if funct3Of w = 0b000#3 then some (.lb (rdOf w) (rs1Of w) (immIOf w))
  else if funct3Of w = 0b001#3 then some (.lh (rdOf w) (rs1Of w) (immIOf w))
  else if funct3Of w = 0b010#3 then some (.lw (rdOf w) (rs1Of w) (immIOf w))
  else if funct3Of w = 0b100#3 then some (.lbu (rdOf w) (rs1Of w) (immIOf w))
  else if funct3Of w = 0b101#3 then some (.lhu (rdOf w) (rs1Of w) (immIOf w))
  else none

/-- STORE (R81). -/
def decodeStore (w : Word) : Option Instr :=
  if funct3Of w = 0b000#3 then some (.sb (rs1Of w) (rs2Of w) (immSOf w))
  else if funct3Of w = 0b001#3 then some (.sh (rs1Of w) (rs2Of w) (immSOf w))
  else if funct3Of w = 0b010#3 then some (.sw (rs1Of w) (rs2Of w) (immSOf w))
  else none

/-- OP-IMM (R82); the shift forms read `shamt` and `funct7` as R73 says. -/
def decodeOpImm (w : Word) : Option Instr :=
  if funct3Of w = 0b000#3 then some (.addi (rdOf w) (rs1Of w) (immIOf w))
  else if funct3Of w = 0b010#3 then some (.slti (rdOf w) (rs1Of w) (immIOf w))
  else if funct3Of w = 0b011#3 then some (.sltiu (rdOf w) (rs1Of w) (immIOf w))
  else if funct3Of w = 0b100#3 then some (.xori (rdOf w) (rs1Of w) (immIOf w))
  else if funct3Of w = 0b110#3 then some (.ori (rdOf w) (rs1Of w) (immIOf w))
  else if funct3Of w = 0b111#3 then some (.andi (rdOf w) (rs1Of w) (immIOf w))
  else if funct3Of w = 0b001#3 then
    if funct7Of w = 0b0000000#7 then some (.slli (rdOf w) (rs1Of w) (rs2Of w)) else none
  else
    if funct7Of w = 0b0000000#7 then some (.srli (rdOf w) (rs1Of w) (rs2Of w))
    else if funct7Of w = 0b0100000#7 then some (.srai (rdOf w) (rs1Of w) (rs2Of w))
    else none

/-- OP with `funct7 = 0b0000000` (R83). -/
def decodeOpBase (w : Word) : Option Instr :=
  if funct3Of w = 0b000#3 then some (.add (rdOf w) (rs1Of w) (rs2Of w))
  else if funct3Of w = 0b001#3 then some (.sll (rdOf w) (rs1Of w) (rs2Of w))
  else if funct3Of w = 0b010#3 then some (.slt (rdOf w) (rs1Of w) (rs2Of w))
  else if funct3Of w = 0b011#3 then some (.sltu (rdOf w) (rs1Of w) (rs2Of w))
  else if funct3Of w = 0b100#3 then some (.xor (rdOf w) (rs1Of w) (rs2Of w))
  else if funct3Of w = 0b101#3 then some (.srl (rdOf w) (rs1Of w) (rs2Of w))
  else if funct3Of w = 0b110#3 then some (.or (rdOf w) (rs1Of w) (rs2Of w))
  else some (.and (rdOf w) (rs1Of w) (rs2Of w))

/-- OP: the pair (`funct7`, `funct3`) selects (R83). -/
def decodeOp (w : Word) : Option Instr :=
  if funct7Of w = 0b0000000#7 then decodeOpBase w
  else if funct7Of w = 0b0100000#7 then
    if funct3Of w = 0b000#3 then some (.sub (rdOf w) (rs1Of w) (rs2Of w))
    else if funct3Of w = 0b101#3 then some (.sra (rdOf w) (rs1Of w) (rs2Of w))
    else none
  else none

/-- MISC-MEM (R84): only `funct3` is tested, the other fields are kept and ignored. -/
def decodeMiscMem (w : Word) : Option Instr :=
  if funct3Of w = 0b000#3 then
    some (.fence (w.extractLsb' 28 4) (w.extractLsb' 24 4) (w.extractLsb' 20 4) (rs1Of w) (rdOf w))
  else if funct3Of w = 0b001#3 then some (.fenceI (immIOf w) (rs1Of w) (rdOf w))
  else none

/-- SYSTEM (R84): the exact words of `ECALL` and `EBREAK`, and the six CSR instructions (R74). -/
def decodeSystem (w : Word) : Option Instr :=
  if funct3Of w = 0b000#3 then
    if w = 0x00000073#32 then some .ecall
    else if w = 0x00100073#32 then some .ebreak
    else none
  else if funct3Of w = 0b001#3 then some (.csrrw (rdOf w) (immIOf w) (rs1Of w))
  else if funct3Of w = 0b010#3 then some (.csrrs (rdOf w) (immIOf w) (rs1Of w))
  else if funct3Of w = 0b011#3 then some (.csrrc (rdOf w) (immIOf w) (rs1Of w))
  else if funct3Of w = 0b101#3 then some (.csrrwi (rdOf w) (immIOf w) (rs1Of w))
  else if funct3Of w = 0b110#3 then some (.csrrsi (rdOf w) (immIOf w) (rs1Of w))
  else if funct3Of w = 0b111#3 then some (.csrrci (rdOf w) (immIOf w) (rs1Of w))
  else none

/-- Classify a 32-bit word (R76 lines 2 to 4, R77, R78): `none` is the decoder's failure `Illegal`. -/
def decodeWord (w : Word) : Option Instr :=
  if opcodeOf w = 0b0110111#7 then some (.lui (rdOf w) (immUOf w))
  else if opcodeOf w = 0b0010111#7 then some (.auipc (rdOf w) (immUOf w))
  else if opcodeOf w = 0b1101111#7 then some (.jal (rdOf w) (immJOf w))
  else if opcodeOf w = 0b1100111#7 then decodeJalr w
  else if opcodeOf w = 0b1100011#7 then decodeBranch w
  else if opcodeOf w = 0b0000011#7 then decodeLoad w
  else if opcodeOf w = 0b0100011#7 then decodeStore w
  else if opcodeOf w = 0b0010011#7 then decodeOpImm w
  else if opcodeOf w = 0b0110011#7 then decodeOp w
  else if opcodeOf w = 0b0001111#7 then decodeMiscMem w
  else if opcodeOf w = 0b1110011#7 then decodeSystem w
  else none

/-- Why a string of bytes is no instruction. -/
inductive DecodeError where
  /-- Fewer than the four bytes of one instruction (R65). -/
  | truncated
  /-- `Illegal(inst)`: no matching opcode and function-select combination (R85). -/
  | illegal (w : Word)
  deriving DecidableEq, Repr

/-- Decode the instruction at the front of a byte string, the lowest address first, and return the rest (R65: one
32-bit word, little-endian). -/
def decodeBytes : List Byte → Except DecodeError (Instr × List Byte)
  | b0 :: b1 :: b2 :: b3 :: rest =>
    match decodeWord (BitVec.ofNat 32 (leNat [b0, b1, b2, b3])) with
    | some i => .ok (i, rest)
    | none => .error (.illegal (BitVec.ofNat 32 (leNat [b0, b1, b2, b3])))
  | _ => .error .truncated

/-- The bytes of a table word as memory holds them: `nbits` bits of `w`, zeros above, least significant byte first. -/
def tableWordBytes (nbits w : Nat) : List Byte := leBytes 4 (w % 2 ^ nbits)

/-- What the decoder reads from an instruction whose bits are `w`, numbered as spec/opcode_table.json numbers them. -/
def decodeTableWord (nbits w : Nat) : Option Instr :=
  match decodeBytes (tableWordBytes nbits w) with
  | .ok (i, _) => some i
  | .error _ => none

/-! ### The opcode table (R87) -/

/-- One row of R87: a word `w` is the instruction of the row when `w & mask = match`. -/
structure OpcodeRow where
  mnemonic : String
  pattern  : Word
  mask     : Word
  tier     : Tier
  deriving DecidableEq, Repr

def OpcodeRow.matchesWord (r : OpcodeRow) (w : Word) : Bool := w &&& r.mask = r.pattern

def opcodeRowsControl : List OpcodeRow :=
  [ ⟨"LUI", 0x00000037#32, 0x0000007F#32, .S⟩, ⟨"AUIPC", 0x00000017#32, 0x0000007F#32, .U⟩,
    ⟨"JAL", 0x0000006F#32, 0x0000007F#32, .N⟩, ⟨"JALR", 0x00000067#32, 0x0000707F#32, .N⟩,
    ⟨"BEQ", 0x00000063#32, 0x0000707F#32, .N⟩, ⟨"BNE", 0x00001063#32, 0x0000707F#32, .N⟩,
    ⟨"BLT", 0x00004063#32, 0x0000707F#32, .N⟩, ⟨"BGE", 0x00005063#32, 0x0000707F#32, .N⟩,
    ⟨"BLTU", 0x00006063#32, 0x0000707F#32, .N⟩, ⟨"BGEU", 0x00007063#32, 0x0000707F#32, .N⟩ ]

def opcodeRowsMemory : List OpcodeRow :=
  [ ⟨"LB", 0x00000003#32, 0x0000707F#32, .S⟩, ⟨"LH", 0x00001003#32, 0x0000707F#32, .S⟩,
    ⟨"LW", 0x00002003#32, 0x0000707F#32, .S⟩, ⟨"LBU", 0x00004003#32, 0x0000707F#32, .S⟩,
    ⟨"LHU", 0x00005003#32, 0x0000707F#32, .S⟩, ⟨"SB", 0x00000023#32, 0x0000707F#32, .N⟩,
    ⟨"SH", 0x00001023#32, 0x0000707F#32, .N⟩, ⟨"SW", 0x00002023#32, 0x0000707F#32, .N⟩ ]

def opcodeRowsOpImm : List OpcodeRow :=
  [ ⟨"ADDI", 0x00000013#32, 0x0000707F#32, .N⟩, ⟨"SLTI", 0x00002013#32, 0x0000707F#32, .N⟩,
    ⟨"SLTIU", 0x00003013#32, 0x0000707F#32, .N⟩, ⟨"XORI", 0x00004013#32, 0x0000707F#32, .N⟩,
    ⟨"ORI", 0x00006013#32, 0x0000707F#32, .N⟩, ⟨"ANDI", 0x00007013#32, 0x0000707F#32, .N⟩,
    ⟨"SLLI", 0x00001013#32, 0xFE00707F#32, .N⟩, ⟨"SRLI", 0x00005013#32, 0xFE00707F#32, .N⟩,
    ⟨"SRAI", 0x40005013#32, 0xFE00707F#32, .N⟩ ]

def opcodeRowsOp : List OpcodeRow :=
  [ ⟨"ADD", 0x00000033#32, 0xFE00707F#32, .N⟩, ⟨"SUB", 0x40000033#32, 0xFE00707F#32, .N⟩,
    ⟨"SLL", 0x00001033#32, 0xFE00707F#32, .N⟩, ⟨"SLT", 0x00002033#32, 0xFE00707F#32, .N⟩,
    ⟨"SLTU", 0x00003033#32, 0xFE00707F#32, .N⟩, ⟨"XOR", 0x00004033#32, 0xFE00707F#32, .N⟩,
    ⟨"SRL", 0x00005033#32, 0xFE00707F#32, .N⟩, ⟨"SRA", 0x40005033#32, 0xFE00707F#32, .N⟩,
    ⟨"OR", 0x00006033#32, 0xFE00707F#32, .N⟩, ⟨"AND", 0x00007033#32, 0xFE00707F#32, .N⟩ ]

def opcodeRowsSystem : List OpcodeRow :=
  [ ⟨"FENCE", 0x0000000F#32, 0x0000707F#32, .S⟩, ⟨"FENCE.I", 0x0000100F#32, 0x0000707F#32, .S⟩,
    ⟨"ECALL", 0x00000073#32, 0xFFFFFFFF#32, .N⟩, ⟨"EBREAK", 0x00100073#32, 0xFFFFFFFF#32, .S⟩,
    ⟨"CSRRW", 0x00001073#32, 0x0000707F#32, .N⟩, ⟨"CSRRS", 0x00002073#32, 0x0000707F#32, .N⟩,
    ⟨"CSRRC", 0x00003073#32, 0x0000707F#32, .N⟩, ⟨"CSRRWI", 0x00005073#32, 0x0000707F#32, .N⟩,
    ⟨"CSRRSI", 0x00006073#32, 0x0000707F#32, .N⟩, ⟨"CSRRCI", 0x00007073#32, 0x0000707F#32, .N⟩ ]

/-- The complete table, 47 rows (R87), in the order of the table. -/
def opcodeTable : List OpcodeRow :=
  opcodeRowsControl ++ opcodeRowsMemory ++ opcodeRowsOpImm ++ opcodeRowsOp ++ opcodeRowsSystem

/-! ### The encoder: the word of an instruction, from the formats of R67 to R74 -/

/-- Format R (R67) and the shift sub-form of format I (R73, with `shamt` in the place of `rs2`). -/
def encodeR (funct7 : BitVec 7) (rs2 rs1 : RegIdx) (funct3 : BitVec 3) (rd : RegIdx) (opcode : BitVec 7) : Word :=
  put 32 funct7 25 ||| put 32 rs2 20 ||| put 32 rs1 15 ||| put 32 funct3 12 ||| put 32 rd 7 ||| put 32 opcode 0

/-- Format I (R68) and its CSR sub-form (R74). -/
def encodeI (imm : BitVec 12) (rs1 : RegIdx) (funct3 : BitVec 3) (rd : RegIdx) (opcode : BitVec 7) : Word :=
  put 32 imm 20 ||| put 32 rs1 15 ||| put 32 funct3 12 ||| put 32 rd 7 ||| put 32 opcode 0

/-- Format U (R69). -/
def encodeU (imm20 : BitVec 20) (rd : RegIdx) (opcode : BitVec 7) : Word :=
  put 32 imm20 12 ||| put 32 rd 7 ||| put 32 opcode 0

/-- Format S (R70). -/
def encodeS (imm : BitVec 12) (rs2 rs1 : RegIdx) (funct3 : BitVec 3) (opcode : BitVec 7) : Word :=
  put 32 (imm.extractLsb' 5 7) 25 ||| put 32 rs2 20 ||| put 32 rs1 15 ||| put 32 funct3 12 |||
    put 32 (imm.extractLsb' 0 5) 7 ||| put 32 opcode 0

/-- Format B (R71). -/
def encodeB (imm : BitVec 13) (rs2 rs1 : RegIdx) (funct3 : BitVec 3) (opcode : BitVec 7) : Word :=
  put 32 (imm.extractLsb' 12 1) 31 ||| put 32 (imm.extractLsb' 5 6) 25 ||| put 32 rs2 20 ||| put 32 rs1 15 |||
    put 32 funct3 12 ||| put 32 (imm.extractLsb' 1 4) 8 ||| put 32 (imm.extractLsb' 11 1) 7 ||| put 32 opcode 0

/-- Format J (R72). -/
def encodeJ (imm : BitVec 21) (rd : RegIdx) (opcode : BitVec 7) : Word :=
  put 32 (imm.extractLsb' 20 1) 31 ||| put 32 (imm.extractLsb' 1 10) 21 ||| put 32 (imm.extractLsb' 11 1) 20 |||
    put 32 (imm.extractLsb' 12 8) 12 ||| put 32 rd 7 ||| put 32 opcode 0

/-- Format I of `FENCE` (R84, R136): mode, predecessor and successor set in the place of the immediate. -/
def encodeFence (fm pred succ : BitVec 4) (rs1 rd : RegIdx) : Word :=
  put 32 fm 28 ||| put 32 pred 24 ||| put 32 succ 20 ||| put 32 rs1 15 ||| put 32 0b000#3 12 ||| put 32 rd 7 |||
    put 32 0b0001111#7 0

/-- The word of an instruction; the inverse of `decodeWord` on well-formed instructions. -/
def encode : Instr → Word
  | .lui rd imm => encodeU imm rd 0b0110111#7
  | .auipc rd imm => encodeU imm rd 0b0010111#7
  | .jal rd o => encodeJ o rd 0b1101111#7
  | .jalr rd rs1 imm => encodeI imm rs1 0b000#3 rd 0b1100111#7
  | .beq rs1 rs2 o => encodeB o rs2 rs1 0b000#3 0b1100011#7
  | .bne rs1 rs2 o => encodeB o rs2 rs1 0b001#3 0b1100011#7
  | .blt rs1 rs2 o => encodeB o rs2 rs1 0b100#3 0b1100011#7
  | .bge rs1 rs2 o => encodeB o rs2 rs1 0b101#3 0b1100011#7
  | .bltu rs1 rs2 o => encodeB o rs2 rs1 0b110#3 0b1100011#7
  | .bgeu rs1 rs2 o => encodeB o rs2 rs1 0b111#3 0b1100011#7
  | .lb rd rs1 imm => encodeI imm rs1 0b000#3 rd 0b0000011#7
  | .lh rd rs1 imm => encodeI imm rs1 0b001#3 rd 0b0000011#7
  | .lw rd rs1 imm => encodeI imm rs1 0b010#3 rd 0b0000011#7
  | .lbu rd rs1 imm => encodeI imm rs1 0b100#3 rd 0b0000011#7
  | .lhu rd rs1 imm => encodeI imm rs1 0b101#3 rd 0b0000011#7
  | .sb rs1 rs2 imm => encodeS imm rs2 rs1 0b000#3 0b0100011#7
  | .sh rs1 rs2 imm => encodeS imm rs2 rs1 0b001#3 0b0100011#7
  | .sw rs1 rs2 imm => encodeS imm rs2 rs1 0b010#3 0b0100011#7
  | .addi rd rs1 imm => encodeI imm rs1 0b000#3 rd 0b0010011#7
  | .slti rd rs1 imm => encodeI imm rs1 0b010#3 rd 0b0010011#7
  | .sltiu rd rs1 imm => encodeI imm rs1 0b011#3 rd 0b0010011#7
  | .xori rd rs1 imm => encodeI imm rs1 0b100#3 rd 0b0010011#7
  | .ori rd rs1 imm => encodeI imm rs1 0b110#3 rd 0b0010011#7
  | .andi rd rs1 imm => encodeI imm rs1 0b111#3 rd 0b0010011#7
  | .slli rd rs1 shamt => encodeR 0b0000000#7 shamt rs1 0b001#3 rd 0b0010011#7
  | .srli rd rs1 shamt => encodeR 0b0000000#7 shamt rs1 0b101#3 rd 0b0010011#7
  | .srai rd rs1 shamt => encodeR 0b0100000#7 shamt rs1 0b101#3 rd 0b0010011#7
  | .add rd rs1 rs2 => encodeR 0b0000000#7 rs2 rs1 0b000#3 rd 0b0110011#7
  | .sub rd rs1 rs2 => encodeR 0b0100000#7 rs2 rs1 0b000#3 rd 0b0110011#7
  | .sll rd rs1 rs2 => encodeR 0b0000000#7 rs2 rs1 0b001#3 rd 0b0110011#7
  | .slt rd rs1 rs2 => encodeR 0b0000000#7 rs2 rs1 0b010#3 rd 0b0110011#7
  | .sltu rd rs1 rs2 => encodeR 0b0000000#7 rs2 rs1 0b011#3 rd 0b0110011#7
  | .xor rd rs1 rs2 => encodeR 0b0000000#7 rs2 rs1 0b100#3 rd 0b0110011#7
  | .srl rd rs1 rs2 => encodeR 0b0000000#7 rs2 rs1 0b101#3 rd 0b0110011#7
  | .sra rd rs1 rs2 => encodeR 0b0100000#7 rs2 rs1 0b101#3 rd 0b0110011#7
  | .or rd rs1 rs2 => encodeR 0b0000000#7 rs2 rs1 0b110#3 rd 0b0110011#7
  | .and rd rs1 rs2 => encodeR 0b0000000#7 rs2 rs1 0b111#3 rd 0b0110011#7
  | .fence fm pred succ rs1 rd => encodeFence fm pred succ rs1 rd
  | .fenceI imm rs1 rd => encodeI imm rs1 0b001#3 rd 0b0001111#7
  | .ecall => 0x00000073#32
  | .ebreak => 0x00100073#32
  | .csrrw rd csr rs1 => encodeI csr rs1 0b001#3 rd 0b1110011#7
  | .csrrs rd csr rs1 => encodeI csr rs1 0b010#3 rd 0b1110011#7
  | .csrrc rd csr rs1 => encodeI csr rs1 0b011#3 rd 0b1110011#7
  | .csrrwi rd csr uimm => encodeI csr uimm 0b101#3 rd 0b1110011#7
  | .csrrsi rd csr uimm => encodeI csr uimm 0b110#3 rd 0b1110011#7
  | .csrrci rd csr uimm => encodeI csr uimm 0b111#3 rd 0b1110011#7

end Sys2Proof
end

