-- ==== Sys2Proof/Config.lean ====
section
/-! DEFINITION. What is fixed when the machine is constructed (spec/00_scope.md R7): the OPEN parameters of the spec,
as plain data. A parameter never changes during a run. The spec leaves no result of an instruction undefined
(spec/93_implementation_defined.md, R242); the one free value here stands for a cause sink that the other choices of the OPEN
parameter `CAUSE_SINK` do not describe. -/

namespace Sys2Proof

/-- The fault causes of R200, identified by name (decision D8 of spec/92_eei_decisions.md). -/
inductive Cause where
  /-- `MemoryError(Unaligned)`: the fetch address is not a multiple of 4 (R44). -/
  | fetchUnaligned
  /-- `MemoryError(Unmapped)`: the fetch address is aligned and the word is not all in memory (R44). -/
  | fetchUnmapped
  /-- `Illegal`: the word matches no row of R87, or it is a CSR instruction (R85, R190). -/
  | illegal
  /-- `Unaligned`: a checked data access at an address that is no multiple of its width (R45, R46). -/
  | unaligned
  /-- `Unmapped`: a data access with a byte outside memory (R45, R46). -/
  | unmapped
  /-- `EnvironmentCall`: raised by `ECALL` (R197). -/
  | environmentCall
  /-- `Unimplemented`: a tier N or U instruction under `PROFILE = documented` (R109). -/
  | unimplemented
  deriving DecidableEq, Repr

/-- `DATA_ALIGN` (R7, R43): whether data loads and stores use the alignment-checked memory path. -/
inductive DataAlign where
  | checked
  | unchecked
  deriving DecidableEq, Repr

/-- `PROFILE` (R7, R109): which instructions execute. -/
inductive Profile where
  | completed
  | documented
  deriving DecidableEq, Repr

/-- `CAUSE_CODE` (R212): the number recorded for each cause, written out as plain data. The values that stand
here when none are given are the spec's own numbering (R200, column "code"). -/
structure CauseCodes where
  fetchUnaligned  : Word := 1
  fetchUnmapped   : Word := 2
  illegal         : Word := 3
  unaligned       : Word := 4
  unmapped        : Word := 5
  environmentCall : Word := 6
  unimplemented   : Word := 7
  deriving DecidableEq, Repr

/-- What `CAUSE_SINK.record(CAUSE_CODE(F), pc, info)` is given (R212). -/
structure CauseRecord where
  code    : Word
  faultPc : Word
  info    : Word
  deriving DecidableEq, Repr

/-- `CAUSE_SINK` (R7, R212): what becomes of the records. Its contents are a list of records of its own (the field
`causeSink` of State): "Rule R211 holds unchanged", so no sink writes a general register, a byte of memory or `diag`. Which
sinks can be named is the model's choice (log entry 4). -/
inductive CauseSink where
  /-- Holds the `depth` newest records; a further one drops the oldest. `newest 1` is the sink that a later fault overwrites,
  which R213 assumes "unless that parameter says otherwise". -/
  | newest (depth : Nat)
  /-- Holds the first `depth` records and takes no further one. -/
  | oldest (depth : Nat)
  /-- Holds every record. -/
  | every
  /-- Any other sink: what it holds after a record is the free value `Config.otherSink`. -/
  | other (id : Nat)
  deriving DecidableEq, Repr

/-- What sink `other id` holds after a record, from what it held and the record. Nothing constrains it (log entry 4). -/
opaque Config.otherSink : Nat → List CauseRecord → CauseRecord → List CauseRecord

/-- `TRAP_MODE` (R7): `halt` is normative (R210); `vector` is the OPEN mode of R212 with its three parameters
`TRAP_VECTOR`, `CAUSE_CODE` and `CAUSE_SINK`. -/
inductive TrapMode where
  | halt
  | vector (trapVector : Word) (causeCode : CauseCodes) (causeSink : CauseSink)
  deriving DecidableEq, Repr

/-- The construction-time parameters that a step reads (R7). `RESET_GPR` and `MEM_INIT` are read by construction
only and are arguments of `Machine.State.construct`. -/
structure Config where
  /-- `MEM_SIZE`: the number of bytes of memory. -/
  memSize   : Nat
  dataAlign : DataAlign
  profile   : Profile
  trapMode  : TrapMode
  deriving DecidableEq, Repr

/-- `MEM_SIZE ≤ 2^32` (R7, decision D11). -/
def Config.maxMemSize : Nat := 4294967296

/-- The parameters the spec allows: `0 ≤ MEM_SIZE ≤ 2^32` (R7), and in vector mode `TRAP_VECTOR` is "a multiple of 4
below MEM_SIZE" (R212). -/
def Config.wf (c : Config) : Bool :=
  decide (c.memSize ≤ Config.maxMemSize) &&
    match c.trapMode with
    | .halt => true
    | .vector v _ _ => decide (v.toNat % 4 = 0) && decide (v.toNat < c.memSize)

/-- The parameters of `State.reset`: the defaults of R7 where it gives one. `MEM_SIZE` has none; the model takes the
largest memory the spec allows, so that every address exists (log entry 2: DESIGN CHOICE, unsafe). -/
def Config.default : Config :=
  { memSize := Config.maxMemSize, dataAlign := .checked, profile := .completed, trapMode := .halt }

/-- `WORD_COUNT` (R7): one instruction occupies one 32-bit word, always. -/
def Config.wordCount : Nat := 1

end Sys2Proof
end

