-- ==== Sys2Proof/Machine/State.lean ====
section
/-! DEFINITION. The whole state of the machine as plain data (spec/10_state.md R10 to R24), its reset value, and the
reasons a step can stop. -/

namespace Sys2Proof.Machine

/-- Memory (R23, R30): pairs of an address and the byte there, addresses strictly rising; an address that is not listed
reads as `Memory.unlisted`, and no listed byte has that value. Which addresses exist is `MEM_SIZE`'s to say. -/
abbrev Memory := List Host.Cell

/-- The two ways a memory primitive fails (R30). -/
inductive MemFault where
  /-- "address not a multiple of access width, checked-access only". -/
  | unaligned
  /-- "address ≥ backing size". -/
  | unmapped
  deriving DecidableEq, Repr

/-- The fault latch's record `(cause, fault_pc, info)` (R22, R200). -/
structure FaultRecord where
  cause   : Cause
  faultPc : Word
  info    : Word
  deriving DecidableEq, Repr

/-- One record `DiagDump(regs, pcv)` of the diagnostic output (R21): x0 to x31 and the PC. -/
structure DiagDump where
  regs : Vector Word 32
  pcv  : Word
  deriving DecidableEq, Repr

/-- The machine. -/
structure State where
  /-- The construction-time parameters (R7). They are not state in the spec's sense (R10): no step changes them. They
  stand here so that one model covers every choice of them (log entry 1). -/
  cfg : Config
  /-- `x[1]` to `x[31]`, `x[i]` at index `i - 1` (R11). `x[0]` has no storage: it reads as 0 in every state (R12). -/
  gpr : Vector Word 31
  /-- Slot 32 of the register file, the program counter (R15). -/
  pc : Word
  /-- `mem[0 .. MEM_SIZE-1]` (R23). -/
  mem : Memory
  /-- The fault latch (R22). -/
  fault : Option FaultRecord
  /-- The diagnostic output, the oldest record first (R21). -/
  diag : List DiagDump
  /-- What `CAUSE_SINK` holds, the newest record first: used with `TRAP_MODE = vector` only, and what is kept is for the
  parameter `CAUSE_SINK` to say (R212, R213; log entry 4). -/
  causeSink : List CauseRecord
  deriving DecidableEq, Repr

/-- Reasons to stop with a fault of the interface (`Host.Outcome.fault`): NONE. The seven faults of the hardware (R200) are
events the spec gives an effect: the step takes that effect (the latch is set or the vector is entered, R210, R212) and the
model answers the state after it. No instruction and no step of this hardware is without an effect: "none leads to
undefined behaviour" (R242). -/
inductive Fault where
  deriving DecidableEq, Repr

/-- Reasons to refuse. -/
inductive Refusal where
  /-- The instruction has no meaning in the model yet (safe). Every instruction has one, so no arm of `exec` raises it. -/
  | notModelled (mnemonic : String)
  deriving DecidableEq, Repr

/-- The machine right after reset, which is construction (R230), with the defaults of R7: x1 to x31 hold `RESET_GPR`,
default 0; PC 0; no byte of memory listed, that is `MEM_INIT`, default 0 everywhere; no fault; empty diagnostic output
(R24). -/
def State.reset : State :=
  { cfg := Config.default
    gpr := Vector.replicate 31 0#32
    pc := 0#32
    mem := []
    fault := none
    diag := []
    causeSink := [] }

end Sys2Proof.Machine
end

