-- ==== Sys2Proof/Machine/Ops.lean ====
section
/-! DEFINITION. The named operations over memory and registers: the register file (spec/10_state.md R12 to R15), the memory
primitives (spec/20_memory.md R31 to R46), the sequencer's commit (R104, R107) and taking a fault (R210, R212). -/

namespace Sys2Proof.Machine

/-- What every meaning and every step answers. -/
abbrev Result := Host.Outcome State Fault Refusal

/-! ### The byte store (R30 to R32) -/

/-- What an address that is not listed reads as: `MEM_INIT`'s default, 0 (R7, R24; log entry 3). -/
def Memory.unlisted : Byte := 0#8

/-- The byte at an address (the list is sorted, so a larger address ends the search). -/
def Memory.read : Memory → Nat → Byte
  | [], _ => Memory.unlisted
  | (c, x) :: m, a => if a < c then Memory.unlisted else if a = c then x else Memory.read m a

/-- Put a byte at the front of a sorted memory, unless it is what an unlisted address reads as. -/
def Memory.cons (m : Memory) (a : Nat) (b : Byte) : Memory :=
  if b = Memory.unlisted then m else (a, b) :: m

/-- Replace the byte at an address, keeping the canonical form. -/
def Memory.write : Memory → Nat → Byte → Memory
  | [], a, b => Memory.cons [] a b
  | (c, x) :: m, a, b =>
    if a < c then Memory.cons ((c, x) :: m) a b
    else if a = c then Memory.cons m a b
    else (c, x) :: Memory.write m a b

/-- No address of the memory is at or below `lo`'s predecessor: every listed address is at least `lo`, addresses rise
strictly, and no listed byte is what an unlisted address reads as. -/
def Memory.wfFrom : Nat → Memory → Bool
  | _, [] => true
  | lo, (c, x) :: m => decide (lo ≤ c) && decide (x ≠ Memory.unlisted) && Memory.wfFrom (c + 1) m

/-- The canonical form of a memory. -/
def Memory.wf (m : Memory) : Bool := Memory.wfFrom 0 m

/-- Every listed address is below `size`. -/
def Memory.within (size : Nat) : Memory → Bool
  | [] => true
  | (c, _) :: m => decide (c < size) && Memory.within size m

/-- The `k` bytes from address `a` up, lowest first. -/
def Memory.readBytes (m : Memory) (a : Nat) : Nat → List Byte
  | 0 => []
  | k + 1 => Memory.read m a :: Memory.readBytes m (a + 1) k

/-- Write bytes from address `a` up. -/
def Memory.writeBytes (m : Memory) (a : Nat) : List Byte → Memory
  | [] => m
  | b :: bs => Memory.writeBytes (Memory.write m a b) (a + 1) bs

/-! ### The memory controller's primitives (R31 to R41, R56); `A` is an address, `n` a width in bits -/

/-- `load8(A)` (R31). -/
def State.load8 (s : State) (A : Nat) : Except MemFault Byte :=
  if s.cfg.memSize ≤ A then .error .unmapped else .ok (s.mem.read A)

/-- `store8(A, b)` (R32). -/
def State.store8 (s : State) (A : Nat) (b : Byte) : Except MemFault State :=
  if s.cfg.memSize ≤ A then .error .unmapped else .ok { s with mem := s.mem.write A b }

/-- `loadN_unaligned(A)`, `N = n` (R35): the addresses of the bytes are integers and do not wrap (R40). -/
def State.loadUnaligned (s : State) (n A : Nat) : Except MemFault (BitVec n) :=
  if s.cfg.memSize < A + n / 8 then .error .unmapped
  else .ok (BitVec.ofNat n (leNat (s.mem.readBytes A (n / 8))))

/-- `storeN_unaligned(A, v)`, `N = n` (R36): all bytes are range-checked before the first is written (R41). -/
def State.storeUnaligned (s : State) (n A : Nat) (v : BitVec n) : Except MemFault State :=
  if s.cfg.memSize < A + n / 8 then .error .unmapped
  else .ok { s with mem := s.mem.writeBytes A (leBytes (n / 8) v.toNat) }

/-- `loadN_aligned(A)` (R37): the alignment is checked before any byte access, so `Unaligned` wins (R39). -/
def State.loadAligned (s : State) (n A : Nat) : Except MemFault (BitVec n) :=
  if A % (n / 8) = 0 then s.loadUnaligned n A else .error .unaligned

/-- `storeN_aligned(A, v)` (R38). -/
def State.storeAligned (s : State) (n A : Nat) (v : BitVec n) : Except MemFault State :=
  if A % (n / 8) = 0 then s.storeUnaligned n A v else .error .unaligned

/-- `MemRead(addr, n)`, `n` bytes (R45). `DATA_ALIGN` chooses the path; for `n = 1` both paths are `load8`. -/
def State.memRead (s : State) (addr : Word) (n : Nat) : Except MemFault (BitVec (8 * n)) :=
  match s.cfg.dataAlign with
  | .checked => s.loadAligned (8 * n) addr.toNat
  | .unchecked => s.loadUnaligned (8 * n) addr.toNat

/-- `MemWrite(addr, n, v)`: the low `8n` bits of `v` are stored (R46). -/
def State.memWrite (s : State) (addr : Word) (n : Nat) (v : Word) : Except MemFault State :=
  match s.cfg.dataAlign with
  | .checked => s.storeAligned (8 * n) addr.toNat (v.setWidth (8 * n))
  | .unchecked => s.storeUnaligned (8 * n) addr.toNat (v.setWidth (8 * n))

/-! ### The register file (R11 to R15) -/

/-- `x[i]`: register 0 reads as 0 in every state (R12). -/
def State.readReg (s : State) (r : RegIdx) : Word :=
  if r = 0#5 then 0#32 else s.gpr[r.toNat - 1]'(by have := r.isLt; omega)

/-- `x[i] <- v`: a write to register 0 is discarded (R13). -/
def State.writeReg (s : State) (r : RegIdx) (v : Word) : State :=
  if r = 0#5 then s else { s with gpr := s.gpr.set (r.toNat - 1) v (by have := r.isLt; omega) }

/-- The register file's own `load(index)`, index 0 to 32, the PC at 32 (R15). -/
def State.loadSlot (s : State) (i : Fin 33) : Word :=
  if i.val = 32 then s.pc else s.readReg (BitVec.ofNat 5 i.val)

/-- The register file's own `store(index, value)` (R15). -/
def State.storeSlot (s : State) (i : Fin 33) (v : Word) : State :=
  if i.val = 32 then { s with pc := v } else s.writeReg (BitVec.ofNat 5 i.val) v

/-- The record `EBREAK` emits: x0 to x31 and the PC, as they stand (R21, R138). -/
def State.dump (s : State) : DiagDump :=
  { regs := Vector.ofFn fun i => s.readReg (BitVec.ofFin i), pcv := s.pc }

/-- `emit DiagDump(...)`: append one record (R9, R21). -/
def State.emit (s : State) (d : DiagDump) : State := { s with diag := s.diag ++ [d] }

/-! ### The sequencer (R104, R106, R107) -/

/-- The sequencer's default `pc + 4*WORD_COUNT`, modulo 2^32 (R17, R104). -/
def State.seqPc (s : State) : Word := s.pc + 4#32 * BitVec.ofNat 32 Config.wordCount

/-- The commit: slot 32 is written, whatever the alignment of the value (R107). -/
def State.commit (s : State) (nextPc : Word) : State := { s with pc := nextPc }

/-- End of an arm that leaves `next_pc` at its default (R106). -/
def retire (s : State) : Result := .next (s.commit s.seqPc)

/-! ### Faults (R210 to R213). There is no return from a fault: no trap-return instruction exists (R213). -/

/-- `CAUSE_CODE(F)` (R212). -/
def codeOf (codes : CauseCodes) : Cause → Word
  | .fetchUnaligned => codes.fetchUnaligned
  | .fetchUnmapped => codes.fetchUnmapped
  | .illegal => codes.illegal
  | .unaligned => codes.unaligned
  | .unmapped => codes.unmapped
  | .environmentCall => codes.environmentCall
  | .unimplemented => codes.unimplemented

/-- `CAUSE_SINK.record` (R212): what the sink holds after record `r`, from what it held, the newest record first. -/
def recordCause (sink : CauseSink) (held : List CauseRecord) (r : CauseRecord) : List CauseRecord :=
  match sink with
  | .newest depth => (r :: held).take depth
  | .oldest depth => if held.length < depth then r :: held else held
  | .every => r :: held
  | .other id => Config.otherSink id held r

/-- `raise F(info)`: the step ends with fault `F`. With `TRAP_MODE = halt` the latch takes `(F, pc, info)` and nothing
else is written (R210); with `TRAP_MODE = vector` the cause is recorded and the PC slot takes `TRAP_VECTOR` (R212). -/
def raise (c : Cause) (info : Word) (s : State) : Result :=
  match s.cfg.trapMode with
  | .halt => .next { s with fault := some { cause := c, faultPc := s.pc, info := info } }
  | .vector v codes sink =>
    .next
      { s with
        causeSink := recordCause sink s.causeSink { code := codeOf codes c, faultPc := s.pc, info := info }
        pc := v }

/-- The cause of a failed data access: not wrapped in `MemoryError` (R45, R46). -/
def dataCause : MemFault → Cause
  | .unaligned => .unaligned
  | .unmapped => .unmapped

/-- The cause of a failed fetch: `MemoryError` wrapping it (R44). -/
def fetchCause : MemFault → Cause
  | .unaligned => .fetchUnaligned
  | .unmapped => .fetchUnmapped

/-- The arm of a tier N or U instruction: with `PROFILE = documented` it raises `Unimplemented(inst)` before anything
else, with `PROFILE = completed` its rule runs (R109, R203). The instruction's word is the one its encoding gives. -/
def completedOnly (i : Instr) (s : State) (rule : Result) : Result :=
  match s.cfg.profile with
  | .completed => rule
  | .documented => raise .unimplemented (encode i) s

/-! ### Host-side operations of the interface (R8) -/

/-- Place the bytes of `MEM_INIT` one by one; a byte outside memory is not part of `MEM_INIT`. -/
def Memory.place (size : Nat) (m : Memory) : List Host.Cell → Memory
  | [] => m
  | (a, b) :: cells => Memory.place size (if a < size then Memory.write m a b else m) cells

/-- `construct(MEM_SIZE)` (R8, R230), with the parameters `RESET_GPR` and `MEM_INIT` (R7) given as the 31 words and as the
bytes that differ from 0. -/
def State.construct (cfg : Config) (resetGpr : Vector Word 31) (memInit : List Host.Cell) : State :=
  { cfg := cfg, gpr := resetGpr, pc := 0#32, mem := Memory.place cfg.memSize [] memInit, fault := none, diag := [],
    causeSink := [] }

/-- The loader's effect (R236): the image's bytes go through `store8` from address `a` up, and an out-of-range store fails
the whole load (then there is no machine to step, decision D19). -/
def State.loadImageFrom (s : State) (a : Nat) : List Byte → Except MemFault State
  | [] => .ok s
  | b :: bs =>
    match s.store8 a b with
    | .error e => .error e
    | .ok t => t.loadImageFrom (a + 1) bs

/-- Boot: the image is copied sequentially from address 0 (R236). -/
def State.loadImage (s : State) (image : List Byte) : Except MemFault State := s.loadImageFrom 0 image

/-- What the host learns of a fault from the outcome of `step()` (R210): the record in the latch. -/
def State.report (s : State) : Option FaultRecord := s.fault

end Sys2Proof.Machine
end

