-- ==== Sys2Proof/Machine/Operands.lean ====
section
/-! DEFINITION. Every operand form: immediates extended to 32 bits (spec/30_encoding.md R68 to R75), the one addressing
mode (R125, R185), shift amounts (R155, R166) and control-transfer targets (R170). -/

namespace Sys2Proof.Machine

/-- `imm_i` (R68) and `imm_s` (R70): the 12-bit field, sign-extended. -/
def imm12 (imm : BitVec 12) : Word := imm.signExtend 32

/-- `imm_u = inst[31:12] ++ 0^12` (R69). -/
def immU (imm20 : BitVec 20) : Word := put 32 imm20 12

/-- `imm_b` (R71), sign-extended from 13 bits. -/
def immB (offset : BitVec 13) : Word := offset.signExtend 32

/-- `imm_j` (R72), sign-extended from 21 bits. -/
def immJ (offset : BitVec 21) : Word := offset.signExtend 32

/-- Base plus displacement: `x[rs1] + imm`, modulo 2^32 (R125, R185). -/
def effAddr (rs1 : RegIdx) (imm : BitVec 12) (s : State) : Word := s.readReg rs1 + imm12 imm

/-- `x[rs2][4:0]`: the amount of a register shift; bits 31 to 5 are ignored (R155). -/
def shiftAmount (v : Word) : BitVec 5 := v.extractLsb' 0 5

/-- `v << sh`, the low 32 bits, zeros entering at bit 0 (R147, R158). -/
def shiftLeft (v : Word) (sh : BitVec 5) : Word := v <<< sh.toNat

/-- `v >>u sh`, zeros entering at bit 31 (R148, R162). -/
def shiftRightLogical (v : Word) (sh : BitVec 5) : Word := v >>> sh.toNat

/-- `v >>s sh`, copies of bit 31 entering at bit 31 (R149, R163). -/
def shiftRightArith (v : Word) (sh : BitVec 5) : Word := v.sshiftRight sh.toNat

/-- `pc + imm_j` (R170, R172). -/
def jalTarget (offset : BitVec 21) (s : State) : Word := s.pc + immJ offset

/-- `(x[rs1] + imm_i) and 0xFFFFFFFE` (R170, R173). -/
def jalrTarget (rs1 : RegIdx) (imm : BitVec 12) (s : State) : Word := (s.readReg rs1 + imm12 imm) &&& 0xFFFFFFFE#32

/-- `pc + imm_b` (R170, R174). -/
def branchTarget (offset : BitVec 13) (s : State) : Word := s.pc + immB offset

end Sys2Proof.Machine
end

