-- ==== Sys2Proof/Machine/AluImm.lean ====
section
/-! DEFINITION. The nine ALU instructions with an immediate (spec/44_alu_immediate.md, R140): read `x[rs1]`, compute, write
`x[rd]`. -/

namespace Sys2Proof.Machine

/-- R141: `x[rd] <- x[rs1] + imm_i`. -/
def execAddi (rd rs1 : RegIdx) (imm : BitVec 12) (s : State) : Result :=
  completedOnly (.addi rd rs1 imm) s (retire (s.writeReg rd (s.readReg rs1 + imm12 imm)))

/-- R142: 1 if `signed(x[rs1]) < signed(imm_i)` else 0. -/
def execSlti (rd rs1 : RegIdx) (imm : BitVec 12) (s : State) : Result :=
  completedOnly (.slti rd rs1 imm) s (retire (s.writeReg rd (boolWord (ltSigned (s.readReg rs1) (imm12 imm)))))

/-- R143: 1 if `x[rs1] <u imm_i` else 0, the immediate sign-extended first. -/
def execSltiu (rd rs1 : RegIdx) (imm : BitVec 12) (s : State) : Result :=
  completedOnly (.sltiu rd rs1 imm) s (retire (s.writeReg rd (boolWord (ltUnsigned (s.readReg rs1) (imm12 imm)))))

/-- R144: `x[rs1] xor imm_i`. -/
def execXori (rd rs1 : RegIdx) (imm : BitVec 12) (s : State) : Result :=
  completedOnly (.xori rd rs1 imm) s (retire (s.writeReg rd (s.readReg rs1 ^^^ imm12 imm)))

/-- R145: `x[rs1] or imm_i`. -/
def execOri (rd rs1 : RegIdx) (imm : BitVec 12) (s : State) : Result :=
  completedOnly (.ori rd rs1 imm) s (retire (s.writeReg rd (s.readReg rs1 ||| imm12 imm)))

/-- R146: `x[rs1] and imm_i`. -/
def execAndi (rd rs1 : RegIdx) (imm : BitVec 12) (s : State) : Result :=
  completedOnly (.andi rd rs1 imm) s (retire (s.writeReg rd (s.readReg rs1 &&& imm12 imm)))

/-- R147: `x[rs1] << shamt`. -/
def execSlli (rd rs1 : RegIdx) (shamt : BitVec 5) (s : State) : Result :=
  completedOnly (.slli rd rs1 shamt) s (retire (s.writeReg rd (shiftLeft (s.readReg rs1) shamt)))

/-- R148: `x[rs1] >>u shamt`. -/
def execSrli (rd rs1 : RegIdx) (shamt : BitVec 5) (s : State) : Result :=
  completedOnly (.srli rd rs1 shamt) s (retire (s.writeReg rd (shiftRightLogical (s.readReg rs1) shamt)))

/-- R149: `x[rs1] >>s shamt`. -/
def execSrai (rd rs1 : RegIdx) (shamt : BitVec 5) (s : State) : Result :=
  completedOnly (.srai rd rs1 shamt) s (retire (s.writeReg rd (shiftRightArith (s.readReg rs1) shamt)))

end Sys2Proof.Machine
end

