-- ==== Sys2Proof/Machine/AluReg.lean ====
section
/-! DEFINITION. The ten register-register ALU instructions (spec/45_alu_register.md, R155): both sources are read before
the write. -/

namespace Sys2Proof.Machine

/-- R156: `x[rs1] + x[rs2]`. -/
def execAdd (rd rs1 rs2 : RegIdx) (s : State) : Result :=
  completedOnly (.add rd rs1 rs2) s (retire (s.writeReg rd (s.readReg rs1 + s.readReg rs2)))

/-- R157: `x[rs1] - x[rs2]`. -/
def execSub (rd rs1 rs2 : RegIdx) (s : State) : Result :=
  completedOnly (.sub rd rs1 rs2) s (retire (s.writeReg rd (s.readReg rs1 - s.readReg rs2)))

/-- R158: `x[rs1] << x[rs2][4:0]`. -/
def execSll (rd rs1 rs2 : RegIdx) (s : State) : Result :=
  completedOnly (.sll rd rs1 rs2) s (retire (s.writeReg rd (shiftLeft (s.readReg rs1) (shiftAmount (s.readReg rs2)))))

/-- R159: 1 if `signed(x[rs1]) < signed(x[rs2])` else 0. -/
def execSlt (rd rs1 rs2 : RegIdx) (s : State) : Result :=
  completedOnly (.slt rd rs1 rs2) s (retire (s.writeReg rd (boolWord (ltSigned (s.readReg rs1) (s.readReg rs2)))))

/-- R160: 1 if `x[rs1] <u x[rs2]` else 0. -/
def execSltu (rd rs1 rs2 : RegIdx) (s : State) : Result :=
  completedOnly (.sltu rd rs1 rs2) s (retire (s.writeReg rd (boolWord (ltUnsigned (s.readReg rs1) (s.readReg rs2)))))

/-- R161: `x[rs1] xor x[rs2]`. -/
def execXor (rd rs1 rs2 : RegIdx) (s : State) : Result :=
  completedOnly (.xor rd rs1 rs2) s (retire (s.writeReg rd (s.readReg rs1 ^^^ s.readReg rs2)))

/-- R162: `x[rs1] >>u x[rs2][4:0]`. -/
def execSrl (rd rs1 rs2 : RegIdx) (s : State) : Result :=
  completedOnly (.srl rd rs1 rs2) s (retire (s.writeReg rd (shiftRightLogical (s.readReg rs1) (shiftAmount (s.readReg rs2)))))

/-- R163: `x[rs1] >>s x[rs2][4:0]`. -/
def execSra (rd rs1 rs2 : RegIdx) (s : State) : Result :=
  completedOnly (.sra rd rs1 rs2) s (retire (s.writeReg rd (shiftRightArith (s.readReg rs1) (shiftAmount (s.readReg rs2)))))

/-- R164: `x[rs1] or x[rs2]`. -/
def execOr (rd rs1 rs2 : RegIdx) (s : State) : Result :=
  completedOnly (.or rd rs1 rs2) s (retire (s.writeReg rd (s.readReg rs1 ||| s.readReg rs2)))

/-- R165: `x[rs1] and x[rs2]`. -/
def execAnd (rd rs1 rs2 : RegIdx) (s : State) : Result :=
  completedOnly (.and rd rs1 rs2) s (retire (s.writeReg rd (s.readReg rs1 &&& s.readReg rs2)))

end Sys2Proof.Machine
end

