-- ==== Sys2Proof/Machine/Control.lean ====
section
/-! DEFINITION. Jumps and branches (spec/46_control_transfer.md): the instructions that override `next_pc` (R106). A target
is not checked for alignment; the next fetch is (R171). -/

namespace Sys2Proof.Machine

/-- R172: `x[rd] <- pc + 4`, `next_pc <- pc + imm_j`. -/
def execJal (rd : RegIdx) (offset : BitVec 21) (s : State) : Result :=
  completedOnly (.jal rd offset) s (.next ((s.writeReg rd s.seqPc).commit (jalTarget offset s)))

/-- R173: the target is computed from the old `x[rs1]`; then `x[rd] <- pc + 4`, `next_pc <- t`. -/
def execJalr (rd rs1 : RegIdx) (imm : BitVec 12) (s : State) : Result :=
  completedOnly (.jalr rd rs1 imm) s (.next ((s.writeReg rd s.seqPc).commit (jalrTarget rs1 imm s)))

/-- R174: `if cond(x[rs1], x[rs2]): next_pc <- pc + imm_b`. -/
def branchArm (cond : Word → Word → Bool) (rs1 rs2 : RegIdx) (offset : BitVec 13) (s : State) : Result :=
  .next (s.commit (if cond (s.readReg rs1) (s.readReg rs2) then branchTarget offset s else s.seqPc))

/-- R175. -/
def execBeq (rs1 rs2 : RegIdx) (offset : BitVec 13) (s : State) : Result :=
  completedOnly (.beq rs1 rs2 offset) s (branchArm condEq rs1 rs2 offset s)

/-- R176. -/
def execBne (rs1 rs2 : RegIdx) (offset : BitVec 13) (s : State) : Result :=
  completedOnly (.bne rs1 rs2 offset) s (branchArm condNe rs1 rs2 offset s)

/-- R177. -/
def execBlt (rs1 rs2 : RegIdx) (offset : BitVec 13) (s : State) : Result :=
  completedOnly (.blt rs1 rs2 offset) s (branchArm condLt rs1 rs2 offset s)

/-- R178. -/
def execBge (rs1 rs2 : RegIdx) (offset : BitVec 13) (s : State) : Result :=
  completedOnly (.bge rs1 rs2 offset) s (branchArm condGe rs1 rs2 offset s)

/-- R179. -/
def execBltu (rs1 rs2 : RegIdx) (offset : BitVec 13) (s : State) : Result :=
  completedOnly (.bltu rs1 rs2 offset) s (branchArm condLtu rs1 rs2 offset s)

/-- R180. -/
def execBgeu (rs1 rs2 : RegIdx) (offset : BitVec 13) (s : State) : Result :=
  completedOnly (.bgeu rs1 rs2 offset) s (branchArm condGeu rs1 rs2 offset s)

end Sys2Proof.Machine
end

