-- ==== Sys2Proof/Machine/Loads.lean ====
section
/-! DEFINITION. The five loads (spec/42_loads.md). -/

namespace Sys2Proof.Machine

/-- R125: read `x[rs1]`, compute `ea`, `MemRead`, write `x[rd]` widened by `ext`. A failed access raises before the write
(R131). -/
def loadArm (n : Nat) (ext : BitVec (8 * n) → Word) (rd rs1 : RegIdx) (imm : BitVec 12) (s : State) : Result :=
  match s.memRead (effAddr rs1 imm s) n with
  | .error e => raise (dataCause e) (effAddr rs1 imm s) s
  | .ok v => retire (s.writeReg rd (ext v))

/-- R126: `x[rd] <- sext_8(MemRead(ea, 1))`. -/
def execLb (rd rs1 : RegIdx) (imm : BitVec 12) (s : State) : Result :=
  loadArm 1 (fun v => v.signExtend 32) rd rs1 imm s

/-- R127: `x[rd] <- sext_16(MemRead(ea, 2))`. -/
def execLh (rd rs1 : RegIdx) (imm : BitVec 12) (s : State) : Result :=
  loadArm 2 (fun v => v.signExtend 32) rd rs1 imm s

/-- R128: `x[rd] <- MemRead(ea, 4)`. -/
def execLw (rd rs1 : RegIdx) (imm : BitVec 12) (s : State) : Result :=
  loadArm 4 (fun v => v.setWidth 32) rd rs1 imm s

/-- R129: `x[rd] <- zext_8(MemRead(ea, 1))`. -/
def execLbu (rd rs1 : RegIdx) (imm : BitVec 12) (s : State) : Result :=
  loadArm 1 (fun v => v.setWidth 32) rd rs1 imm s

/-- R130: `x[rd] <- zext_16(MemRead(ea, 2))`. -/
def execLhu (rd rs1 : RegIdx) (imm : BitVec 12) (s : State) : Result :=
  loadArm 2 (fun v => v.setWidth 32) rd rs1 imm s

end Sys2Proof.Machine
end

