-- ==== Sys2Proof/Machine/Stores.lean ====
section
/-! DEFINITION. The three stores (spec/47_stores.md). -/

namespace Sys2Proof.Machine

/-- R185: `MemWrite(ea, n, x[rs2])`, the low `8n` bits, little-endian. A failed access writes no byte (R189). -/
def storeArm (n : Nat) (rs1 rs2 : RegIdx) (imm : BitVec 12) (s : State) : Result :=
  match s.memWrite (effAddr rs1 imm s) n (s.readReg rs2) with
  | .error e => raise (dataCause e) (effAddr rs1 imm s) s
  | .ok t => retire t

/-- R186. -/
def execSb (rs1 rs2 : RegIdx) (imm : BitVec 12) (s : State) : Result :=
  completedOnly (.sb rs1 rs2 imm) s (storeArm 1 rs1 rs2 imm s)

/-- R187. -/
def execSh (rs1 rs2 : RegIdx) (imm : BitVec 12) (s : State) : Result :=
  completedOnly (.sh rs1 rs2 imm) s (storeArm 2 rs1 rs2 imm s)

/-- R188. -/
def execSw (rs1 rs2 : RegIdx) (imm : BitVec 12) (s : State) : Result :=
  completedOnly (.sw rs1 rs2 imm) s (storeArm 4 rs1 rs2 imm s)

end Sys2Proof.Machine
end

