-- ==== Sys2Proof/Machine/System.lean ====
section
/-! DEFINITION. `FENCE`, `FENCE.I`, `EBREAK` (spec/43_fence_ebreak.md), `ECALL` and the six CSR instructions
(spec/48_csr_ecall.md). -/

namespace Sys2Proof.Machine

/-- R136: nothing; every field is ignored. With one hart all accesses are ordered already (R51, R52). -/
def execFence (_fm _pred _succ : BitVec 4) (_rs1 _rd : RegIdx) (s : State) : Result := retire s

/-- R137: nothing. A store is seen by every later fetch without it (R54). -/
def execFenceI (_imm : BitVec 12) (_rs1 _rd : RegIdx) (s : State) : Result := retire s

/-- R138: `emit DiagDump(x[0..31], pc)`; execution continues with the next instruction. -/
def execEbreak (s : State) : Result := retire (s.emit s.dump)

/-- R197: `raise EnvironmentCall(inst)`. -/
def execEcall (s : State) : Result :=
  completedOnly .ecall s (raise .environmentCall (encode .ecall) s)

/-- R190: no CSR exists at any address, so every CSR instruction, whatever its fields, does `raise Illegal(inst)`. -/
def csrArm (i : Instr) (s : State) : Result :=
  completedOnly i s (raise .illegal (encode i) s)

/-- R191. -/
def execCsrrw (rd : RegIdx) (csr : BitVec 12) (rs1 : RegIdx) (s : State) : Result :=
  csrArm (.csrrw rd csr rs1) s

/-- R192. -/
def execCsrrs (rd : RegIdx) (csr : BitVec 12) (rs1 : RegIdx) (s : State) : Result :=
  csrArm (.csrrs rd csr rs1) s

/-- R193. -/
def execCsrrc (rd : RegIdx) (csr : BitVec 12) (rs1 : RegIdx) (s : State) : Result :=
  csrArm (.csrrc rd csr rs1) s

/-- R194. -/
def execCsrrwi (rd : RegIdx) (csr : BitVec 12) (uimm : BitVec 5) (s : State) : Result :=
  csrArm (.csrrwi rd csr uimm) s

/-- R195. -/
def execCsrrsi (rd : RegIdx) (csr : BitVec 12) (uimm : BitVec 5) (s : State) : Result :=
  csrArm (.csrrsi rd csr uimm) s

/-- R196. -/
def execCsrrci (rd : RegIdx) (csr : BitVec 12) (uimm : BitVec 5) (s : State) : Result :=
  csrArm (.csrrci rd csr uimm) s

end Sys2Proof.Machine
end

