-- ==== Sys2Proof/Machine/UpperImm.lean ====
section
/-! DEFINITION. `LUI`, `AUIPC` (spec/41_upper_immediate.md). -/

namespace Sys2Proof.Machine

/-- R120: `x[rd] <- imm_u`. -/
def execLui (rd : RegIdx) (imm20 : BitVec 20) (s : State) : Result :=
  retire (s.writeReg rd (immU imm20))

/-- R121: `x[rd] <- pc + imm_u`. -/
def execAuipc (rd : RegIdx) (imm20 : BitVec 20) (s : State) : Result :=
  completedOnly (.auipc rd imm20) s (retire (s.writeReg rd (s.pc + immU imm20)))

end Sys2Proof.Machine
end

