-- ==== Sys2Proof/Machine/Fetch.lean ====
section
/-! DEFINITION. Fetch and decode at an address (spec/20_memory.md R44, spec/30_encoding.md R76, spec/40_step_cycle.md
R102, R103). -/

namespace Sys2Proof.Machine

/-- `FetchWord(addr)`: an aligned 32-bit load through the memory, its fault wrapped as `MemoryError`; it changes no state
(R44). -/
def fetchWord (s : State) (addr : Word) : Except (Cause × Word) Word :=
  match s.loadAligned 32 addr.toNat with
  | .error e => .error (fetchCause e, addr)
  | .ok w => .ok w

/-- `decode(address)` (R76): an instruction, or the cause and `info` of the fault to raise. The fetch precedes the
classification (R102). -/
def decodeAt (s : State) (addr : Word) : Except (Cause × Word) Instr :=
  match fetchWord s addr with
  | .error e => .error e
  | .ok w =>
    match decodeWord w with
    | none => .error (.illegal, w)
    | some i => .ok i

/-- `s` with the four bytes of a table word stored where the next fetch reads. -/
def placeAtPc (s : State) (bytes : List Byte) : State :=
  { s with mem := s.mem.writeBytes s.pc.toNat bytes }

end Sys2Proof.Machine
end

