-- ==== Sys2Proof/Machine/Step.lean ====
section
/-! DEFINITION. The step cycle (spec/40_step_cycle.md R100). -/

namespace Sys2Proof.Machine

/-- One activation of `step()` (R100): a halted core changes nothing (R108); otherwise decode at the PC, which may raise,
and execute. The default of `next_pc` (R104) and the commit (R107) stand in each arm. -/
def step (s : State) : Host.Outcome State Fault Refusal :=
  match s.fault with
  | some _ => .next s
  | none =>
    match decodeAt s s.pc with
    | .error e => raise e.1 e.2 s
    | .ok i => exec i s

/-- `s` with the instruction of a table word stored at the PC (log entry 6): the program comes from outside the machine
(R236). Nothing else is changed. -/
def State.withFetchWord (s : State) (nbits w : Nat) : State := placeAtPc s (tableWordBytes nbits w)

end Sys2Proof.Machine
end

