-- ==== Sys2Proof/Safety.lean ====
section
/-! DEFINITION. The terms claims are stated in: what a safe run is, what one instruction does to each part of the state, and
the invariant of the machine. -/

namespace Sys2Proof.Machine

/-! ### What an instruction does to each part of the state -/

/-- Every word that agrees with `pattern` in the bits of `mask` decodes, and to the instruction `f` reads from it (R87). -/
def DecodesAs (mask pattern : Word) (f : Word → Instr) : Prop :=
  ∀ w : Word, w &&& mask = pattern → decodeWord w = some (f w)

/-- No general register changes. -/
def SameRegs (s t : State) : Prop := ∀ r, t.readReg r = s.readReg r

/-- Register `rd` holds `v` and every other register is as before; for `rd = 0` the write is discarded (R13). -/
def SetsReg (rd : RegIdx) (v : Word) (s t : State) : Prop :=
  ∀ r, t.readReg r = if r = rd ∧ r ≠ 0#5 then v else s.readReg r

/-- Every byte reads as before, and the same addresses are memory. -/
def SameMem (s t : State) : Prop := ∀ a, t.load8 a = s.load8 a

/-- The parameters, the fault latch, the diagnostic output and the cause sink are as before. -/
def SameRest (s t : State) : Prop :=
  t.cfg = s.cfg ∧ t.fault = s.fault ∧ t.diag = s.diag ∧ t.causeSink = s.causeSink

/-- The instruction completes; it writes `v` to `rd`, the PC becomes `pc'`, and nothing else changes. -/
def RegResult (i : Instr) (s : State) (rd : RegIdx) (v pc' : Word) : Prop :=
  ∃ t, exec i s = .next t ∧ SetsReg rd v s t ∧ t.pc = pc' ∧ SameMem s t ∧ SameRest s t

/-- The instruction completes; the PC becomes `pc'` and nothing else changes. -/
def PcResult (i : Instr) (s : State) (pc' : Word) : Prop :=
  ∃ t, exec i s = .next t ∧ SameRegs s t ∧ t.pc = pc' ∧ SameMem s t ∧ SameRest s t

/-- The instruction completes; the `n` bytes at `ea` up are the low bytes of `v`, the least significant at `ea`; every other
byte reads as before; the PC advances by 4 and nothing else changes. -/
def StoreResult (i : Instr) (s : State) (ea : Word) (n : Nat) (v : Word) : Prop :=
  ∃ t, exec i s = .next t ∧ SameRegs s t ∧ t.pc = s.pc + 4#32 ∧ SameRest s t ∧
    (∀ j, j < n → t.load8 (ea.toNat + j) = .ok (v.extractLsb' (8 * j) 8)) ∧
    (∀ a, a < ea.toNat ∨ ea.toNat + n ≤ a → t.load8 a = s.load8 a)

/-- What raising fault `c` with `info` in state `s` does, in either trap mode (R210, R211, R212): no register, no byte and no
record of `diag` changes. With `halt` the latch takes `(c, pc, info)` and the PC slot stays; with `vector` the cause's code
goes to the cause sink with `pc` and `info`, the PC slot takes `TRAP_VECTOR`, and the latch is not set. -/
def Raised (c : Cause) (info : Word) (s : State) (out : Result) : Prop :=
  ∃ t, out = .next t ∧ SameRegs s t ∧ SameMem s t ∧ t.cfg = s.cfg ∧ t.diag = s.diag ∧
    match s.cfg.trapMode with
    | .halt =>
      t.fault = some { cause := c, faultPc := s.pc, info := info } ∧ t.pc = s.pc ∧ t.causeSink = s.causeSink
    | .vector v codes sink =>
      t.causeSink = recordCause sink s.causeSink { code := codeOf codes c, faultPc := s.pc, info := info } ∧
      t.pc = v ∧ t.fault = s.fault

/-- The data access of `n` bytes at `ea` is one the alignment rule in force allows (R43, R47). -/
def DataAligned (s : State) (ea : Word) (n : Nat) : Prop := s.cfg.dataAlign = .unchecked ∨ ea.toNat % n = 0

/-- The access of `n` bytes at `ea` lies in memory; the byte addresses are integers (R40). -/
def InMemory (s : State) (ea : Word) (n : Nat) : Prop := ea.toNat + n ≤ s.cfg.memSize

/-- The instructions that may override `next_pc` (R106). -/
def isControlTransfer : Instr → Bool
  | .jal _ _ | .jalr _ _ _ | .beq _ _ _ | .bne _ _ _ | .blt _ _ _ | .bge _ _ _ => true
  | .bltu _ _ _ | .bgeu _ _ _ => true
  | .lui _ _ | .auipc _ _ | .lb _ _ _ | .lh _ _ _ | .lw _ _ _ | .lbu _ _ _ => false
  | .lhu _ _ _ | .sb _ _ _ | .sh _ _ _ | .sw _ _ _ | .addi _ _ _ | .slti _ _ _ => false
  | .sltiu _ _ _ | .xori _ _ _ | .ori _ _ _ | .andi _ _ _ | .slli _ _ _ | .srli _ _ _ => false
  | .srai _ _ _ | .add _ _ _ | .sub _ _ _ | .sll _ _ _ | .slt _ _ _ | .sltu _ _ _ => false
  | .xor _ _ _ | .srl _ _ _ | .sra _ _ _ | .or _ _ _ | .and _ _ _ | .fence _ _ _ _ _ => false
  | .fenceI _ _ _ | .ecall | .ebreak | .csrrw _ _ _ | .csrrs _ _ _ | .csrrc _ _ _ => false
  | .csrrwi _ _ _ | .csrrsi _ _ _ | .csrrci _ _ _ => false

/-- The six CSR instructions (R190). -/
def isCsr : Instr → Bool
  | .csrrw _ _ _ | .csrrs _ _ _ | .csrrc _ _ _ | .csrrwi _ _ _ | .csrrsi _ _ _ | .csrrci _ _ _ => true
  | .lui _ _ | .auipc _ _ | .jal _ _ | .jalr _ _ _ | .beq _ _ _ | .bne _ _ _ => false
  | .blt _ _ _ | .bge _ _ _ | .bltu _ _ _ | .bgeu _ _ _ | .lb _ _ _ | .lh _ _ _ => false
  | .lw _ _ _ | .lbu _ _ _ | .lhu _ _ _ | .sb _ _ _ | .sh _ _ _ | .sw _ _ _ => false
  | .addi _ _ _ | .slti _ _ _ | .sltiu _ _ _ | .xori _ _ _ | .ori _ _ _ | .andi _ _ _ => false
  | .slli _ _ _ | .srli _ _ _ | .srai _ _ _ | .add _ _ _ | .sub _ _ _ | .sll _ _ _ => false
  | .slt _ _ _ | .sltu _ _ _ | .xor _ _ _ | .srl _ _ _ | .sra _ _ _ | .or _ _ _ => false
  | .and _ _ _ | .fence _ _ _ _ _ | .fenceI _ _ _ | .ecall | .ebreak => false

/-- The width in bytes of an instruction's data access and its effective address, if it makes one (R48, R125, R185). -/
def dataAccess (i : Instr) (s : State) : Option (Nat × Word) :=
  match i with
  | .lb _ rs1 imm | .lbu _ rs1 imm | .sb rs1 _ imm => some (1, s.readReg rs1 + imm.signExtend 32)
  | .lh _ rs1 imm | .lhu _ rs1 imm | .sh rs1 _ imm => some (2, s.readReg rs1 + imm.signExtend 32)
  | .lw _ rs1 imm | .sw rs1 _ imm => some (4, s.readReg rs1 + imm.signExtend 32)
  | .lui _ _ | .auipc _ _ | .jal _ _ | .jalr _ _ _ | .beq _ _ _ | .bne _ _ _ => none
  | .blt _ _ _ | .bge _ _ _ | .bltu _ _ _ | .bgeu _ _ _ | .addi _ _ _ | .slti _ _ _ => none
  | .sltiu _ _ _ | .xori _ _ _ | .ori _ _ _ | .andi _ _ _ | .slli _ _ _ | .srli _ _ _ => none
  | .srai _ _ _ | .add _ _ _ | .sub _ _ _ | .sll _ _ _ | .slt _ _ _ | .sltu _ _ _ => none
  | .xor _ _ _ | .srl _ _ _ | .sra _ _ _ | .or _ _ _ | .and _ _ _ | .fence _ _ _ _ _ => none
  | .fenceI _ _ _ | .ecall | .ebreak | .csrrw _ _ _ | .csrrs _ _ _ | .csrrc _ _ _ => none
  | .csrrwi _ _ _ | .csrrsi _ _ _ | .csrrci _ _ _ => none

/-- The instruction word in memory at the PC (R33). -/
def wordAtPc (s : State) : Word := BitVec.ofNat 32 (leNat (s.mem.readBytes s.pc.toNat 4))

/-- The one fault the next step raises, if any, with its `info`: the first met in the order of R203, under the conditions of
the table of R200. -/
def pendingFault (s : State) : Option (Cause × Word) :=
  if s.pc.toNat % 4 ≠ 0 then some (.fetchUnaligned, s.pc)
  else if s.cfg.memSize < s.pc.toNat + 4 then some (.fetchUnmapped, s.pc)
  else
    match decodeWord (wordAtPc s) with
    | none => some (.illegal, wordAtPc s)
    | some i =>
      if s.cfg.profile = .documented ∧ i.tier ≠ .S then some (.unimplemented, wordAtPc s)
      else if isCsr i = true then some (.illegal, wordAtPc s)
      else if i = .ecall then some (.environmentCall, wordAtPc s)
      else
        match dataAccess i s with
        | none => none
        | some (n, ea) =>
          if s.cfg.dataAlign = .checked ∧ ea.toNat % n ≠ 0 then some (.unaligned, ea)
          else if s.cfg.memSize < ea.toNat + n then some (.unmapped, ea)
          else none

/-! ### Safe runs -/

/-- The halted state (R108, R210). A run that reaches it did not complete. -/
def State.halted (s : State) : Bool := s.fault.isSome

/-- A step that completes: the core is live, no fault is pending, and the step answers `t` (R107, R210). -/
def Completes (s t : State) : Prop := s.fault = none ∧ pendingFault s = none ∧ step s = .next t

/-- A safe run of `n` steps from `s` to `t`: every step completes (R110, R210). -/
def SafeRun : Nat → State → State → Prop
  | 0, s, t => t = s
  | n + 1, s, t => ∃ u, Completes s u ∧ SafeRun n u t

/-- The launch premises of R238 that are about the state: no fault, empty diagnostic output, PC 0. -/
def State.launched (s : State) : Prop := s.fault = none ∧ s.diag = [] ∧ s.pc = 0#32

/-! ### The same machine under another choice of a parameter (R7) -/

def State.withDataAlign (d : DataAlign) (s : State) : State := { s with cfg := { s.cfg with dataAlign := d } }
def State.withProfile (p : Profile) (s : State) : State := { s with cfg := { s.cfg with profile := p } }
def State.withMemSize (n : Nat) (s : State) : State := { s with cfg := { s.cfg with memSize := n } }
def State.withTrapMode (m : TrapMode) (s : State) : State := { s with cfg := { s.cfg with trapMode := m } }

/-! ### The invariant -/

/-- The latch is set with `TRAP_MODE = halt` only (R22), and then the PC slot holds the faulting address (R211). -/
def State.latchOk (s : State) : Bool :=
  match s.fault with
  | none => true
  | some r => decide (s.cfg.trapMode = .halt) && decide (r.faultPc = s.pc)

/-- The cause sink holds no more records than it has room for (R212; for `every` and `other` nothing is asked). -/
def sinkFits : CauseSink → List CauseRecord → Bool
  | .newest depth, held | .oldest depth, held => decide (held.length ≤ depth)
  | .every, _ | .other _, _ => true

/-- The cause sink is written with `TRAP_MODE = vector` only (R210, R212), and never holds more than it has room for. -/
def State.sinkOk (s : State) : Bool :=
  match s.cfg.trapMode with
  | .halt => decide (s.causeSink = [])
  | .vector _ _ sink => sinkFits sink s.causeSink

/-- Every dump shows x0 as 0 (R138). -/
def State.diagOk (s : State) : Bool := s.diag.all fun d => decide (d.regs[0] = 0#32)

/-- What every step keeps: parameters the spec allows, memory in its canonical form with every listed byte inside
`[0, MEM_SIZE)` (R23), the latch, the sink and the dumps as above. -/
def State.inv (s : State) : Bool :=
  s.cfg.wf && s.mem.wf && s.mem.within s.cfg.memSize && s.latchOk && s.sinkOk && s.diagOk

/-- Two states that agree on everything but the diagnostic output (R21). -/
def SameButDiag (s t : State) : Prop :=
  t.cfg = s.cfg ∧ t.gpr = s.gpr ∧ t.pc = s.pc ∧ t.mem = s.mem ∧ t.fault = s.fault ∧ t.causeSink = s.causeSink

end Sys2Proof.Machine
end

