-- ==== Sys2Proof/Certificates/Slice0/Obligations.lean ====
section
/-! DEFINITION. The statements for the provers. The predicates they use (RegResult, PcResult, StoreResult, Raised, SetsReg,
SameRegs, SameMem, SameRest, DecodesAs, pendingFault, SafeRun and the invariant) are defined in Sys2Proof/Safety.lean. -/

open Sys2Proof Sys2Proof.Machine

/-! ### Encoding -/

/-- Decoding the word of a well-formed instruction gives the instruction back, every operand at every value its field
admits. -/
def Obligations.DecodeAfterEncode : Prop :=
  ∀ i : Instr, i.wf = true → decodeWord (encode i) = some i

/-- Every word that decodes is the word of the instruction it decodes to, which is well-formed: no bit of a word is lost. -/
def Obligations.EncodeAfterDecode : Prop :=
  ∀ (w : Word) (i : Instr), decodeWord w = some i → encode i = w ∧ i.wf = true

/-- The decoder and the 47 rows of R87 agree: a word that matches a row decodes to that row's instruction, with its tier, at
most one row matches, and a word decodes to nothing exactly when it matches no row. -/
def Obligations.DecoderFollowsOpcodeTable : Prop :=
  opcodeTable.length = 47 ∧
  ∀ w : Word,
    (∀ r ∈ opcodeTable, r.matchesWord w = true →
      ∃ i, decodeWord w = some i ∧ i.mnemonic = r.mnemonic ∧ i.tier = r.tier) ∧
    (∀ r ∈ opcodeTable, ∀ q ∈ opcodeTable, r.matchesWord w = true → q.matchesWord w = true → r = q) ∧
    (decodeWord w = none ↔ ∀ r ∈ opcodeTable, r.matchesWord w = false)

/-- R85: a fetched word is `Illegal` exactly when it matches no row, and the step then raises `Illegal(inst)`; and the cases
R85 spells out. -/
def Obligations.IllegalWordsRaiseIllegal : Prop :=
  (∀ (s : State) (w : Word), s.fault = none → fetchWord s s.pc = .ok w →
    (decodeAt s s.pc = .error (.illegal, w) ↔ ∀ r ∈ opcodeTable, r.matchesWord w = false) ∧
    ((∀ r ∈ opcodeTable, r.matchesWord w = false) → Raised .illegal w s (step s))) ∧
  (∀ w : Word,
    (w.extractLsb' 0 2 ≠ 0b11#2 → decodeWord w = none) ∧
    (opcodeOf w ∉ [0x37#7, 0x17#7, 0x6F#7, 0x67#7, 0x63#7, 0x03#7, 0x23#7, 0x13#7, 0x33#7, 0x0F#7, 0x73#7] →
      decodeWord w = none) ∧
    (opcodeOf w = 0x67#7 → funct3Of w ≠ 0#3 → decodeWord w = none) ∧
    (opcodeOf w = 0x63#7 → funct3Of w = 2#3 ∨ funct3Of w = 3#3 → decodeWord w = none) ∧
    (opcodeOf w = 0x03#7 → funct3Of w = 3#3 ∨ funct3Of w = 6#3 ∨ funct3Of w = 7#3 → decodeWord w = none) ∧
    (opcodeOf w = 0x23#7 → 3 ≤ (funct3Of w).toNat → decodeWord w = none) ∧
    (opcodeOf w = 0x13#7 → funct3Of w = 1#3 → funct7Of w ≠ 0#7 → decodeWord w = none) ∧
    (opcodeOf w = 0x13#7 → funct3Of w = 5#3 → funct7Of w ≠ 0#7 → funct7Of w ≠ 0x20#7 → decodeWord w = none) ∧
    (opcodeOf w = 0x33#7 → funct7Of w ≠ 0#7 →
      ¬ (funct7Of w = 0x20#7 ∧ (funct3Of w = 0#3 ∨ funct3Of w = 5#3)) → decodeWord w = none) ∧
    (opcodeOf w = 0x0F#7 → 2 ≤ (funct3Of w).toNat → decodeWord w = none) ∧
    (opcodeOf w = 0x73#7 → funct3Of w = 4#3 → decodeWord w = none) ∧
    (opcodeOf w = 0x73#7 → funct3Of w = 0#3 → w ≠ 0x00000073#32 → w ≠ 0x00100073#32 → decodeWord w = none))

/-- Words of the spec's examples, one per family, decode to the instruction each stands for (sanity). -/
def Obligations.SampleWordsDecode : Prop :=
  decodeWord 0x0BEEF137#32 = some (.lui 2#5 0x0BEEF#20) ∧
  decodeWord 0xFF9FF06F#32 = some (.jal 0#5 (BitVec.ofInt 21 (-8))) ∧
  decodeWord 0xFE009CE3#32 = some (.bne 1#5 0#5 (BitVec.ofInt 13 (-8))) ∧
  decodeWord 0xFFF30283#32 = some (.lb 5#5 6#5 (BitVec.ofInt 12 (-1))) ∧
  decodeWord 0xFE511F23#32 = some (.sh 2#5 5#5 (BitVec.ofInt 12 (-2))) ∧
  decodeWord 0x4040D193#32 = some (.srai 3#5 1#5 4#5) ∧
  decodeWord 0x402081B3#32 = some (.sub 3#5 1#5 2#5) ∧
  decodeWord 0x8330000F#32 = some (.fence 8#4 3#4 3#4 0#5 0#5) ∧
  decodeWord 0x3002D073#32 = some (.csrrwi 0#5 0x300#12 5#5)

/-- The decoder's five immediates, extended to 32 bits, are what the source's field builder assembles in the forms of
R68 to R72. -/
def Obligations.ImmediatesMatchFieldBuilder : Prop :=
  ∀ w : Word,
    imm12 (immIOf w) = (FieldBuilder.start.addBits w 20 31).sext ∧
    immU (immUOf w) = ((FieldBuilder.start.skipBits 12).addBits w 12 31).zext ∧
    imm12 (immSOf w) = ((FieldBuilder.start.addBits w 7 11).addBits w 25 31).sext ∧
    immB (immBOf w) =
      (((((FieldBuilder.start.skipBits 1).addBits w 8 11).addBits w 25 30).addBits w 7 7).addBits w 31 31).sext ∧
    immJ (immJOf w) =
      (((((FieldBuilder.start.skipBits 1).addBits w 21 30).addBits w 20 20).addBits w 12 19).addBits w 31 31).sext

/-- R60: `extract_bits` is the unsigned value of the inclusive bit range, right-justified; and the source's example. -/
def Obligations.ExtractBitsIsTheBitRange : Prop :=
  (∀ (w : Word) (lo hi : Nat), lo ≤ hi → hi < 32 →
    (extractBits w lo hi).toNat = w.toNat / 2 ^ lo % 2 ^ (hi - lo + 1)) ∧
  extractBits 0b110101001#32 3 5 = 0b101#32

/-- R61: `sext_field(v, k)` keeps bits `k-1` to 0 and copies bit `k-1` into every bit above; it is idempotent; at width 32 it
is the identity; and the source's example. -/
def Obligations.SextFieldCopiesTheTopBit : Prop :=
  (∀ (v : Word) (k : Nat), 1 ≤ k → k ≤ 32 →
    (∀ j, j < 32 → (sextField v k).getLsbD j = if j < k then v.getLsbD j else v.getLsbD (k - 1)) ∧
    sextField (sextField v k) k = sextField v k) ∧
  (∀ v : Word, sextField v 32 = v) ∧
  sextField 0b11110100#32 8 = BitVec.ofInt 32 (-12)

/-- The field builder puts each range above what is already there: for a value that fits its offset, and while the total stays
within 32 bits, `add_bits` adds the range times `2^offset` and advances the offset by its width; `skip_bits` only advances. -/
def Obligations.FieldBuilderStacksRanges : Prop :=
  ∀ (b : FieldBuilder) (w : Word) (lo hi count : Nat), lo ≤ hi → hi < 32 → b.acc.toNat < 2 ^ b.off →
    b.off + (hi - lo + 1) ≤ 32 →
    (b.addBits w lo hi).acc.toNat = b.acc.toNat + 2 ^ b.off * (w.toNat / 2 ^ lo % 2 ^ (hi - lo + 1)) ∧
    (b.addBits w lo hi).off = b.off + (hi - lo + 1) ∧
    (b.addBits w lo hi).acc.toNat < 2 ^ (b.addBits w lo hi).off ∧
    (b.skipBits count).acc = b.acc ∧ (b.skipBits count).off = b.off + count

/-! ### Registers and memory -/

/-- Register 0 reads as 0 in every state; a write to a register from 1 to 31 is read back and leaves every other register
alone; a write to register 0 changes nothing; and the same through the register file's own 33 slots, the PC being slot 32. -/
def Obligations.RegisterFileReadsBackWrites : Prop :=
  ∀ (s : State) (v : Word),
    s.readReg 0#5 = 0#32 ∧ s.writeReg 0#5 v = s ∧
    (∀ r q : RegIdx, (s.writeReg r v).readReg q = if q = r ∧ q ≠ 0#5 then v else s.readReg q) ∧
    s.loadSlot 0 = 0#32 ∧ s.storeSlot 0 v = s ∧
    (∀ k : Fin 33, k ≠ 0 → (s.storeSlot k v).loadSlot k = v) ∧
    (∀ k j : Fin 33, j ≠ k → (s.storeSlot k v).loadSlot j = s.loadSlot j)

/-- The load primitives (R31, R35, R37, R39): the range check, the little-endian composition from single bytes, and the
alignment check before any byte access. -/
def Obligations.LoadPrimitivesComposeBytes : Prop :=
  (∀ (s : State) (a : Nat),
    (s.cfg.memSize ≤ a → s.load8 a = .error .unmapped) ∧
    (a < s.cfg.memSize → s.load8 a = .ok (s.mem.read a))) ∧
  ∀ (s : State) (n a : Nat), n = 16 ∨ n = 32 ∨ n = 64 →
    (s.cfg.memSize < a + n / 8 → s.loadUnaligned n a = .error .unmapped) ∧
    (a + n / 8 ≤ s.cfg.memSize → ∃ v : BitVec n, s.loadUnaligned n a = .ok v ∧
      ∀ j, j < n / 8 → s.load8 (a + j) = .ok (v.extractLsb' (8 * j) 8)) ∧
    (a % (n / 8) ≠ 0 → s.loadAligned n a = .error .unaligned) ∧
    (a % (n / 8) = 0 → s.loadAligned n a = s.loadUnaligned n a)

/-- The store primitives (R32, R36, R38): the same checks, which come before the first byte is written (a failed store
answers no state), then the bytes of the value, the least significant at the lowest address, and nothing else. -/
def Obligations.StorePrimitivesWriteBytes : Prop :=
  (∀ (s : State) (a : Nat) (b : Byte), s.mem.wf = true →
    (s.cfg.memSize ≤ a → s.store8 a b = .error .unmapped) ∧
    (a < s.cfg.memSize → ∃ m, s.store8 a b = .ok { s with mem := m } ∧ m.read a = b ∧
      ∀ c, c ≠ a → m.read c = s.mem.read c)) ∧
  ∀ (s : State) (n a : Nat) (v : BitVec n), s.mem.wf = true → n = 16 ∨ n = 32 ∨ n = 64 →
    (s.cfg.memSize < a + n / 8 → s.storeUnaligned n a v = .error .unmapped) ∧
    (a + n / 8 ≤ s.cfg.memSize → ∃ m, s.storeUnaligned n a v = .ok { s with mem := m } ∧
      (∀ j, j < n / 8 → m.read (a + j) = v.extractLsb' (8 * j) 8) ∧
      ∀ c, c < a ∨ a + n / 8 ≤ c → m.read c = s.mem.read c) ∧
    (a % (n / 8) ≠ 0 → s.storeAligned n a v = .error .unaligned) ∧
    (a % (n / 8) = 0 → s.storeAligned n a v = s.storeUnaligned n a v)

/-- R42: for widths 8, 16, 32 and 64, a store followed by a load of the same width at the same address, through either path,
returns the stored value, and bytes outside are not changed (the last clause is one that R42 marks as derived from R32 and
R36). -/
def Obligations.LoadAfterStoreReturnsValue : Prop :=
  (∀ (s t : State) (a : Nat) (b : Byte), s.mem.wf = true → s.store8 a b = .ok t →
    t.load8 a = .ok b ∧ ∀ c, c ≠ a → t.load8 c = s.load8 c) ∧
  ∀ (s t : State) (n a : Nat) (v : BitVec n), s.mem.wf = true → n = 16 ∨ n = 32 ∨ n = 64 →
    s.storeUnaligned n a v = .ok t ∨ s.storeAligned n a v = .ok t →
    t.loadUnaligned n a = .ok v ∧ (a % (n / 8) = 0 → t.loadAligned n a = .ok v) ∧
    ∀ c, c < a ∨ a + n / 8 ≤ c → t.load8 c = s.load8 c

/-- R40: with a memory the spec allows, an access with a byte past address `2^32 - 1` fails `Unmapped` in the unchecked
primitives, and in the checked ones where it is aligned: no access wraps to address 0 (the spec's own decision D11). -/
def Obligations.NoAccessWrapsToZero : Prop :=
  ∀ (s : State) (n a : Nat) (v : BitVec n), s.cfg.wf = true → 4294967296 < a + n / 8 →
    s.loadUnaligned n a = .error .unmapped ∧ s.storeUnaligned n a v = .error .unmapped ∧
    (a % (n / 8) = 0 → s.loadAligned n a = .error .unmapped ∧ s.storeAligned n a v = .error .unmapped)

/-- Two memories in canonical form that read the same at every address are the same list. -/
def Obligations.CanonicalMemoriesWithEqualBytesAreEqual : Prop :=
  ∀ m m' : Memory, m.wf = true → m'.wf = true → (∀ a, m.read a = m'.read a) → m = m'

/-! ### The step -/

/-- A live core whose PC is aligned and whose four bytes there decode to `i` runs exactly `i`: step adds nothing around
exec. -/
def Obligations.StepRunsDecodedInstruction : Prop :=
  ∀ (s : State) (i : Instr) (rest : List Byte), s.fault = none → s.pc.toNat % 4 = 0 →
    s.pc.toNat + 4 ≤ s.cfg.memSize → decodeBytes (s.mem.readBytes s.pc.toNat 4) = .ok (i, rest) →
    step s = exec i s

/-- A word placed at the PC by `withFetchWord` is what the next step runs. -/
def Obligations.PlacedWordIsRun : Prop :=
  ∀ (s : State) (w : Word) (i : Instr), s.fault = none → s.mem.wf = true → s.pc.toNat % 4 = 0 →
    s.pc.toNat + 4 ≤ s.cfg.memSize → decodeWord w = some i →
    step (s.withFetchWord 32 w.toNat) = exec i (s.withFetchWord 32 w.toNat)

/-- R108: a halted core, stepped any number of times, is unchanged (the spec's own decision D7). -/
def Obligations.HaltedCoreNeverChanges : Prop :=
  ∀ (n : Nat) (s : State), s.fault ≠ none → Sys2Proof.core.run n s = .next s

/-- R44: `FetchWord` at every address: `MemoryError(Unaligned)` where the address is no multiple of 4, whatever `MEM_SIZE`
is; else `MemoryError(Unmapped)` where the word is not all in memory; else the four bytes there, little-endian. A live core
raises these faults with the fetch address as `info`. -/
def Obligations.FetchFaultsOrReadsTheWord : Prop :=
  (∀ (s : State) (a : Word),
    (a.toNat % 4 ≠ 0 → fetchWord s a = .error (.fetchUnaligned, a)) ∧
    (a.toNat % 4 = 0 → s.cfg.memSize < a.toNat + 4 → fetchWord s a = .error (.fetchUnmapped, a)) ∧
    (∀ b0 b1 b2 b3 : Byte, a.toNat % 4 = 0 → s.load8 a.toNat = .ok b0 → s.load8 (a.toNat + 1) = .ok b1 →
      s.load8 (a.toNat + 2) = .ok b2 → s.load8 (a.toNat + 3) = .ok b3 →
      fetchWord s a = .ok (b3 ++ b2 ++ b1 ++ b0))) ∧
  ∀ s : State, s.fault = none →
    (s.pc.toNat % 4 ≠ 0 → Raised .fetchUnaligned s.pc s (step s)) ∧
    (s.pc.toNat % 4 = 0 → s.cfg.memSize < s.pc.toNat + 4 → Raised .fetchUnmapped s.pc s (step s))

/-- No instruction and no step is without an effect: each answers a next state from every state. -/
def Obligations.EveryStepAnswersANextState : Prop :=
  (∀ (i : Instr) (s : State), ∃ t, exec i s = .next t) ∧ ∀ s : State, ∃ t, step s = .next t

/-- R103: decoding at an address depends on nothing but the four bytes there. -/
def Obligations.DecodeDependsOnTheBytesOnly : Prop :=
  ∀ (s s' : State) (a : Word), (∀ j, j < 4 → s'.load8 (a.toNat + j) = s.load8 (a.toNat + j)) →
    decodeAt s' a = decodeAt s a

/-! ### Results of instructions -/

/-- R120, R121: `imm_u` goes to `rd`, or `pc + imm_u`; with `PROFILE = documented` `AUIPC` raises `Unimplemented`. For every
`rd`: a write to register 0 is discarded. What `AUIPC` computes is the spec's own decision D5 (log entry 9); the cause in the
documented profile is its decision D20 (log entry 10). -/
def Obligations.UpperImmediateResults : Prop :=
  DecodesAs 0x0000007F#32 0x00000037#32 (fun w => .lui (rdOf w) (immUOf w)) ∧
  DecodesAs 0x0000007F#32 0x00000017#32 (fun w => .auipc (rdOf w) (immUOf w)) ∧
  ∀ (s : State) (rd : RegIdx) (imm20 : BitVec 20),
    RegResult (.lui rd imm20) s rd (imm20 ++ 0#12) (s.pc + 4#32) ∧
    (s.cfg.profile = .completed →
      RegResult (.auipc rd imm20) s rd (s.pc + (imm20 ++ 0#12)) (s.pc + 4#32)) ∧
    (s.cfg.profile = .documented →
      Raised .unimplemented (encode (.auipc rd imm20)) s (exec (.auipc rd imm20) s))

/-- R126, R129: the byte at `ea`, widened by sign or by zero; `Unmapped(ea)` where `ea` is not in memory; never
`Unaligned`. For every `rd`, register 0 included. -/
def Obligations.LoadByteResults : Prop :=
  DecodesAs 0x0000707F#32 0x00000003#32 (fun w => .lb (rdOf w) (rs1Of w) (immIOf w)) ∧
  DecodesAs 0x0000707F#32 0x00004003#32 (fun w => .lbu (rdOf w) (rs1Of w) (immIOf w)) ∧
  ∀ (s : State) (rd rs1 : RegIdx) (imm : BitVec 12) (ea : Word), ea = s.readReg rs1 + imm.signExtend 32 →
    (∀ b : Byte, s.load8 ea.toNat = .ok b →
      RegResult (.lb rd rs1 imm) s rd (b.signExtend 32) (s.pc + 4#32) ∧
      RegResult (.lbu rd rs1 imm) s rd (b.setWidth 32) (s.pc + 4#32)) ∧
    (s.cfg.memSize ≤ ea.toNat →
      Raised .unmapped ea s (exec (.lb rd rs1 imm) s) ∧ Raised .unmapped ea s (exec (.lbu rd rs1 imm) s))

/-- R127, R130: the halfword `mem[ea+1] ++ mem[ea]`, widened by sign or by zero; `Unaligned(ea)` where the path is checked
and `ea` odd, otherwise `Unmapped(ea)` where the halfword is not all in memory. -/
def Obligations.LoadHalfwordResults : Prop :=
  DecodesAs 0x0000707F#32 0x00001003#32 (fun w => .lh (rdOf w) (rs1Of w) (immIOf w)) ∧
  DecodesAs 0x0000707F#32 0x00005003#32 (fun w => .lhu (rdOf w) (rs1Of w) (immIOf w)) ∧
  ∀ (s : State) (rd rs1 : RegIdx) (imm : BitVec 12) (ea : Word), ea = s.readReg rs1 + imm.signExtend 32 →
    (∀ b0 b1 : Byte, DataAligned s ea 2 → s.load8 ea.toNat = .ok b0 → s.load8 (ea.toNat + 1) = .ok b1 →
      RegResult (.lh rd rs1 imm) s rd ((b1 ++ b0).signExtend 32) (s.pc + 4#32) ∧
      RegResult (.lhu rd rs1 imm) s rd ((b1 ++ b0).setWidth 32) (s.pc + 4#32)) ∧
    (s.cfg.dataAlign = .checked → ea.toNat % 2 ≠ 0 →
      Raised .unaligned ea s (exec (.lh rd rs1 imm) s) ∧ Raised .unaligned ea s (exec (.lhu rd rs1 imm) s)) ∧
    (DataAligned s ea 2 → ¬ InMemory s ea 2 →
      Raised .unmapped ea s (exec (.lh rd rs1 imm) s) ∧ Raised .unmapped ea s (exec (.lhu rd rs1 imm) s))

/-- R128: the word `mem[ea+3] ++ mem[ea+2] ++ mem[ea+1] ++ mem[ea]`, and the same faults at width 4. -/
def Obligations.LoadWordResult : Prop :=
  DecodesAs 0x0000707F#32 0x00002003#32 (fun w => .lw (rdOf w) (rs1Of w) (immIOf w)) ∧
  ∀ (s : State) (rd rs1 : RegIdx) (imm : BitVec 12) (ea : Word), ea = s.readReg rs1 + imm.signExtend 32 →
    (∀ b0 b1 b2 b3 : Byte, DataAligned s ea 4 → s.load8 ea.toNat = .ok b0 → s.load8 (ea.toNat + 1) = .ok b1 →
      s.load8 (ea.toNat + 2) = .ok b2 → s.load8 (ea.toNat + 3) = .ok b3 →
      RegResult (.lw rd rs1 imm) s rd (b3 ++ b2 ++ b1 ++ b0) (s.pc + 4#32)) ∧
    (s.cfg.dataAlign = .checked → ea.toNat % 4 ≠ 0 → Raised .unaligned ea s (exec (.lw rd rs1 imm) s)) ∧
    (DataAligned s ea 4 → ¬ InMemory s ea 4 → Raised .unmapped ea s (exec (.lw rd rs1 imm) s))

/-- R186: the low byte of `x[rs2]` goes to `ea`; `Unmapped(ea)` where `ea` is not in memory; never `Unaligned`. -/
def Obligations.StoreByteResult : Prop :=
  DecodesAs 0x0000707F#32 0x00000023#32 (fun w => .sb (rs1Of w) (rs2Of w) (immSOf w)) ∧
  ∀ (s : State) (rs1 rs2 : RegIdx) (imm : BitVec 12) (ea : Word), ea = s.readReg rs1 + imm.signExtend 32 →
    s.cfg.profile = .completed → s.mem.wf = true →
    (InMemory s ea 1 → StoreResult (.sb rs1 rs2 imm) s ea 1 (s.readReg rs2)) ∧
    (¬ InMemory s ea 1 → Raised .unmapped ea s (exec (.sb rs1 rs2 imm) s))

/-- R187: the low halfword of `x[rs2]` goes to `ea` and `ea + 1`; `Unaligned(ea)` where the path is checked and `ea` odd,
otherwise `Unmapped(ea)` where the halfword is not all in memory. That a halfword only partly in memory is not stored in part
is the spec's own decision D12 (R41, log entry 15). -/
def Obligations.StoreHalfwordResult : Prop :=
  DecodesAs 0x0000707F#32 0x00001023#32 (fun w => .sh (rs1Of w) (rs2Of w) (immSOf w)) ∧
  ∀ (s : State) (rs1 rs2 : RegIdx) (imm : BitVec 12) (ea : Word), ea = s.readReg rs1 + imm.signExtend 32 →
    s.cfg.profile = .completed → s.mem.wf = true →
    (DataAligned s ea 2 → InMemory s ea 2 → StoreResult (.sh rs1 rs2 imm) s ea 2 (s.readReg rs2)) ∧
    (s.cfg.dataAlign = .checked → ea.toNat % 2 ≠ 0 → Raised .unaligned ea s (exec (.sh rs1 rs2 imm) s)) ∧
    (DataAligned s ea 2 → ¬ InMemory s ea 2 → Raised .unmapped ea s (exec (.sh rs1 rs2 imm) s))

/-- R188: the word `x[rs2]` goes to `ea` to `ea + 3`; the same faults at width 4. That a word only partly in memory is not
stored in part is the spec's own decision D12 (R41, log entry 15). -/
def Obligations.StoreWordResult : Prop :=
  DecodesAs 0x0000707F#32 0x00002023#32 (fun w => .sw (rs1Of w) (rs2Of w) (immSOf w)) ∧
  ∀ (s : State) (rs1 rs2 : RegIdx) (imm : BitVec 12) (ea : Word), ea = s.readReg rs1 + imm.signExtend 32 →
    s.cfg.profile = .completed → s.mem.wf = true →
    (DataAligned s ea 4 → InMemory s ea 4 → StoreResult (.sw rs1 rs2 imm) s ea 4 (s.readReg rs2)) ∧
    (s.cfg.dataAlign = .checked → ea.toNat % 4 ≠ 0 → Raised .unaligned ea s (exec (.sw rs1 rs2 imm) s)) ∧
    (DataAligned s ea 4 → ¬ InMemory s ea 4 → Raised .unmapped ea s (exec (.sw rs1 rs2 imm) s))

/-- R136, R137: whatever the ignored fields hold, only the PC advances. That every value of these fields is the same no-op is
the spec's own decision D17 (log entry 19). -/
def Obligations.FencesOnlyAdvanceThePc : Prop :=
  DecodesAs 0x0000707F#32 0x0000000F#32
    (fun w => .fence (w.extractLsb' 28 4) (w.extractLsb' 24 4) (w.extractLsb' 20 4) (rs1Of w) (rdOf w)) ∧
  DecodesAs 0x0000707F#32 0x0000100F#32 (fun w => .fenceI (immIOf w) (rs1Of w) (rdOf w)) ∧
  ∀ (s : State) (fm pred succ : BitVec 4) (imm : BitVec 12) (rs1 rd : RegIdx),
    PcResult (.fence fm pred succ rs1 rd) s (s.pc + 4#32) ∧ PcResult (.fenceI imm rs1 rd) s (s.pc + 4#32)

/-- R138: one record with the 32 registers as they stand and the address of the `EBREAK` is appended, and execution
continues. R138 marks which PC value is dumped as derived (from R101, R107); that the dump is a record in a list is the spec's
own decision D16 (log entry 18). -/
def Obligations.EbreakAppendsOneDump : Prop :=
  DecodesAs 0xFFFFFFFF#32 0x00100073#32 (fun _ => .ebreak) ∧
  ∀ s : State, ∃ t d, exec .ebreak s = .next t ∧ t.diag = s.diag ++ [d] ∧ d.pcv = s.pc ∧
    (∀ r : RegIdx, d.regs[r.toNat]'r.isLt = s.readReg r) ∧ SameRegs s t ∧ SameMem s t ∧ t.pc = s.pc + 4#32 ∧
    t.cfg = s.cfg ∧ t.fault = s.fault ∧ t.causeSink = s.causeSink

/-- R141 to R146, on integers: the sum modulo 2^32, the signed and the unsigned comparison with the sign-extended
immediate, and the three bitwise operations with it. -/
def Obligations.AluImmediateResults : Prop :=
  DecodesAs 0x0000707F#32 0x00000013#32 (fun w => .addi (rdOf w) (rs1Of w) (immIOf w)) ∧
  DecodesAs 0x0000707F#32 0x00002013#32 (fun w => .slti (rdOf w) (rs1Of w) (immIOf w)) ∧
  DecodesAs 0x0000707F#32 0x00003013#32 (fun w => .sltiu (rdOf w) (rs1Of w) (immIOf w)) ∧
  DecodesAs 0x0000707F#32 0x00004013#32 (fun w => .xori (rdOf w) (rs1Of w) (immIOf w)) ∧
  DecodesAs 0x0000707F#32 0x00006013#32 (fun w => .ori (rdOf w) (rs1Of w) (immIOf w)) ∧
  DecodesAs 0x0000707F#32 0x00007013#32 (fun w => .andi (rdOf w) (rs1Of w) (immIOf w)) ∧
  ∀ (s : State) (rd rs1 : RegIdx) (imm : BitVec 12) (x : Word), s.cfg.profile = .completed → x = s.readReg rs1 →
    RegResult (.addi rd rs1 imm) s rd (BitVec.ofInt 32 (x.toInt + imm.toInt)) (s.pc + 4#32) ∧
    RegResult (.slti rd rs1 imm) s rd (if x.toInt < imm.toInt then 1#32 else 0#32) (s.pc + 4#32) ∧
    RegResult (.sltiu rd rs1 imm) s rd (if x.toNat < (imm.signExtend 32).toNat then 1#32 else 0#32)
      (s.pc + 4#32) ∧
    RegResult (.xori rd rs1 imm) s rd (x ^^^ imm.signExtend 32) (s.pc + 4#32) ∧
    RegResult (.ori rd rs1 imm) s rd (x ||| imm.signExtend 32) (s.pc + 4#32) ∧
    RegResult (.andi rd rs1 imm) s rd (x &&& imm.signExtend 32) (s.pc + 4#32)

/-- R147 to R149, on integers: the product with `2^shamt` modulo 2^32, the quotient of the unsigned value, and the quotient
of the signed value rounded toward minus infinity. -/
def Obligations.ShiftImmediateResults : Prop :=
  DecodesAs 0xFE00707F#32 0x00001013#32 (fun w => .slli (rdOf w) (rs1Of w) (rs2Of w)) ∧
  DecodesAs 0xFE00707F#32 0x00005013#32 (fun w => .srli (rdOf w) (rs1Of w) (rs2Of w)) ∧
  DecodesAs 0xFE00707F#32 0x40005013#32 (fun w => .srai (rdOf w) (rs1Of w) (rs2Of w)) ∧
  (∀ w : Word, opcodeOf w = 0x13#7 → funct3Of w = 1#3 → funct7Of w ≠ 0#7 → decodeWord w = none) ∧
  (∀ w : Word, opcodeOf w = 0x13#7 → funct3Of w = 5#3 → funct7Of w ≠ 0#7 → funct7Of w ≠ 0x20#7 →
    decodeWord w = none) ∧
  ∀ (s : State) (rd rs1 : RegIdx) (shamt : BitVec 5) (x : Word), s.cfg.profile = .completed → x = s.readReg rs1 →
    RegResult (.slli rd rs1 shamt) s rd (BitVec.ofNat 32 (x.toNat * 2 ^ shamt.toNat)) (s.pc + 4#32) ∧
    RegResult (.srli rd rs1 shamt) s rd (BitVec.ofNat 32 (x.toNat / 2 ^ shamt.toNat)) (s.pc + 4#32) ∧
    RegResult (.srai rd rs1 shamt) s rd (BitVec.ofInt 32 (x.toInt / 2 ^ shamt.toNat)) (s.pc + 4#32)

/-- R156, R157, R159, R160, R161, R164, R165, on integers. -/
def Obligations.AluRegisterResults : Prop :=
  DecodesAs 0xFE00707F#32 0x00000033#32 (fun w => .add (rdOf w) (rs1Of w) (rs2Of w)) ∧
  DecodesAs 0xFE00707F#32 0x40000033#32 (fun w => .sub (rdOf w) (rs1Of w) (rs2Of w)) ∧
  DecodesAs 0xFE00707F#32 0x00002033#32 (fun w => .slt (rdOf w) (rs1Of w) (rs2Of w)) ∧
  DecodesAs 0xFE00707F#32 0x00003033#32 (fun w => .sltu (rdOf w) (rs1Of w) (rs2Of w)) ∧
  DecodesAs 0xFE00707F#32 0x00004033#32 (fun w => .xor (rdOf w) (rs1Of w) (rs2Of w)) ∧
  DecodesAs 0xFE00707F#32 0x00006033#32 (fun w => .or (rdOf w) (rs1Of w) (rs2Of w)) ∧
  DecodesAs 0xFE00707F#32 0x00007033#32 (fun w => .and (rdOf w) (rs1Of w) (rs2Of w)) ∧
  ∀ (s : State) (rd rs1 rs2 : RegIdx) (x y : Word), s.cfg.profile = .completed → x = s.readReg rs1 →
    y = s.readReg rs2 →
    RegResult (.add rd rs1 rs2) s rd (BitVec.ofNat 32 (x.toNat + y.toNat)) (s.pc + 4#32) ∧
    RegResult (.sub rd rs1 rs2) s rd (BitVec.ofInt 32 (x.toInt - y.toInt)) (s.pc + 4#32) ∧
    RegResult (.slt rd rs1 rs2) s rd (if x.toInt < y.toInt then 1#32 else 0#32) (s.pc + 4#32) ∧
    RegResult (.sltu rd rs1 rs2) s rd (if x.toNat < y.toNat then 1#32 else 0#32) (s.pc + 4#32) ∧
    RegResult (.xor rd rs1 rs2) s rd (x ^^^ y) (s.pc + 4#32) ∧
    RegResult (.or rd rs1 rs2) s rd (x ||| y) (s.pc + 4#32) ∧
    RegResult (.and rd rs1 rs2) s rd (x &&& y) (s.pc + 4#32)

/-- R158, R162, R163, on integers; the amount is the low five bits of `x[rs2]`. -/
def Obligations.ShiftRegisterResults : Prop :=
  DecodesAs 0xFE00707F#32 0x00001033#32 (fun w => .sll (rdOf w) (rs1Of w) (rs2Of w)) ∧
  DecodesAs 0xFE00707F#32 0x00005033#32 (fun w => .srl (rdOf w) (rs1Of w) (rs2Of w)) ∧
  DecodesAs 0xFE00707F#32 0x40005033#32 (fun w => .sra (rdOf w) (rs1Of w) (rs2Of w)) ∧
  ∀ (s : State) (rd rs1 rs2 : RegIdx) (x : Word) (sh : Nat), s.cfg.profile = .completed → x = s.readReg rs1 →
    sh = (s.readReg rs2).toNat % 32 →
    RegResult (.sll rd rs1 rs2) s rd (BitVec.ofNat 32 (x.toNat * 2 ^ sh)) (s.pc + 4#32) ∧
    RegResult (.srl rd rs1 rs2) s rd (BitVec.ofNat 32 (x.toNat / 2 ^ sh)) (s.pc + 4#32) ∧
    RegResult (.sra rd rs1 rs2) s rd (BitVec.ofInt 32 (x.toInt / 2 ^ sh)) (s.pc + 4#32)

/-- R172, R173: the link `pc + 4` goes to `rd` (nowhere for register 0) and the PC takes the target, which for `JALR` is
computed from the old `x[rs1]` and has bit 0 cleared. -/
def Obligations.JumpResults : Prop :=
  DecodesAs 0x0000007F#32 0x0000006F#32 (fun w => .jal (rdOf w) (immJOf w)) ∧
  DecodesAs 0x0000707F#32 0x00000067#32 (fun w => .jalr (rdOf w) (rs1Of w) (immIOf w)) ∧
  (∀ w : Word, opcodeOf w = 0x67#7 → funct3Of w ≠ 0#3 → decodeWord w = none) ∧
  ∀ (s : State) (rd rs1 : RegIdx) (offset : BitVec 21) (imm : BitVec 12), s.cfg.profile = .completed →
    RegResult (.jal rd offset) s rd (s.pc + 4#32) (s.pc + offset.signExtend 32) ∧
    RegResult (.jalr rd rs1 imm) s rd (s.pc + 4#32) ((s.readReg rs1 + imm.signExtend 32) &&& 0xFFFFFFFE#32)

/-- R175 to R180: the PC takes `pc + imm_b` where the condition holds and `pc + 4` where it does not; nothing else
changes. -/
def Obligations.BranchResults : Prop :=
  DecodesAs 0x0000707F#32 0x00000063#32 (fun w => .beq (rs1Of w) (rs2Of w) (immBOf w)) ∧
  DecodesAs 0x0000707F#32 0x00001063#32 (fun w => .bne (rs1Of w) (rs2Of w) (immBOf w)) ∧
  DecodesAs 0x0000707F#32 0x00004063#32 (fun w => .blt (rs1Of w) (rs2Of w) (immBOf w)) ∧
  DecodesAs 0x0000707F#32 0x00005063#32 (fun w => .bge (rs1Of w) (rs2Of w) (immBOf w)) ∧
  DecodesAs 0x0000707F#32 0x00006063#32 (fun w => .bltu (rs1Of w) (rs2Of w) (immBOf w)) ∧
  DecodesAs 0x0000707F#32 0x00007063#32 (fun w => .bgeu (rs1Of w) (rs2Of w) (immBOf w)) ∧
  ∀ (s : State) (rs1 rs2 : RegIdx) (offset : BitVec 13) (x y taken : Word), s.cfg.profile = .completed →
    x = s.readReg rs1 → y = s.readReg rs2 → taken = s.pc + offset.signExtend 32 →
    PcResult (.beq rs1 rs2 offset) s (if x = y then taken else s.pc + 4#32) ∧
    PcResult (.bne rs1 rs2 offset) s (if x ≠ y then taken else s.pc + 4#32) ∧
    PcResult (.blt rs1 rs2 offset) s (if x.toInt < y.toInt then taken else s.pc + 4#32) ∧
    PcResult (.bge rs1 rs2 offset) s (if y.toInt ≤ x.toInt then taken else s.pc + 4#32) ∧
    PcResult (.bltu rs1 rs2 offset) s (if x.toNat < y.toNat then taken else s.pc + 4#32) ∧
    PcResult (.bgeu rs1 rs2 offset) s (if y.toNat ≤ x.toNat then taken else s.pc + 4#32)

/-- R171: a jump or branch never checks its target and raises nothing; if the PC it leaves is no multiple of 4, the following
step raises `MemoryError(Unaligned)` with that PC as `fault_pc` and `info`. From an even PC the next PC is even. The policy
is the spec's own decision D9. -/
def Obligations.MisalignedTargetFaultsOneStepLater : Prop :=
  ∀ (s : State) (i : Instr), s.cfg.profile = .completed → s.fault = none → isControlTransfer i = true →
    ∃ t, exec i s = .next t ∧ SameMem s t ∧ SameRest s t ∧
      (t.pc.toNat % 4 ≠ 0 → Raised .fetchUnaligned t.pc t (step t)) ∧
      (i.wf = true → s.pc.toNat % 2 = 0 → t.pc.toNat % 2 = 0)

/-- R190 to R196: each of the six CSR instructions, whatever its fields, raises `Illegal` with its own word as `info`;
with `PROFILE = documented` the fault is `Unimplemented`. That no CSR exists is the spec's own decision D14. -/
def Obligations.CsrInstructionsRaiseIllegal : Prop :=
  DecodesAs 0x0000707F#32 0x00001073#32 (fun w => .csrrw (rdOf w) (immIOf w) (rs1Of w)) ∧
  DecodesAs 0x0000707F#32 0x00002073#32 (fun w => .csrrs (rdOf w) (immIOf w) (rs1Of w)) ∧
  DecodesAs 0x0000707F#32 0x00003073#32 (fun w => .csrrc (rdOf w) (immIOf w) (rs1Of w)) ∧
  DecodesAs 0x0000707F#32 0x00005073#32 (fun w => .csrrwi (rdOf w) (immIOf w) (rs1Of w)) ∧
  DecodesAs 0x0000707F#32 0x00006073#32 (fun w => .csrrsi (rdOf w) (immIOf w) (rs1Of w)) ∧
  DecodesAs 0x0000707F#32 0x00007073#32 (fun w => .csrrci (rdOf w) (immIOf w) (rs1Of w)) ∧
  (∀ (s : State) (rd : RegIdx) (csr : BitVec 12) (f : BitVec 5),
    ∀ i ∈ [Instr.csrrw rd csr f, .csrrs rd csr f, .csrrc rd csr f, .csrrwi rd csr f, .csrrsi rd csr f, .csrrci rd csr f],
      (s.cfg.profile = .completed → Raised .illegal (encode i) s (exec i s)) ∧
      (s.cfg.profile = .documented → Raised .unimplemented (encode i) s (exec i s))) ∧
  ∀ (s : State) (w : Word) (i : Instr), s.cfg.profile = .completed → s.fault = none → fetchWord s s.pc = .ok w →
    decodeWord w = some i → isCsr i = true → Raised .illegal w s (step s)

/-- R197: `ECALL` raises `EnvironmentCall` with its word as `info`, always (the spec's own decision D15). -/
def Obligations.EcallRaisesEnvironmentCall : Prop :=
  DecodesAs 0xFFFFFFFF#32 0x00000073#32 (fun _ => .ecall) ∧
  ∀ s : State, s.cfg.profile = .completed → Raised .environmentCall 0x00000073#32 s (exec .ecall s)

/-- R109: with `PROFILE = documented` every tier N or U instruction raises `Unimplemented` with its word as `info`, every
tier S instruction does what it does with `PROFILE = completed`, and decoding is the same in both (the spec's own decisions
D2 and D20). -/
def Obligations.DocumentedProfileRaisesUnimplemented : Prop :=
  (∀ (s : State) (i : Instr), s.cfg.profile = .documented → i.tier ≠ .S →
    Raised .unimplemented (encode i) s (exec i s)) ∧
  (∀ (s : State) (w : Word) (i : Instr), s.cfg.profile = .documented → s.fault = none →
    fetchWord s s.pc = .ok w → decodeWord w = some i → i.tier ≠ .S → Raised .unimplemented w s (step s)) ∧
  (∀ (s t : State) (i : Instr), i.tier = .S → exec i (s.withProfile .completed) = .next t →
    exec i (s.withProfile .documented) = .next (t.withProfile .documented)) ∧
  ∀ (s : State) (a : Word), decodeAt (s.withProfile .documented) a = decodeAt (s.withProfile .completed) a

/-! ### The whole machine -/

/-- A word stored by `SW` at an address that can be fetched is what the next fetch there reads, with no fence between
(R54, R241, which mark it as derived). -/
def Obligations.StoredWordIsFetched : Prop :=
  ∀ (s : State) (rs1 rs2 : RegIdx) (imm : BitVec 12) (ea : Word), ea = s.readReg rs1 + imm.signExtend 32 →
    s.cfg.profile = .completed → s.mem.wf = true → ea.toNat % 4 = 0 → InMemory s ea 4 →
    ∃ t, exec (.sw rs1 rs2 imm) s = .next t ∧ fetchWord t ea = .ok (s.readReg rs2)

/-- R203 with the conditions of R200: a live core's step raises exactly the one fault that comes first in the order of R203,
with the `info` of R200, and completes when none does. The spec marks as its own decisions the causes `EnvironmentCall` and
`Unimplemented` and what is recorded (D8, D15, D20: log entries 7, 17, 10) and the fault of a CSR instruction (D14: log
entry 16). -/
def Obligations.StepRaisesExactlyThePendingFault : Prop :=
  ∀ s : State, s.fault = none →
    (∀ (c : Cause) (info : Word), pendingFault s = some (c, info) → Raised c info s (step s)) ∧
    (pendingFault s = none → ∃ t, step s = .next t ∧ t.fault = none ∧ t.causeSink = s.causeSink)

/-- R211: with `TRAP_MODE = halt`, a step that faults changes no general register, no memory byte, not the PC slot and not
`diag`; the latch holds the address of the instruction, which the PC slot still holds. (The rule marks it as derived.) -/
def Obligations.FaultsArePrecise : Prop :=
  ∀ (s t : State) (r : FaultRecord), s.fault = none → step s = .next t → t.fault = some r →
    SameRegs s t ∧ t.mem = s.mem ∧ t.pc = s.pc ∧ t.diag = s.diag ∧ t.cfg = s.cfg ∧ t.causeSink = s.causeSink ∧
    r.faultPc = s.pc

/-- R201, for `PROFILE = completed` and `TRAP_MODE = halt`: which faults each instruction can raise. -/
def Obligations.FaultsPerInstruction : Prop :=
  ∀ (s t : State) (i : Instr) (r : FaultRecord), s.cfg.profile = .completed → s.fault = none →
    exec i s = .next t → t.fault = some r →
    (isCsr i = true → r.cause = .illegal) ∧
    (i = .ecall → r.cause = .environmentCall) ∧
    (isCsr i = false → i ≠ .ecall → ∃ n ea, dataAccess i s = some (n, ea) ∧
      (r.cause = .unmapped ∨ r.cause = .unaligned ∧ n ≠ 1 ∧ s.cfg.dataAlign = .checked))

/-- The OPEN mode `TRAP_MODE = vector` in the shape R212 fixes, for every choice of its three parameters: a pending fault is
recorded in the sink with its code, the PC and `info`, the PC slot takes `TRAP_VECTOR`, the latch is not set, and the next step
decodes at `TRAP_VECTOR`. Which sinks can be named, and that a sink's contents stand in a list of its own, is the model's
choice (log entry 4); `newest 1` is the sink that R213 assumes. -/
def Obligations.VectorModeEntersTheVector : Prop :=
  ∀ (s : State) (v : Word) (codes : CauseCodes) (sink : CauseSink) (c : Cause) (info : Word) (r : CauseRecord),
    s.fault = none → s.cfg.trapMode = .vector v codes sink → pendingFault s = some (c, info) →
    r = { code := codeOf codes c, faultPc := s.pc, info := info } →
    ∃ t, step s = .next t ∧ t.pc = v ∧ t.fault = none ∧ SameRegs s t ∧ t.mem = s.mem ∧ t.diag = s.diag ∧
      t.causeSink = recordCause sink s.causeSink r ∧
      (sink = .newest 1 → t.causeSink = [r]) ∧
      (∀ n, sink = .newest (n + 1) → t.causeSink = r :: s.causeSink.take n) ∧
      (∀ n, sink = .oldest n → t.causeSink = if s.causeSink.length < n then r :: s.causeSink else s.causeSink) ∧
      (sink = .every → t.causeSink = r :: s.causeSink) ∧
      ∀ j, decodeAt t v = .ok j → step t = exec j t

/-- R106: an instruction that is no control transfer and raises nothing leaves the PC at `pc + 4` (modulo 2^32: the spec's own
decision D10). -/
def Obligations.OnlyControlTransfersLeaveTheSequence : Prop :=
  ∀ (s t : State) (i : Instr), s.cfg.trapMode = .halt → s.fault = none → isControlTransfer i = false →
    exec i s = .next t → t.fault = none → t.pc = s.pc + 4#32

/-- Every step keeps the invariant: legal parameters, canonical memory inside `[0, MEM_SIZE)`, the latch set in halt mode only
and agreeing with the PC slot, the sink written in vector mode only and within its room, every dump with x0 = 0. -/
def Obligations.StepKeepsInvariant : Prop :=
  ∀ s t : State, s.inv = true → step s = .next t → t.inv = true

/-- The reset state meets the invariant. -/
def Obligations.ResetMeetsInvariant : Prop := State.reset.inv = true

/-- R18: no step takes the PC from an even address to an odd one. -/
def Obligations.PcStaysEven : Prop :=
  ∀ s t : State, s.cfg.wf = true → s.pc.toNat % 2 = 0 → step s = .next t → t.pc.toNat % 2 = 0

/-- The construction-time parameters and the memory size never change during a run (R7, R23). -/
def Obligations.ParametersNeverChange : Prop :=
  ∀ (n : Nat) (s t : State), Sys2Proof.core.run n s = .next t → t.cfg = s.cfg

/-- R21: `diag` only grows, by one record at a time, and only `EBREAK` appends. -/
def Obligations.DiagGrowsByEbreakOnly : Prop :=
  ∀ s t : State, step s = .next t →
    t.diag = s.diag ∨ (decodeAt s s.pc = .ok .ebreak ∧ t.diag = s.diag ++ [s.dump])

/-- No instruction reads `diag`: two machines that differ in nothing else go on differing in nothing else, however many steps
they take. -/
def Obligations.DiagNeverInfluencesTheRun : Prop :=
  ∀ (n : Nat) (s s' t : State), SameButDiag s s' → Sys2Proof.core.run n s = .next t →
    ∃ t', Sys2Proof.core.run n s' = .next t' ∧ SameButDiag t t'

/-- R24, with the defaults of R7 that `State.reset` takes (RESET_GPR and MEM_INIT all 0: log entries 3 and 5; MEM_SIZE: log
entry 2). -/
def Obligations.ResetValues : Prop :=
  (∀ r : RegIdx, State.reset.readReg r = 0#32) ∧ State.reset.pc = 0#32 ∧
  (∀ a, a < State.reset.cfg.memSize → State.reset.load8 a = .ok 0#8) ∧
  State.reset.fault = none ∧ State.reset.diag = []

/-- Construction with any parameters (R230): PC 0, x0 reads 0, x1 to x31 hold `RESET_GPR`, a byte `MEM_INIT` lists holds what
it says and every other byte 0, no fault, empty `diag`; and the invariant holds where the parameters are legal. -/
def Obligations.ConstructionGivesTheParameters : Prop :=
  ∀ (cfg : Config) (g : Vector Word 31) (m : List Host.Cell) (s : State), (m.map Prod.fst).Nodup →
    s = State.construct cfg g m →
    s.pc = 0#32 ∧ s.fault = none ∧ s.diag = [] ∧ s.readReg 0#5 = 0#32 ∧
    (∀ k : Fin 31, s.readReg (BitVec.ofNat 5 (k.val + 1)) = g[k.val]) ∧
    (∀ c ∈ m, c.1 < cfg.memSize → s.load8 c.1 = .ok c.2) ∧
    (∀ a, a < cfg.memSize → a ∉ m.map Prod.fst → s.load8 a = .ok 0#8) ∧
    (∀ a, cfg.memSize ≤ a → s.load8 a = .error .unmapped) ∧
    (cfg.wf = true → s.inv = true)

/-- R236: the load fails exactly when the image is longer than memory; after a successful load byte `i` of the image is at
address `i`, every byte past the image is as before, and nothing but memory has changed. -/
def Obligations.BootLoadPlacesTheImage : Prop :=
  ∀ (s : State) (image : List Byte), s.mem.wf = true →
    ((∃ e, s.loadImage image = .error e) ↔ s.cfg.memSize < image.length) ∧
    ∀ t, s.loadImage image = .ok t →
      (∀ (k : Nat) (h : k < image.length), t.load8 k = .ok image[k]) ∧
      (∀ a, image.length ≤ a → t.load8 a = s.load8 a) ∧
      SameRegs s t ∧ t.pc = s.pc ∧ SameRest s t

/-- A safe run is a run of the core, its last state is live, and it keeps the invariant. -/
def Obligations.SafeRunsAreRunsOfTheCore : Prop :=
  ∀ (n : Nat) (s t : State), s.fault = none → s.inv = true → SafeRun n s t →
    Sys2Proof.core.run n s = .next t ∧ t.fault = none ∧ t.causeSink = s.causeSink ∧ t.inv = true

/-- `checked` agrees with `unchecked` on every run that keeps its data aligned (decision D6): a safe run with checked data
accesses is, step for step, a safe run with unchecked ones. -/
def Obligations.CheckedRunsAreUncheckedRuns : Prop :=
  ∀ (n : Nat) (s t : State), s.cfg.dataAlign = .checked → SafeRun n s t →
    SafeRun n (s.withDataAlign .unchecked) (t.withDataAlign .unchecked)

/-- A safe run with `PROFILE = documented` is, step for step, a safe run with `PROFILE = completed` (R6, R109). -/
def Obligations.DocumentedRunsAreCompletedRuns : Prop :=
  ∀ (n : Nat) (s t : State), s.cfg.profile = .documented → SafeRun n s t →
    SafeRun n (s.withProfile .completed) (t.withProfile .completed)

/-- A safe run is, step for step, a safe run of the machine with a larger memory (R23, R49): a program learns `MEM_SIZE` only
through a fault. -/
def Obligations.SafeRunsIgnoreTheMemorySize : Prop :=
  ∀ (n m : Nat) (s t : State), s.cfg.memSize ≤ m → SafeRun n s t →
    SafeRun n (s.withMemSize m) (t.withMemSize m)

/-- A safe run is, step for step, a safe run in the other trap mode: nothing else in the machine depends on `TRAP_MODE`
(R212). -/
def Obligations.SafeRunsIgnoreTheTrapMode : Prop :=
  ∀ (n : Nat) (m : TrapMode) (s t : State), SafeRun n s t → SafeRun n (s.withTrapMode m) (t.withTrapMode m)
end

