-- ==== Sys2Proof/Laws/Bits.lean ====
section
/-! SUPPORT. Bit fields: a slice of a word in which fields were placed is the field placed there, and placing back all the
fields of a word gives the word. -/

namespace Sys2Proof

theorem getLsbD_put {m : Nat} (n : Nat) (f : BitVec m) (lo i : Nat) :
    (put n f lo).getLsbD i = (decide (i < n) && decide (lo ≤ i) && f.getLsbD (i - lo)) := by
  by_cases h1 : i < n <;> by_cases h2 : lo ≤ i
  · simp [put, h1, h2, show ¬ i < lo by omega]
  · simp [put, h2, show i < lo by omega]
  · simp [put, h1]
  · simp [put, h1]

/-- The slice where a field was placed is the field. -/
theorem slice_put_same {m n : Nat} (f : BitVec m) (lo : Nat) (h : lo + m ≤ n) :
    (put n f lo).extractLsb' lo m = f := by
  apply BitVec.eq_of_getLsbD_eq
  intro i hi
  simp only [BitVec.getLsbD_extractLsb', getLsbD_put, hi, decide_true, Bool.true_and,
    show lo + i < n by omega, show lo ≤ lo + i by omega, show lo + i - lo = i by omega]

/-- A slice apart from where a field was placed is 0. -/
theorem slice_put_apart {m n : Nat} (f : BitVec m) (lo a k : Nat) (h : a + k ≤ lo ∨ lo + m ≤ a) :
    (put n f lo).extractLsb' a k = 0#k := by
  apply BitVec.eq_of_getLsbD_eq
  intro i hi
  simp only [BitVec.getLsbD_extractLsb', getLsbD_put, hi, decide_true, Bool.true_and, BitVec.getLsbD_zero]
  rcases h with h | h
  · simp [show ¬ lo ≤ a + i by omega]
  · simp [BitVec.getLsbD_of_ge f (a + i - lo) (by omega)]

theorem slice_or {n : Nat} (x y : BitVec n) (a k : Nat) :
    (x ||| y).extractLsb' a k = x.extractLsb' a k ||| y.extractLsb' a k := by
  apply BitVec.eq_of_getLsbD_eq
  intro i hi
  simp [hi]

/-- Reassembling the two parts of a format S immediate. -/
theorem join_immS (imm : BitVec 12) :
    put 12 (imm.extractLsb' 5 7) 5 ||| put 12 (imm.extractLsb' 0 5) 0 = imm := by
  apply BitVec.eq_of_getLsbD_eq
  intro i hi
  simp only [BitVec.getLsbD_or, getLsbD_put, BitVec.getLsbD_extractLsb']
  interval_cases i <;> simp

/-- Reassembling the four parts of an even format B immediate. -/
theorem join_immB (imm : BitVec 13) (h : imm.getLsbD 0 = false) :
    put 13 (imm.extractLsb' 12 1) 12 ||| put 13 (imm.extractLsb' 11 1) 11 |||
      put 13 (imm.extractLsb' 5 6) 5 ||| put 13 (imm.extractLsb' 1 4) 1 = imm := by
  apply BitVec.eq_of_getLsbD_eq
  intro i hi
  simp only [BitVec.getLsbD_or, getLsbD_put, BitVec.getLsbD_extractLsb']
  interval_cases i <;> simp
  simpa using h.symm

/-- Reassembling the four parts of an even format J immediate. -/
theorem join_immJ (imm : BitVec 21) (h : imm.getLsbD 0 = false) :
    put 21 (imm.extractLsb' 20 1) 20 ||| put 21 (imm.extractLsb' 12 8) 12 |||
      put 21 (imm.extractLsb' 11 1) 11 ||| put 21 (imm.extractLsb' 1 10) 1 = imm := by
  apply BitVec.eq_of_getLsbD_eq
  intro i hi
  simp only [BitVec.getLsbD_or, getLsbD_put, BitVec.getLsbD_extractLsb']
  interval_cases i <;> simp
  simpa using h.symm

/-- The low bit of an assembled branch offset is 0 (R71). -/
theorem immBOf_even (w : Word) : (immBOf w).getLsbD 0 = false := by
  simp [immBOf, getLsbD_put, -BitVec.getLsbD_eq_getElem]

/-- The low bit of an assembled jump offset is 0 (R72). -/
theorem immJOf_even (w : Word) : (immJOf w).getLsbD 0 = false := by
  simp [immJOf, getLsbD_put, -BitVec.getLsbD_eq_getElem]

end Sys2Proof
end

