-- ==== Sys2Proof/Laws/Decode.lean ====
section
/-! SUPPORT. The fields of an encoded word, format by format; what a row of the opcode table says of the fields of a word;
and the same for the words an encoder makes. -/

namespace Sys2Proof

/-! ### The fields of an encoded word -/

section fields
variable (imm : BitVec 12) (f7 op : BitVec 7) (f3 : BitVec 3) (rs2 rs1 rd : RegIdx)

@[simp] theorem opcodeOf_encodeR : opcodeOf (encodeR f7 rs2 rs1 f3 rd op) = op := by
  simp (disch := omega) only [opcodeOf, encodeR, slice_or, slice_put_same, slice_put_apart, BitVec.zero_or]
@[simp] theorem rdOf_encodeR : rdOf (encodeR f7 rs2 rs1 f3 rd op) = rd := by
  simp (disch := omega) only [rdOf, encodeR, slice_or, slice_put_same, slice_put_apart, BitVec.zero_or, BitVec.or_zero]
@[simp] theorem funct3Of_encodeR : funct3Of (encodeR f7 rs2 rs1 f3 rd op) = f3 := by
  simp (disch := omega) only [funct3Of, encodeR, slice_or, slice_put_same, slice_put_apart, BitVec.zero_or,
    BitVec.or_zero]
@[simp] theorem rs1Of_encodeR : rs1Of (encodeR f7 rs2 rs1 f3 rd op) = rs1 := by
  simp (disch := omega) only [rs1Of, encodeR, slice_or, slice_put_same, slice_put_apart, BitVec.zero_or, BitVec.or_zero]
@[simp] theorem rs2Of_encodeR : rs2Of (encodeR f7 rs2 rs1 f3 rd op) = rs2 := by
  simp (disch := omega) only [rs2Of, encodeR, slice_or, slice_put_same, slice_put_apart, BitVec.zero_or, BitVec.or_zero]
@[simp] theorem funct7Of_encodeR : funct7Of (encodeR f7 rs2 rs1 f3 rd op) = f7 := by
  simp (disch := omega) only [funct7Of, encodeR, slice_or, slice_put_same, slice_put_apart, BitVec.or_zero]

@[simp] theorem opcodeOf_encodeI : opcodeOf (encodeI imm rs1 f3 rd op) = op := by
  simp (disch := omega) only [opcodeOf, encodeI, slice_or, slice_put_same, slice_put_apart, BitVec.zero_or]
@[simp] theorem rdOf_encodeI : rdOf (encodeI imm rs1 f3 rd op) = rd := by
  simp (disch := omega) only [rdOf, encodeI, slice_or, slice_put_same, slice_put_apart, BitVec.zero_or, BitVec.or_zero]
@[simp] theorem funct3Of_encodeI : funct3Of (encodeI imm rs1 f3 rd op) = f3 := by
  simp (disch := omega) only [funct3Of, encodeI, slice_or, slice_put_same, slice_put_apart, BitVec.zero_or,
    BitVec.or_zero]
@[simp] theorem rs1Of_encodeI : rs1Of (encodeI imm rs1 f3 rd op) = rs1 := by
  simp (disch := omega) only [rs1Of, encodeI, slice_or, slice_put_same, slice_put_apart, BitVec.zero_or, BitVec.or_zero]
@[simp] theorem immIOf_encodeI : immIOf (encodeI imm rs1 f3 rd op) = imm := by
  simp (disch := omega) only [immIOf, encodeI, slice_or, slice_put_same, slice_put_apart, BitVec.or_zero]

@[simp] theorem opcodeOf_encodeS : opcodeOf (encodeS imm rs2 rs1 f3 op) = op := by
  simp (disch := omega) only [opcodeOf, encodeS, slice_or, slice_put_same, slice_put_apart, BitVec.zero_or]
@[simp] theorem funct3Of_encodeS : funct3Of (encodeS imm rs2 rs1 f3 op) = f3 := by
  simp (disch := omega) only [funct3Of, encodeS, slice_or, slice_put_same, slice_put_apart, BitVec.zero_or,
    BitVec.or_zero]
@[simp] theorem rs1Of_encodeS : rs1Of (encodeS imm rs2 rs1 f3 op) = rs1 := by
  simp (disch := omega) only [rs1Of, encodeS, slice_or, slice_put_same, slice_put_apart, BitVec.zero_or, BitVec.or_zero]
@[simp] theorem rs2Of_encodeS : rs2Of (encodeS imm rs2 rs1 f3 op) = rs2 := by
  simp (disch := omega) only [rs2Of, encodeS, slice_or, slice_put_same, slice_put_apart, BitVec.zero_or, BitVec.or_zero]
@[simp] theorem immSOf_encodeS : immSOf (encodeS imm rs2 rs1 f3 op) = imm := by
  simp (disch := omega) only [immSOf, encodeS, slice_or, slice_put_same, slice_put_apart, BitVec.zero_or,
    BitVec.or_zero, join_immS]
end fields

section upper
variable (imm20 : BitVec 20) (rd : RegIdx) (op : BitVec 7)
@[simp] theorem opcodeOf_encodeU : opcodeOf (encodeU imm20 rd op) = op := by
  simp (disch := omega) only [opcodeOf, encodeU, slice_or, slice_put_same, slice_put_apart, BitVec.zero_or]
@[simp] theorem rdOf_encodeU : rdOf (encodeU imm20 rd op) = rd := by
  simp (disch := omega) only [rdOf, encodeU, slice_or, slice_put_same, slice_put_apart, BitVec.zero_or, BitVec.or_zero]
@[simp] theorem immUOf_encodeU : immUOf (encodeU imm20 rd op) = imm20 := by
  simp (disch := omega) only [immUOf, encodeU, slice_or, slice_put_same, slice_put_apart, BitVec.or_zero]
end upper

section branch
variable (o : BitVec 13) (rs2 rs1 : RegIdx) (f3 : BitVec 3) (op : BitVec 7)
@[simp] theorem opcodeOf_encodeB : opcodeOf (encodeB o rs2 rs1 f3 op) = op := by
  simp (disch := omega) only [opcodeOf, encodeB, slice_or, slice_put_same, slice_put_apart, BitVec.zero_or]
@[simp] theorem funct3Of_encodeB : funct3Of (encodeB o rs2 rs1 f3 op) = f3 := by
  simp (disch := omega) only [funct3Of, encodeB, slice_or, slice_put_same, slice_put_apart, BitVec.zero_or,
    BitVec.or_zero]
@[simp] theorem rs1Of_encodeB : rs1Of (encodeB o rs2 rs1 f3 op) = rs1 := by
  simp (disch := omega) only [rs1Of, encodeB, slice_or, slice_put_same, slice_put_apart, BitVec.zero_or, BitVec.or_zero]
@[simp] theorem rs2Of_encodeB : rs2Of (encodeB o rs2 rs1 f3 op) = rs2 := by
  simp (disch := omega) only [rs2Of, encodeB, slice_or, slice_put_same, slice_put_apart, BitVec.zero_or, BitVec.or_zero]
theorem immBOf_encodeB (h : branchOffsetOk o = true) : immBOf (encodeB o rs2 rs1 f3 op) = o := by
  simp (disch := omega) only [immBOf, encodeB, slice_or, slice_put_same, slice_put_apart, BitVec.zero_or,
    BitVec.or_zero]
  exact join_immB o (by simpa only [branchOffsetOk, Bool.not_eq_true'] using h)
end branch

section jump
variable (o : BitVec 21) (rd : RegIdx) (op : BitVec 7)
@[simp] theorem opcodeOf_encodeJ : opcodeOf (encodeJ o rd op) = op := by
  simp (disch := omega) only [opcodeOf, encodeJ, slice_or, slice_put_same, slice_put_apart, BitVec.zero_or]
@[simp] theorem rdOf_encodeJ : rdOf (encodeJ o rd op) = rd := by
  simp (disch := omega) only [rdOf, encodeJ, slice_or, slice_put_same, slice_put_apart, BitVec.zero_or, BitVec.or_zero]
theorem immJOf_encodeJ (h : jumpOffsetOk o = true) : immJOf (encodeJ o rd op) = o := by
  simp (disch := omega) only [immJOf, encodeJ, slice_or, slice_put_same, slice_put_apart, BitVec.zero_or,
    BitVec.or_zero]
  exact join_immJ o (by simpa only [jumpOffsetOk, Bool.not_eq_true'] using h)
end jump

section fence
variable (fm pred succ : BitVec 4) (rs1 rd : RegIdx)
@[simp] theorem opcodeOf_encodeFence : opcodeOf (encodeFence fm pred succ rs1 rd) = 0b0001111#7 := by
  simp (disch := omega) only [opcodeOf, encodeFence, slice_or, slice_put_same, slice_put_apart, BitVec.zero_or]
@[simp] theorem funct3Of_encodeFence : funct3Of (encodeFence fm pred succ rs1 rd) = 0b000#3 := by
  simp (disch := omega) only [funct3Of, encodeFence, slice_or, slice_put_same, slice_put_apart,
    BitVec.or_zero]
@[simp] theorem rs1Of_encodeFence : rs1Of (encodeFence fm pred succ rs1 rd) = rs1 := by
  simp (disch := omega) only [rs1Of, encodeFence, slice_or, slice_put_same, slice_put_apart, BitVec.zero_or,
    BitVec.or_zero]
@[simp] theorem rdOf_encodeFence : rdOf (encodeFence fm pred succ rs1 rd) = rd := by
  simp (disch := omega) only [rdOf, encodeFence, slice_or, slice_put_same, slice_put_apart, BitVec.zero_or,
    BitVec.or_zero]
@[simp] theorem fm_encodeFence : (encodeFence fm pred succ rs1 rd).extractLsb' 28 4 = fm := by
  simp (disch := omega) only [encodeFence, slice_or, slice_put_same, slice_put_apart, BitVec.or_zero]
@[simp] theorem pred_encodeFence : (encodeFence fm pred succ rs1 rd).extractLsb' 24 4 = pred := by
  simp (disch := omega) only [encodeFence, slice_or, slice_put_same, slice_put_apart, BitVec.zero_or, BitVec.or_zero]
@[simp] theorem succ_encodeFence : (encodeFence fm pred succ rs1 rd).extractLsb' 20 4 = succ := by
  simp (disch := omega) only [encodeFence, slice_or, slice_put_same, slice_put_apart, BitVec.zero_or, BitVec.or_zero]
end fence

/-! ### What a mask of R87 tests -/

/-- Mask `0x7F`: the opcode. -/
theorem and_mask_opcode (w : Word) : w &&& 0x0000007F#32 = put 32 (opcodeOf w) 0 := by
  apply BitVec.eq_of_getLsbD_eq
  intro i hi
  simp only [BitVec.getLsbD_and, getLsbD_put, opcodeOf, BitVec.getLsbD_extractLsb']
  interval_cases i <;> simp

/-- Mask `0x707F`: the opcode and `funct3`. -/
theorem and_mask_funct3 (w : Word) :
    w &&& 0x0000707F#32 = put 32 (funct3Of w) 12 ||| put 32 (opcodeOf w) 0 := by
  apply BitVec.eq_of_getLsbD_eq
  intro i hi
  simp only [BitVec.getLsbD_and, BitVec.getLsbD_or, getLsbD_put, opcodeOf, funct3Of, BitVec.getLsbD_extractLsb']
  interval_cases i <;> simp

/-- Mask `0xFE00707F`: the opcode, `funct3` and `funct7`. -/
theorem and_mask_funct7 (w : Word) :
    w &&& 0xFE00707F#32 = put 32 (funct7Of w) 25 ||| put 32 (funct3Of w) 12 ||| put 32 (opcodeOf w) 0 := by
  apply BitVec.eq_of_getLsbD_eq
  intro i hi
  simp only [BitVec.getLsbD_and, BitVec.getLsbD_or, getLsbD_put, opcodeOf, funct3Of, funct7Of,
    BitVec.getLsbD_extractLsb']
  interval_cases i <;> simp

theorem and_mask_all (w : Word) : w &&& 0xFFFFFFFF#32 = w := by
  simpa using BitVec.and_allOnes (x := w)

/-- A word that matches a row with mask `0x7F` has the opcode of the row's pattern. -/
theorem fields_of_mask_opcode {w p : Word} (h : w &&& 0x0000007F#32 = p) : opcodeOf w = opcodeOf p := by
  rw [← h, and_mask_opcode]
  conv_rhs => rw [opcodeOf]
  simp (disch := omega) only [slice_put_same]

/-- A word that matches a row with mask `0x707F` has the opcode and `funct3` of the row's pattern. -/
theorem fields_of_mask_funct3 {w p : Word} (h : w &&& 0x0000707F#32 = p) :
    opcodeOf w = opcodeOf p ∧ funct3Of w = funct3Of p := by
  rw [← h, and_mask_funct3]
  constructor
  · conv_rhs => rw [opcodeOf]
    simp (disch := omega) only [slice_or, slice_put_same, slice_put_apart, BitVec.zero_or]
  · conv_rhs => rw [funct3Of]
    simp (disch := omega) only [slice_or, slice_put_same, slice_put_apart, BitVec.or_zero]

/-- A word that matches a row with mask `0xFE00707F` has the opcode, `funct3` and `funct7` of the row's pattern. -/
theorem fields_of_mask_funct7 {w p : Word} (h : w &&& 0xFE00707F#32 = p) :
    opcodeOf w = opcodeOf p ∧ funct3Of w = funct3Of p ∧ funct7Of w = funct7Of p := by
  rw [← h, and_mask_funct7]
  refine ⟨?_, ?_, ?_⟩
  · conv_rhs => rw [opcodeOf]
    simp (disch := omega) only [slice_or, slice_put_same, slice_put_apart, BitVec.zero_or]
  · conv_rhs => rw [funct3Of]
    simp (disch := omega) only [slice_or, slice_put_same, slice_put_apart, BitVec.or_zero, BitVec.zero_or]
  · conv_rhs => rw [funct7Of]
    simp (disch := omega) only [slice_or, slice_put_same, slice_put_apart, BitVec.or_zero]

/-! ### Every field of a word placed back gives the word -/

section whole
variable (w : Word)
theorem encodeR_fields :
    encodeR (funct7Of w) (rs2Of w) (rs1Of w) (funct3Of w) (rdOf w) (opcodeOf w) = w := by
  apply BitVec.eq_of_getLsbD_eq
  intro i hi
  simp only [encodeR, BitVec.getLsbD_or, getLsbD_put, funct7Of, rs2Of, rs1Of, funct3Of, rdOf, opcodeOf,
    BitVec.getLsbD_extractLsb']
  interval_cases i <;> simp
theorem encodeI_fields : encodeI (immIOf w) (rs1Of w) (funct3Of w) (rdOf w) (opcodeOf w) = w := by
  apply BitVec.eq_of_getLsbD_eq
  intro i hi
  simp only [encodeI, BitVec.getLsbD_or, getLsbD_put, immIOf, rs1Of, funct3Of, rdOf, opcodeOf,
    BitVec.getLsbD_extractLsb']
  interval_cases i <;> simp
theorem encodeU_fields : encodeU (immUOf w) (rdOf w) (opcodeOf w) = w := by
  apply BitVec.eq_of_getLsbD_eq
  intro i hi
  simp only [encodeU, BitVec.getLsbD_or, getLsbD_put, immUOf, rdOf, opcodeOf, BitVec.getLsbD_extractLsb']
  interval_cases i <;> simp
theorem encodeS_fields : encodeS (immSOf w) (rs2Of w) (rs1Of w) (funct3Of w) (opcodeOf w) = w := by
  apply BitVec.eq_of_getLsbD_eq
  intro i hi
  simp only [encodeS, BitVec.getLsbD_or, getLsbD_put, immSOf, rs2Of, rs1Of, funct3Of, opcodeOf,
    BitVec.getLsbD_extractLsb']
  interval_cases i <;> simp
theorem encodeB_fields : encodeB (immBOf w) (rs2Of w) (rs1Of w) (funct3Of w) (opcodeOf w) = w := by
  apply BitVec.eq_of_getLsbD_eq
  intro i hi
  simp only [encodeB, BitVec.getLsbD_or, getLsbD_put, immBOf, rs2Of, rs1Of, funct3Of, opcodeOf,
    BitVec.getLsbD_extractLsb']
  interval_cases i <;> simp
theorem encodeJ_fields : encodeJ (immJOf w) (rdOf w) (opcodeOf w) = w := by
  apply BitVec.eq_of_getLsbD_eq
  intro i hi
  simp only [encodeJ, BitVec.getLsbD_or, getLsbD_put, immJOf, rdOf, opcodeOf, BitVec.getLsbD_extractLsb']
  interval_cases i <;> simp
theorem encodeFence_fields (h3 : funct3Of w = 0b000#3) (h : opcodeOf w = 0b0001111#7) :
    encodeFence (w.extractLsb' 28 4) (w.extractLsb' 24 4) (w.extractLsb' 20 4) (rs1Of w) (rdOf w) = w := by
  have : encodeFence (w.extractLsb' 28 4) (w.extractLsb' 24 4) (w.extractLsb' 20 4) (rs1Of w) (rdOf w) =
      put 32 (w.extractLsb' 28 4) 28 ||| put 32 (w.extractLsb' 24 4) 24 ||| put 32 (w.extractLsb' 20 4) 20 |||
        put 32 (rs1Of w) 15 ||| put 32 (funct3Of w) 12 ||| put 32 (rdOf w) 7 ||| put 32 (opcodeOf w) 0 := by
    rw [h3, h]; rfl
  rw [this]
  apply BitVec.eq_of_getLsbD_eq
  intro i hi
  simp only [BitVec.getLsbD_or, getLsbD_put, rs1Of, funct3Of, rdOf, opcodeOf, BitVec.getLsbD_extractLsb']
  interval_cases i <;> simp
end whole

end Sys2Proof
end

