-- ==== Sys2Proof/Laws/State.lean ====
section
/-! SUPPORT. One lemma per field of State per update, each true by unfolding the update once. -/

namespace Sys2Proof.Machine

section commit
variable (s : State) (p : Word)
@[simp] theorem commit_cfg : (s.commit p).cfg = s.cfg := rfl
@[simp] theorem commit_gpr : (s.commit p).gpr = s.gpr := rfl
@[simp] theorem commit_pc : (s.commit p).pc = p := rfl
@[simp] theorem commit_mem : (s.commit p).mem = s.mem := rfl
@[simp] theorem commit_fault : (s.commit p).fault = s.fault := rfl
@[simp] theorem commit_diag : (s.commit p).diag = s.diag := rfl
@[simp] theorem commit_causeSink : (s.commit p).causeSink = s.causeSink := rfl
@[simp] theorem commit_readReg (r : RegIdx) : (s.commit p).readReg r = s.readReg r := rfl
@[simp] theorem commit_load8 (a : Nat) : (s.commit p).load8 a = s.load8 a := rfl
end commit

section emit
variable (s : State) (d : DiagDump)
@[simp] theorem emit_cfg : (s.emit d).cfg = s.cfg := rfl
@[simp] theorem emit_gpr : (s.emit d).gpr = s.gpr := rfl
@[simp] theorem emit_pc : (s.emit d).pc = s.pc := rfl
@[simp] theorem emit_mem : (s.emit d).mem = s.mem := rfl
@[simp] theorem emit_fault : (s.emit d).fault = s.fault := rfl
@[simp] theorem emit_diag : (s.emit d).diag = s.diag ++ [d] := rfl
@[simp] theorem emit_causeSink : (s.emit d).causeSink = s.causeSink := rfl
@[simp] theorem emit_readReg (r : RegIdx) : (s.emit d).readReg r = s.readReg r := rfl
@[simp] theorem emit_load8 (a : Nat) : (s.emit d).load8 a = s.load8 a := rfl
end emit

section writeReg
variable (s : State) (r : RegIdx) (v : Word)
@[simp] theorem writeReg_cfg : (s.writeReg r v).cfg = s.cfg := by unfold State.writeReg; split <;> rfl
@[simp] theorem writeReg_pc : (s.writeReg r v).pc = s.pc := by unfold State.writeReg; split <;> rfl
@[simp] theorem writeReg_mem : (s.writeReg r v).mem = s.mem := by unfold State.writeReg; split <;> rfl
@[simp] theorem writeReg_fault : (s.writeReg r v).fault = s.fault := by unfold State.writeReg; split <;> rfl
@[simp] theorem writeReg_diag : (s.writeReg r v).diag = s.diag := by unfold State.writeReg; split <;> rfl
@[simp] theorem writeReg_causeSink : (s.writeReg r v).causeSink = s.causeSink := by
  unfold State.writeReg; split <;> rfl
@[simp] theorem writeReg_load8 (a : Nat) : (s.writeReg r v).load8 a = s.load8 a := by
  simp [State.load8]
@[simp] theorem writeReg_seqPc : (s.writeReg r v).seqPc = s.seqPc := by simp [State.seqPc]
end writeReg

section withMem
variable (s : State) (m : Memory)
@[simp] theorem withMem_readReg (r : RegIdx) : State.readReg { s with mem := m } r = s.readReg r := rfl
end withMem

section withFault
variable (s : State) (f : Option FaultRecord)
@[simp] theorem withFault_readReg (r : RegIdx) : State.readReg { s with fault := f } r = s.readReg r := rfl
@[simp] theorem withFault_load8 (a : Nat) : State.load8 { s with fault := f } a = s.load8 a := rfl
end withFault

section withSink
variable (s : State) (c : List CauseRecord) (p : Word)
@[simp] theorem withSink_readReg (r : RegIdx) :
    State.readReg { s with causeSink := c, pc := p } r = s.readReg r := rfl
@[simp] theorem withSink_load8 (a : Nat) : State.load8 { s with causeSink := c, pc := p } a = s.load8 a := rfl
end withSink

@[simp] theorem placeAtPc_cfg (s : State) (bs : List Byte) : (placeAtPc s bs).cfg = s.cfg := rfl
@[simp] theorem placeAtPc_gpr (s : State) (bs : List Byte) : (placeAtPc s bs).gpr = s.gpr := rfl
@[simp] theorem placeAtPc_pc (s : State) (bs : List Byte) : (placeAtPc s bs).pc = s.pc := rfl
@[simp] theorem placeAtPc_mem (s : State) (bs : List Byte) :
    (placeAtPc s bs).mem = s.mem.writeBytes s.pc.toNat bs := rfl
@[simp] theorem placeAtPc_fault (s : State) (bs : List Byte) : (placeAtPc s bs).fault = s.fault := rfl
@[simp] theorem placeAtPc_diag (s : State) (bs : List Byte) : (placeAtPc s bs).diag = s.diag := rfl
@[simp] theorem placeAtPc_causeSink (s : State) (bs : List Byte) : (placeAtPc s bs).causeSink = s.causeSink := rfl

/-- The sequencer's default is `pc + 4` (R104). -/
@[simp] theorem seqPc_eq (s : State) : s.seqPc = s.pc + 4#32 := rfl

/-- `x[0]` reads as 0 in every state (R12). -/
@[simp] theorem readReg_zero (s : State) : s.readReg 0#5 = 0#32 := rfl

/-- A read after a write (R13): the written value in the written register, unless it is register 0; every other
register as before. -/
theorem readReg_writeReg (s : State) (r q : RegIdx) (v : Word) :
    (s.writeReg r v).readReg q = if q = r ∧ q ≠ 0#5 then v else s.readReg q := by
  by_cases hr : r = 0#5
  · subst hr
    by_cases hq : q = 0#5 <;> simp [State.writeReg, hq]
  · by_cases hq : q = 0#5
    · subst hq; simp
    · have h1 : r.toNat ≠ 0 := fun h => hr (BitVec.eq_of_toNat_eq (by simpa using h))
      have h2 : q.toNat ≠ 0 := fun h => hq (BitVec.eq_of_toNat_eq (by simpa using h))
      simp only [State.readReg, State.writeReg, hr, hq, if_false, ne_eq, not_false_eq_true, and_true,
        Vector.getElem_set]
      by_cases he : q = r
      · simp [he]
      · have : q.toNat ≠ r.toNat := fun h => he (BitVec.eq_of_toNat_eq h)
        simp only [he, if_false]
        rw [if_neg (by omega)]

end Sys2Proof.Machine
end

