-- ==== Sys2Proof/Laws/Memory.lean ====
section
/-! SUPPORT. Memory: a read after a write, and every operation keeps the canonical form and the bounds. -/

namespace Sys2Proof.Machine

/-! ### Canonical form -/

theorem wfFrom_mono {lo lo' : Nat} (h : lo' ≤ lo) {m : Memory} (hm : Memory.wfFrom lo m = true) :
    Memory.wfFrom lo' m = true := by
  cases m with
  | nil => rfl
  | cons c m =>
    simp only [Memory.wfFrom, Bool.and_eq_true, decide_eq_true_eq] at *
    exact ⟨⟨by omega, hm.1.2⟩, hm.2⟩

theorem read_of_lt {lo : Nat} {m : Memory} (hm : Memory.wfFrom lo m = true) {a : Nat} (h : a < lo) :
    Memory.read m a = Memory.unlisted := by
  cases m with
  | nil => rfl
  | cons c m =>
    simp only [Memory.wfFrom, Bool.and_eq_true, decide_eq_true_eq] at hm
    simp [Memory.read, show a < c.1 by omega]

theorem wfFrom_cons {lo a : Nat} {b : Byte} {m : Memory} (h : lo ≤ a) (hm : Memory.wfFrom (a + 1) m = true) :
    Memory.wfFrom lo (Memory.cons m a b) = true := by
  unfold Memory.cons
  split
  · exact wfFrom_mono (by omega) hm
  · simp [Memory.wfFrom, *]

theorem wfFrom_write {lo : Nat} {m : Memory} (hm : Memory.wfFrom lo m = true) {a : Nat} (h : lo ≤ a) (b : Byte) :
    Memory.wfFrom lo (Memory.write m a b) = true := by
  induction m generalizing lo with
  | nil => exact wfFrom_cons h rfl
  | cons c m ih =>
    obtain ⟨c, x⟩ := c
    have hm' := hm
    simp only [Memory.wfFrom, Bool.and_eq_true, decide_eq_true_eq] at hm'
    obtain ⟨⟨h1, h2⟩, h3⟩ := hm'
    simp only [Memory.write]
    split
    · refine wfFrom_cons h ?_
      simp only [Memory.wfFrom, Bool.and_eq_true, decide_eq_true_eq]
      exact ⟨⟨by omega, h2⟩, h3⟩
    · split
      · subst_vars; exact wfFrom_cons h h3
      · simp only [Memory.wfFrom, Bool.and_eq_true, decide_eq_true_eq]
        exact ⟨⟨h1, h2⟩, ih h3 (by omega)⟩

/-- A write keeps the canonical form. -/
theorem wf_write {m : Memory} (hm : m.wf = true) (a : Nat) (b : Byte) : (m.write a b).wf = true :=
  wfFrom_write hm (Nat.zero_le a) b

/-- Writing several bytes keeps the canonical form. -/
theorem wf_writeBytes {m : Memory} (hm : m.wf = true) (a : Nat) (bs : List Byte) :
    (m.writeBytes a bs).wf = true := by
  induction bs generalizing m a with
  | nil => exact hm
  | cons b bs ih => exact ih (wf_write hm a b) (a + 1)

/-- Placing the bytes of `MEM_INIT` keeps the canonical form. -/
theorem wf_place {size : Nat} {m : Memory} (hm : m.wf = true) (cells : List Host.Cell) :
    (Memory.place size m cells).wf = true := by
  induction cells generalizing m with
  | nil => exact hm
  | cons c cells ih =>
    obtain ⟨a, b⟩ := c
    unfold Memory.place
    split
    · exact ih (wf_write hm a b)
    · exact ih hm

theorem wf_reset : State.reset.mem.wf = true := rfl

/-! ### Bounds -/

theorem within_cons {n a : Nat} {b : Byte} {m : Memory} (h : a < n) (hm : Memory.within n m = true) :
    Memory.within n (Memory.cons m a b) = true := by
  unfold Memory.cons
  split
  · exact hm
  · simp [Memory.within, *]

theorem within_write {n a : Nat} {m : Memory} (hm : Memory.within n m = true) (h : a < n) (b : Byte) :
    Memory.within n (Memory.write m a b) = true := by
  induction m with
  | nil => exact within_cons h rfl
  | cons c m ih =>
    obtain ⟨c, x⟩ := c
    have hm' := hm
    simp only [Memory.within, Bool.and_eq_true, decide_eq_true_eq] at hm'
    simp only [Memory.write]
    split
    · exact within_cons h hm
    · split
      · exact within_cons h hm'.2
      · simp [Memory.within, hm'.1, ih hm'.2]

theorem within_writeBytes {n a : Nat} {m : Memory} {bs : List Byte} (hm : Memory.within n m = true)
    (h : a + bs.length ≤ n) : Memory.within n (m.writeBytes a bs) = true := by
  induction bs generalizing m a with
  | nil => exact hm
  | cons b bs ih =>
    simp only [List.length_cons] at h
    exact ih (within_write hm (by omega) b) (by omega)

/-! ### A read after a write -/

theorem read_cons {lo a : Nat} {b : Byte} {m : Memory} (hm : Memory.wfFrom lo m = true) (h : a < lo) (c : Nat) :
    Memory.read (Memory.cons m a b) c = if c = a then b else Memory.read m c := by
  unfold Memory.cons
  split
  · by_cases hc : c = a
    · subst hc; simp [read_of_lt hm h, *]
    · simp [hc]
  · by_cases hc : c = a
    · simp [Memory.read, hc]
    · by_cases h1 : c < a
      · simp [Memory.read, hc, h1, read_of_lt hm (show c < lo by omega)]
      · simp [Memory.read, hc, h1]

theorem read_write_from {lo : Nat} {m : Memory} (hm : Memory.wfFrom lo m = true) {a : Nat} (b : Byte)
    (c : Nat) : Memory.read (Memory.write m a b) c = if c = a then b else Memory.read m c := by
  induction m generalizing lo with
  | nil => exact read_cons (lo := a + 1) rfl (by omega) c
  | cons d m ih =>
    obtain ⟨d, x⟩ := d
    have hm' := hm
    simp only [Memory.wfFrom, Bool.and_eq_true, decide_eq_true_eq] at hm'
    obtain ⟨⟨h1, h2⟩, h3⟩ := hm'
    simp only [Memory.write]
    split
    · refine read_cons (lo := d) ?_ (by omega) c
      simp only [Memory.wfFrom, Bool.and_eq_true, decide_eq_true_eq]
      exact ⟨⟨by omega, h2⟩, h3⟩
    · split
      · rename_i hne he
        subst he
        rw [read_cons h3 (by omega) c]
        by_cases hc : c = a
        · simp [hc]
        · by_cases hl : c < a
          · simp [hc, Memory.read, hl, read_of_lt h3 (show c < a + 1 by omega)]
          · simp [hc, Memory.read, hl]
      · by_cases hl : c < d
        · have : c ≠ a := by omega
          simp [Memory.read, hl, this]
        · by_cases he : c = d
          · have : c ≠ a := by omega
            subst he
            simp [Memory.read, this]
          · simp [Memory.read, hl, he, ih h3]

/-- A read after a write of one byte: the byte written at that address, every other address as before. -/
theorem read_write {m : Memory} (hm : m.wf = true) (a : Nat) (b : Byte) (c : Nat) :
    (m.write a b).read c = if c = a then b else m.read c :=
  read_write_from hm b c

/-- A write of several bytes leaves every address outside them alone. -/
theorem read_writeBytes_outside {m : Memory} (hm : m.wf = true) {a : Nat} {bs : List Byte} {c : Nat}
    (h : c < a ∨ a + bs.length ≤ c) : (m.writeBytes a bs).read c = m.read c := by
  induction bs generalizing m a with
  | nil => rfl
  | cons b bs ih =>
    simp only [List.length_cons] at h
    rw [Memory.writeBytes, ih (wf_write hm a b) (by omega), read_write hm, if_neg (by omega)]

/-- A write of several bytes puts the `j`-th at `a + j`. -/
theorem read_writeBytes_inside {m : Memory} (hm : m.wf = true) {a : Nat} {bs : List Byte} {j : Nat}
    (h : j < bs.length) : (m.writeBytes a bs).read (a + j) = bs[j] := by
  induction bs generalizing m a j with
  | nil => simp at h
  | cons b bs ih =>
    cases j with
    | zero =>
      rw [Memory.writeBytes, read_writeBytes_outside (wf_write hm a b) (by omega), read_write hm]
      simp
    | succ j =>
      have := ih (wf_write hm a b) (a := a + 1) (j := j) (by simpa using h)
      rw [show a + (j + 1) = a + 1 + j by omega, Memory.writeBytes, this]
      simp

@[simp] theorem length_readBytes (m : Memory) (a k : Nat) : (m.readBytes a k).length = k := by
  induction k generalizing a with
  | zero => rfl
  | succ k ih => simp [Memory.readBytes, ih]

theorem getElem_readBytes (m : Memory) (a k j : Nat) (h : j < k) :
    (m.readBytes a k)[j]'(by simpa using h) = m.read (a + j) := by
  induction k generalizing a j with
  | zero => omega
  | succ k ih =>
    cases j with
    | zero => rfl
    | succ j =>
      simp only [Memory.readBytes, List.getElem_cons_succ]
      rw [ih (a + 1) j (by omega)]
      congr 1
      omega

/-- Reading back the bytes just written. -/
theorem readBytes_writeBytes {m : Memory} (hm : m.wf = true) (a : Nat) (bs : List Byte) :
    (m.writeBytes a bs).readBytes a bs.length = bs := by
  apply List.ext_getElem (by simp)
  intro j h1 h2
  rw [getElem_readBytes _ _ _ _ h2, read_writeBytes_inside hm h2]

theorem readBytes_congr {m m' : Memory} {a k : Nat} (h : ∀ j, j < k → m'.read (a + j) = m.read (a + j)) :
    m'.readBytes a k = m.readBytes a k := by
  apply List.ext_getElem (by simp)
  intro j h1 h2
  rw [getElem_readBytes _ _ _ _ (by simpa using h1), getElem_readBytes _ _ _ _ (by simpa using h1),
    h j (by simpa using h1)]

/-! ### Byte order -/

@[simp] theorem length_leBytes (k v : Nat) : (leBytes k v).length = k := by
  induction k generalizing v with
  | zero => rfl
  | succ k ih => simp [leBytes, ih]

theorem getElem_leBytes (k v j : Nat) (h : j < k) :
    (leBytes k v)[j]'(by simpa using h) = BitVec.ofNat 8 (v / 256 ^ j) := by
  induction k generalizing v j with
  | zero => omega
  | succ k ih =>
    cases j with
    | zero => simp [leBytes]
    | succ j =>
      simp only [leBytes, List.getElem_cons_succ]
      rw [ih (v / 256) j (by omega), Nat.div_div_eq_div_mul, Nat.pow_succ, Nat.mul_comm]

/-- The bytes of a number stand for the number, modulo 256 to their count. -/
theorem leNat_leBytes (k v : Nat) : leNat (leBytes k v) = v % 256 ^ k := by
  induction k generalizing v with
  | zero => simp [leBytes, leNat, Nat.mod_one]
  | succ k ih =>
    simp only [leBytes, leNat, ih, BitVec.toNat_ofNat]
    rw [show 256 ^ (k + 1) = 256 * 256 ^ k from Nat.pow_succ', Nat.mod_mul]

end Sys2Proof.Machine
end

