-- ==== Sys2Proof/Laws/Exec.lean ====
section
/-! SUPPORT. One lemma per shared operation of the machine, saying once everything it can do: faults, the end of an arm, the
memory path, fetch, and what a step is. Later proofs cite these and unfold nothing. -/

namespace Sys2Proof.Machine

/-! ### Faults and the end of an arm -/

/-- The sink of R213, which a later fault overwrites. -/
@[simp] theorem recordCause_newest_one (held : List CauseRecord) (r : CauseRecord) :
    recordCause (.newest 1) held r = [r] := rfl

@[simp] theorem recordCause_newest_succ (n : Nat) (held : List CauseRecord) (r : CauseRecord) :
    recordCause (.newest (n + 1)) held r = r :: held.take n := rfl

@[simp] theorem recordCause_oldest (n : Nat) (held : List CauseRecord) (r : CauseRecord) :
    recordCause (.oldest n) held r = if held.length < n then r :: held else held := rfl

@[simp] theorem recordCause_every (held : List CauseRecord) (r : CauseRecord) :
    recordCause .every held r = r :: held := rfl

@[simp] theorem sinkFits_nil (sink : CauseSink) : sinkFits sink [] = true := by cases sink <;> simp [sinkFits]

/-- A record never makes a sink hold more than it has room for. -/
theorem sinkFits_recordCause {sink : CauseSink} {held : List CauseRecord} (h : sinkFits sink held = true)
    (r : CauseRecord) : sinkFits sink (recordCause sink held r) = true := by
  cases sink with
  | newest n => simp [recordCause, sinkFits, List.length_take]
  | oldest n =>
    have h : held.length ≤ n := by simpa [sinkFits] using h
    by_cases hn : held.length < n <;> simp [sinkFits, hn, h]
  | every => rfl
  | other id => rfl

/-- What raising a fault does, in either trap mode (R210, R212). -/
theorem raise_raised (c : Cause) (info : Word) (s : State) : Raised c info s (raise c info s) := by
  unfold Raised raise
  cases h : s.cfg.trapMode with
  | halt => exact ⟨_, rfl, fun _ => rfl, fun _ => rfl, rfl, rfl, rfl, rfl, rfl⟩
  | vector v codes sink => exact ⟨_, rfl, fun _ => rfl, fun _ => rfl, rfl, rfl, rfl, rfl, rfl⟩

/-- The memory list itself is untouched by a fault. -/
theorem raise_next {c : Cause} {info : Word} {s t : State} (h : raise c info s = .next t) :
    t.cfg = s.cfg ∧ t.gpr = s.gpr ∧ t.mem = s.mem ∧ t.diag = s.diag ∧
      ((s.cfg.trapMode = .halt ∧ t.fault = some ⟨c, s.pc, info⟩ ∧ t.pc = s.pc ∧ t.causeSink = s.causeSink) ∨
        ∃ v codes sink, s.cfg.trapMode = .vector v codes sink ∧ t.fault = s.fault ∧ t.pc = v ∧
          t.causeSink = recordCause sink s.causeSink ⟨codeOf codes c, s.pc, info⟩) := by
  unfold raise at h
  cases hm : s.cfg.trapMode with
  | halt => rw [hm] at h; cases h; simp
  | vector v codes sink => rw [hm] at h; cases h; simp

theorem completedOnly_completed {i : Instr} {s : State} {r : Result} (h : s.cfg.profile = .completed) :
    completedOnly i s r = r := by simp [completedOnly, h]

theorem completedOnly_documented {i : Instr} {s : State} {r : Result} (h : s.cfg.profile = .documented) :
    completedOnly i s r = raise .unimplemented (encode i) s := by simp [completedOnly, h]

@[simp] theorem setsReg_writeReg (s : State) (rd : RegIdx) (v : Word) : SetsReg rd v s (s.writeReg rd v) :=
  fun r => readReg_writeReg s rd r v

/-- An arm that writes one register and one PC. -/
theorem regResult_of_commit {i : Instr} {s : State} {rd : RegIdx} {v p : Word}
    (h : exec i s = .next ((s.writeReg rd v).commit p)) : RegResult i s rd v p :=
  ⟨_, h, fun r => readReg_writeReg s rd r v, rfl, fun a => by simp, by simp [SameRest]⟩

/-- An arm that writes one register and retires. -/
theorem regResult_of_retire {i : Instr} {s : State} {rd : RegIdx} {v : Word}
    (h : exec i s = retire (s.writeReg rd v)) : RegResult i s rd v (s.pc + 4#32) :=
  regResult_of_commit (by rw [h, retire, writeReg_seqPc, seqPc_eq])

/-- An arm that writes only the PC. -/
theorem pcResult_of_commit {i : Instr} {s : State} {p : Word} (h : exec i s = .next (s.commit p)) :
    PcResult i s p :=
  ⟨_, h, fun _ => rfl, rfl, fun _ => rfl, rfl, rfl, rfl, rfl⟩

/-! ### The memory path -/

theorem load8_eq_ok {s : State} {a : Nat} {b : Byte} :
    s.load8 a = .ok b ↔ a < s.cfg.memSize ∧ s.mem.read a = b := by
  unfold State.load8
  split
  · simp; omega
  · simp; omega

theorem loadUnaligned_error {s : State} {n a : Nat} (h : s.cfg.memSize < a + n / 8) :
    s.loadUnaligned n a = .error .unmapped := by simp [State.loadUnaligned, h]

theorem loadUnaligned_ok {s : State} {n a : Nat} (h : a + n / 8 ≤ s.cfg.memSize) :
    s.loadUnaligned n a = .ok (BitVec.ofNat n (leNat (s.mem.readBytes a (n / 8)))) := by
  simp [State.loadUnaligned, show ¬ s.cfg.memSize < a + n / 8 by omega]

theorem storeUnaligned_error {s : State} {n a : Nat} {v : BitVec n} (h : s.cfg.memSize < a + n / 8) :
    s.storeUnaligned n a v = .error .unmapped := by simp [State.storeUnaligned, h]

theorem storeUnaligned_ok {s : State} {n a : Nat} {v : BitVec n} (h : a + n / 8 ≤ s.cfg.memSize) :
    s.storeUnaligned n a v = .ok { s with mem := s.mem.writeBytes a (leBytes (n / 8) v.toNat) } := by
  simp [State.storeUnaligned, show ¬ s.cfg.memSize < a + n / 8 by omega]

/-- Everything `MemRead` can do: the first failing check of R39, or the little-endian value. -/
theorem memRead_cases (s : State) (ea : Word) (n : Nat) :
    (s.cfg.dataAlign = .checked ∧ ea.toNat % n ≠ 0 ∧ s.memRead ea n = .error .unaligned) ∨
    (DataAligned s ea n ∧ ¬ InMemory s ea n ∧ s.memRead ea n = .error .unmapped) ∨
    (DataAligned s ea n ∧ InMemory s ea n ∧
      s.memRead ea n = .ok (BitVec.ofNat (8 * n) (leNat (s.mem.readBytes ea.toNat n)))) := by
  have hn : 8 * n / 8 = n := by omega
  unfold State.memRead DataAligned InMemory State.loadAligned
  rw [hn]
  by_cases h2 : s.cfg.memSize < ea.toNat + n
  · have e := loadUnaligned_error (s := s) (n := 8 * n) (a := ea.toNat) (by omega)
    cases hd : s.cfg.dataAlign <;> by_cases h1 : ea.toNat % n = 0 <;> simp [h1, e, show ¬ ea.toNat + n ≤ s.cfg.memSize by omega]
  · have e := loadUnaligned_ok (s := s) (n := 8 * n) (a := ea.toNat) (by omega)
    rw [hn] at e
    cases hd : s.cfg.dataAlign <;> by_cases h1 : ea.toNat % n = 0 <;> simp [h1, e, show ea.toNat + n ≤ s.cfg.memSize by omega]

/-- Everything `MemWrite` can do: the first failing check of R39 and no state, or the bytes written. -/
theorem memWrite_cases (s : State) (ea : Word) (n : Nat) (v : Word) :
    (s.cfg.dataAlign = .checked ∧ ea.toNat % n ≠ 0 ∧ s.memWrite ea n v = .error .unaligned) ∨
    (DataAligned s ea n ∧ ¬ InMemory s ea n ∧ s.memWrite ea n v = .error .unmapped) ∨
    (DataAligned s ea n ∧ InMemory s ea n ∧
      s.memWrite ea n v =
        .ok { s with mem := s.mem.writeBytes ea.toNat (leBytes n (v.setWidth (8 * n)).toNat) }) := by
  have hn : 8 * n / 8 = n := by omega
  unfold State.memWrite DataAligned InMemory State.storeAligned
  rw [hn]
  by_cases h2 : s.cfg.memSize < ea.toNat + n
  · have e := storeUnaligned_error (s := s) (n := 8 * n) (a := ea.toNat) (v := v.setWidth (8 * n)) (by omega)
    cases hd : s.cfg.dataAlign <;> by_cases h1 : ea.toNat % n = 0 <;> simp [h1, e, show ¬ ea.toNat + n ≤ s.cfg.memSize by omega]
  · have e := storeUnaligned_ok (s := s) (n := 8 * n) (a := ea.toNat) (v := v.setWidth (8 * n)) (by omega)
    rw [hn] at e
    cases hd : s.cfg.dataAlign <;> by_cases h1 : ea.toNat % n = 0 <;> simp [h1, e, show ea.toNat + n ≤ s.cfg.memSize by omega]

/-- A load arm, by what `MemRead` answers (R125, R131). -/
theorem loadArm_error {n : Nat} {ext : BitVec (8 * n) → Word} {rd rs1 : RegIdx} {imm : BitVec 12} {s : State}
    {e : MemFault} (h : s.memRead (effAddr rs1 imm s) n = .error e) :
    loadArm n ext rd rs1 imm s = raise (dataCause e) (effAddr rs1 imm s) s := by simp [loadArm, h]

theorem loadArm_ok {n : Nat} {ext : BitVec (8 * n) → Word} {rd rs1 : RegIdx} {imm : BitVec 12} {s : State}
    {v : BitVec (8 * n)} (h : s.memRead (effAddr rs1 imm s) n = .ok v) :
    loadArm n ext rd rs1 imm s = retire (s.writeReg rd (ext v)) := by simp [loadArm, h]

/-- A store arm, by what `MemWrite` answers (R185, R189). -/
theorem storeArm_error {n : Nat} {rs1 rs2 : RegIdx} {imm : BitVec 12} {s : State} {e : MemFault}
    (h : s.memWrite (effAddr rs1 imm s) n (s.readReg rs2) = .error e) :
    storeArm n rs1 rs2 imm s = raise (dataCause e) (effAddr rs1 imm s) s := by simp [storeArm, h]

theorem storeArm_ok {n : Nat} {rs1 rs2 : RegIdx} {imm : BitVec 12} {s t : State}
    (h : s.memWrite (effAddr rs1 imm s) n (s.readReg rs2) = .ok t) :
    storeArm n rs1 rs2 imm s = retire t := by simp [storeArm, h]

/-- The byte `j` of a number written little-endian from a word's low bytes. -/
theorem getElem_leBytes_word {n j : Nat} (hn : n ≤ 4) (v : Word) (h : j < n) :
    (leBytes n (v.setWidth (8 * n)).toNat)[j]'(by simpa using h) = v.extractLsb' (8 * j) 8 := by
  rw [getElem_leBytes _ _ _ h]
  apply BitVec.eq_of_toNat_eq
  simp only [BitVec.toNat_ofNat, BitVec.toNat_setWidth, BitVec.extractLsb'_toNat, Nat.shiftRight_eq_div_pow]
  have hj : j = 0 ∨ j = 1 ∨ j = 2 ∨ j = 3 := by omega
  have hn' : n = 0 ∨ n = 1 ∨ n = 2 ∨ n = 3 ∨ n = 4 := by omega
  rcases hj with rfl | rfl | rfl | rfl <;> rcases hn' with rfl | rfl | rfl | rfl | rfl <;> simp at h ⊢ <;> omega

/-- A completed store. -/
theorem storeResult_of_memWrite {i : Instr} {s : State} {ea : Word} {n : Nat} {v : Word} (hn : n ≤ 4)
    (hwf : s.mem.wf = true) (hin : InMemory s ea n)
    (h : exec i s = retire { s with mem := s.mem.writeBytes ea.toNat (leBytes n (v.setWidth (8 * n)).toNat) }) :
    StoreResult i s ea n v := by
  refine ⟨_, h, fun _ => rfl, rfl, ⟨rfl, rfl, rfl, rfl⟩, ?_, ?_⟩
  · intro j hj
    rw [load8_eq_ok]
    refine ⟨by simp only [InMemory] at hin; show ea.toNat + j < s.cfg.memSize; omega, ?_⟩
    show (s.mem.writeBytes _ _).read _ = _
    rw [read_writeBytes_inside hwf (by simpa using hj), getElem_leBytes_word hn v hj]
  · intro a ha
    simp only [State.load8, commit_cfg, commit_mem]
    rw [read_writeBytes_outside hwf (by simpa using ha)]
    rfl

/-! ### Fetch and step -/

/-- Everything `FetchWord` can do (R44). -/
theorem fetchWord_eq (s : State) (a : Word) :
    fetchWord s a =
      if a.toNat % 4 ≠ 0 then .error (.fetchUnaligned, a)
      else if s.cfg.memSize < a.toNat + 4 then .error (.fetchUnmapped, a)
      else .ok (BitVec.ofNat 32 (leNat (s.mem.readBytes a.toNat 4))) := by
  unfold fetchWord State.loadAligned
  by_cases h1 : a.toNat % 4 = 0
  · by_cases h2 : s.cfg.memSize < a.toNat + 4
    · simp [h1, h2, loadUnaligned_error, fetchCause]
    · simp [h1, h2, loadUnaligned_ok (s := s) (n := 32) (a := a.toNat) (by omega)]
  · simp [h1, fetchCause]

/-- Decoding four bytes is classifying their little-endian word (R65). -/
theorem decodeBytes_four (b0 b1 b2 b3 : Byte) :
    decodeBytes [b0, b1, b2, b3] =
      match decodeWord (BitVec.ofNat 32 (leNat [b0, b1, b2, b3])) with
      | some i => .ok (i, [])
      | none => .error (.illegal (BitVec.ofNat 32 (leNat [b0, b1, b2, b3]))) := rfl

/-- The four bytes read at an address, written out. -/
theorem readBytes_four (m : Memory) (a : Nat) :
    m.readBytes a 4 = [m.read a, m.read (a + 1), m.read (a + 2), m.read (a + 3)] := rfl

/-- The number of four bytes is their concatenation, the last most significant (R33). -/
theorem leNat_four (b0 b1 b2 b3 : Byte) :
    BitVec.ofNat 32 (leNat [b0, b1, b2, b3]) = b3 ++ b2 ++ b1 ++ b0 := by
  have h : leNat [b0, b1, b2, b3] = (b3 ++ b2 ++ b1 ++ b0 : BitVec (8 + 8 + 8 + 8)).toNat := by
    have := b0.isLt; have := b1.isLt; have := b2.isLt
    rw [BitVec.toNat_append, BitVec.toNat_append, BitVec.toNat_append,
      ← Nat.shiftLeft_add_eq_or_of_lt (by omega), ← Nat.shiftLeft_add_eq_or_of_lt (by omega),
      ← Nat.shiftLeft_add_eq_or_of_lt (by omega)]
    simp only [Nat.shiftLeft_eq, leNat]
    omega
  rw [h]
  exact BitVec.ofNat_toNat 32 _ |>.trans (BitVec.setWidth_eq _)

/-- The number of two bytes is their concatenation. -/
theorem leNat_two (b0 b1 : Byte) : BitVec.ofNat 16 (leNat [b0, b1]) = b1 ++ b0 := by
  have h : leNat [b0, b1] = (b1 ++ b0 : BitVec (8 + 8)).toNat := by
    have := b0.isLt
    rw [BitVec.toNat_append, ← Nat.shiftLeft_add_eq_or_of_lt (by omega)]
    simp only [Nat.shiftLeft_eq, leNat]
    omega
  rw [h]
  exact BitVec.ofNat_toNat 16 _ |>.trans (BitVec.setWidth_eq _)

theorem leNat_one (b0 : Byte) : BitVec.ofNat 8 (leNat [b0]) = b0 := by simp [leNat]

/-- A run, one step at a time. -/
theorem run_succ {n : Nat} {s t : State} (h : step s = .next t) :
    Sys2Proof.core.run (n + 1) s = Sys2Proof.core.run n t := by
  refine (Host.Core.run.eq_2 Sys2Proof.core s n).trans ?_
  have : Sys2Proof.core.step s = .next t := h
  rw [this]

theorem step_halted {s : State} (h : s.fault ≠ none) : step s = .next s := by
  unfold step
  cases hf : s.fault with
  | none => exact absurd hf h
  | some r => rfl

theorem step_error {s : State} {e : Cause × Word} (h : s.fault = none) (hd : decodeAt s s.pc = .error e) :
    step s = raise e.1 e.2 s := by simp [step, h, hd]

theorem step_ok {s : State} {i : Instr} (h : s.fault = none) (hd : decodeAt s s.pc = .ok i) :
    step s = exec i s := by simp [step, h, hd]

end Sys2Proof.Machine
end

