-- ==== Sys2Proof/Laws/Inversion.lean ====
section
/-! SUPPORT. What an instruction can do, said once for all 47 (`exec_cases`): it raises the one fault that `execFault` names, or it
completes, and then it changes only what `Quiet` lets it change and does the same under every other choice of the
parameters. Invariants are derived from this lemma and unfold no meaning. -/

namespace Sys2Proof.Machine

/-- The fault an instruction raises in a state, if any (R200, R203, after the fetch and the decoding). -/
def execFault (i : Instr) (s : State) : Option (Cause × Word) :=
  if s.cfg.profile = .documented ∧ i.tier ≠ .S then some (.unimplemented, encode i)
  else if isCsr i = true then some (.illegal, encode i)
  else if i = .ecall then some (.environmentCall, encode i)
  else
    match dataAccess i s with
    | none => none
    | some (n, ea) =>
      if s.cfg.dataAlign = .checked ∧ ea.toNat % n ≠ 0 then some (.unaligned, ea)
      else if s.cfg.memSize < ea.toNat + n then some (.unmapped, ea)
      else none

/-- What every completed instruction leaves alone, or changes in one way only. -/
def Quiet (i : Instr) (s t : State) : Prop :=
  t.cfg = s.cfg ∧ t.fault = s.fault ∧ t.causeSink = s.causeSink ∧
    (t.diag = s.diag ∨ i = .ebreak ∧ t.diag = s.diag ++ [s.dump]) ∧
    (isControlTransfer i = false → t.pc = s.pc + 4#32) ∧
    (t.mem = s.mem ∨ ∃ a bs, t.mem = s.mem.writeBytes a bs ∧ a + bs.length ≤ s.cfg.memSize)

/-- Everything an instruction can do. -/
def ExecCases (i : Instr) (s : State) : Prop :=
  (∀ c info, execFault i s = some (c, info) → exec i s = raise c info s) ∧
  (execFault i s = none → ∃ t, exec i s = .next t ∧ Quiet i s t ∧
    ∀ c : Config, execFault i { s with cfg := c } = none → exec i { s with cfg := c } = .next { t with cfg := c })

theorem writeReg_withCfg (s : State) (c : Config) (rd : RegIdx) (v : Word) :
    State.writeReg { s with cfg := c } rd v = { s.writeReg rd v with cfg := c } := by
  unfold State.writeReg; split <;> rfl

theorem completed_of_execFault {i : Instr} {s : State} (h : execFault i s = none) (ht : i.tier ≠ .S) :
    s.cfg.profile = .completed := by
  cases hp : s.cfg.profile with
  | completed => rfl
  | documented => simp [execFault, hp, ht] at h

/-- With `PROFILE = documented` a tier N or U instruction raises `Unimplemented` (R109). -/
theorem exec_documented {i : Instr} {s : State} (hp : s.cfg.profile = .documented) (ht : i.tier ≠ .S) :
    exec i s = raise .unimplemented (encode i) s := by
  cases i <;> first | exact absurd rfl ht | exact completedOnly_documented hp

/-- An instruction that is no CSR instruction, no `ECALL` and accesses no data. -/
def Plain (i : Instr) : Prop := isCsr i = false ∧ i ≠ .ecall ∧ ∀ s, dataAccess i s = none

theorem execFault_plain {i : Instr} (hi : Plain i) {s : State} {c : Cause} {info : Word}
    (h : execFault i s = some (c, info)) : s.cfg.profile = .documented ∧ i.tier ≠ .S ∧ c = .unimplemented ∧
      info = encode i := by
  unfold execFault at h
  split at h
  · cases h; exact ⟨(‹_ ∧ _›).1, (‹_ ∧ _›).2, rfl, rfl⟩
  · simp [hi.1, hi.2.1, hi.2.2] at h

/-- A plain instruction whose arm is the function `F`. -/
theorem cases_plain {i : Instr} (hi : Plain i) (F : State → State)
    (hF : ∀ s, i.tier ≠ .S ∧ exec i s = completedOnly i s (.next (F s)) ∨ i.tier = .S ∧ exec i s = .next (F s))
    (hc : ∀ s c, F { s with cfg := c } = { F s with cfg := c }) (s : State) (hq : Quiet i s (F s)) : ExecCases i s := by
  have key : ∀ s, execFault i s = none → exec i s = .next (F s) := by
    intro s h
    rcases hF s with ⟨ht, h1⟩ | ⟨-, h1⟩
    · rw [h1, completedOnly_completed (completed_of_execFault h ht)]
    · exact h1
  refine ⟨fun c info h => ?_, fun h => ⟨F s, key s h, hq, fun c h' => by rw [key _ h', hc]⟩⟩
  obtain ⟨h1, h2, rfl, rfl⟩ := execFault_plain hi h
  exact exec_documented h1 h2

/-- An arm that writes `f s` to `rd` and `p s` to the PC. -/
theorem cases_write {i : Instr} (hi : Plain i) (rd : RegIdx) (f p : State → Word)
    (hx : ∀ s, exec i s = completedOnly i s (.next ((s.writeReg rd (f s)).commit (p s)))) (ht : i.tier ≠ .S)
    (hf : ∀ s c, f { s with cfg := c } = f s) (hp : ∀ s c, p { s with cfg := c } = p s)
    (hq : ∀ s, isControlTransfer i = false → p s = s.pc + 4#32) (s : State) : ExecCases i s := by
  refine cases_plain hi (fun s => (s.writeReg rd (f s)).commit (p s)) (fun s => .inl ⟨ht, hx s⟩) (fun s c => ?_) s
    ⟨by simp, by simp, by simp, .inl (by simp), hq s, .inl (by simp)⟩
  simp only [hf, hp, writeReg_withCfg]
  rfl

/-- An arm that writes `f s` to `rd` and retires. -/
theorem cases_retire {i : Instr} (hi : Plain i) (rd : RegIdx) (f : State → Word)
    (hx : ∀ s, exec i s = completedOnly i s (retire (s.writeReg rd (f s)))) (ht : i.tier ≠ .S)
    (hf : ∀ s c, f { s with cfg := c } = f s) (s : State) : ExecCases i s :=
  cases_write hi rd f State.seqPc (fun s => by rw [hx, retire, writeReg_seqPc]) ht hf (fun _ _ => rfl) (fun _ _ => rfl) s

/-- A branch arm. -/
theorem cases_branch {i : Instr} (hi : Plain i) (cond : Word → Word → Bool) (rs1 rs2 : RegIdx) (o : BitVec 13)
    (hx : ∀ s, exec i s = completedOnly i s (branchArm cond rs1 rs2 o s)) (ht : i.tier ≠ .S)
    (hb : isControlTransfer i = true) (s : State) : ExecCases i s :=
  cases_plain hi
    (fun s => s.commit (if cond (s.readReg rs1) (s.readReg rs2) then branchTarget o s else s.seqPc))
    (fun s => .inl ⟨ht, hx s⟩) (fun _ _ => rfl) s
    ⟨rfl, rfl, rfl, .inl rfl, fun h => absurd (hb.symm.trans h) (by decide), .inl rfl⟩

/-- Everything `MemRead` answers, by condition (R39, R45). -/
theorem memRead_spec (s : State) (ea : Word) (n : Nat) :
    (s.cfg.dataAlign = .checked → ea.toNat % n ≠ 0 → s.memRead ea n = .error .unaligned) ∧
    (DataAligned s ea n → ¬ InMemory s ea n → s.memRead ea n = .error .unmapped) ∧
    (DataAligned s ea n → InMemory s ea n →
      s.memRead ea n = .ok (BitVec.ofNat (8 * n) (leNat (s.mem.readBytes ea.toNat n)))) := by
  rcases memRead_cases s ea n with ⟨h1, h2, h3⟩ | ⟨h1, h2, h3⟩ | ⟨h1, h2, h3⟩
  · refine ⟨fun _ _ => h3, ?_, ?_⟩ <;> (rintro (h | h) <;> simp_all)
  · refine ⟨?_, fun _ _ => h3, fun _ h => absurd h h2⟩
    intro h h'; rcases h1 with h1 | h1 <;> simp_all
  · refine ⟨?_, fun _ h => absurd h2 h, fun _ _ => h3⟩
    intro h h'; rcases h1 with h1 | h1 <;> simp_all

/-- Everything `MemWrite` answers, by condition (R39, R46). -/
theorem memWrite_spec (s : State) (ea : Word) (n : Nat) (v : Word) :
    (s.cfg.dataAlign = .checked → ea.toNat % n ≠ 0 → s.memWrite ea n v = .error .unaligned) ∧
    (DataAligned s ea n → ¬ InMemory s ea n → s.memWrite ea n v = .error .unmapped) ∧
    (DataAligned s ea n → InMemory s ea n →
      s.memWrite ea n v =
        .ok { s with mem := s.mem.writeBytes ea.toNat (leBytes n (v.setWidth (8 * n)).toNat) }) := by
  rcases memWrite_cases s ea n v with ⟨h1, h2, h3⟩ | ⟨h1, h2, h3⟩ | ⟨h1, h2, h3⟩
  · refine ⟨fun _ _ => h3, ?_, ?_⟩ <;> (rintro (h | h) <;> simp_all)
  · refine ⟨?_, fun _ _ => h3, fun _ h => absurd h h2⟩
    intro h h'; rcases h1 with h1 | h1 <;> simp_all
  · refine ⟨?_, fun _ h => absurd h2 h, fun _ _ => h3⟩
    intro h h'; rcases h1 with h1 | h1 <;> simp_all

theorem dataAligned_of_not {s : State} {ea : Word} {n : Nat} (h : ¬ (s.cfg.dataAlign = .checked ∧ ea.toNat % n ≠ 0)) :
    DataAligned s ea n := by
  unfold DataAligned
  cases hd : s.cfg.dataAlign <;> simp_all

/-- The three outcomes of `execFault` for a data access whose profile lets it run. -/
theorem execFault_data {i : Instr} {s : State} {n : Nat} {ea : Word} (hd : dataAccess i s = some (n, ea))
    (h1 : ¬ (s.cfg.profile = .documented ∧ i.tier ≠ .S)) (h2 : isCsr i = false) (h3 : i ≠ .ecall) :
    (s.cfg.dataAlign = .checked ∧ ea.toNat % n ≠ 0 ∧ execFault i s = some (.unaligned, ea)) ∨
    (DataAligned s ea n ∧ ¬ InMemory s ea n ∧ execFault i s = some (.unmapped, ea)) ∨
    (DataAligned s ea n ∧ InMemory s ea n ∧ execFault i s = none) := by
  unfold execFault
  rw [hd, if_neg h1, if_neg (by simp [h2]), if_neg h3]
  simp only
  split
  · exact .inl ⟨(‹_ ∧ _›).1, (‹_ ∧ _›).2, rfl⟩
  · split
    · exact .inr (.inl ⟨dataAligned_of_not ‹_›, by simp only [InMemory]; omega, rfl⟩)
    · exact .inr (.inr ⟨dataAligned_of_not ‹_›, by simp only [InMemory]; omega, rfl⟩)

/-- A load arm. -/
theorem cases_load {i : Instr} (n : Nat) (ext : BitVec (8 * n) → Word) (rd rs1 : RegIdx) (imm : BitVec 12)
    (hc : isCsr i = false) (he : i ≠ .ecall) (ht : i.tier = .S)
    (hd : ∀ s, dataAccess i s = some (n, effAddr rs1 imm s)) (hx : ∀ s, exec i s = loadArm n ext rd rs1 imm s)
    (s : State) : ExecCases i s := by
  have C := fun s => execFault_data (hd s) (by simp [ht]) hc he
  have key : ∀ s, execFault i s = none →
      exec i s = retire (s.writeReg rd (ext (BitVec.ofNat (8 * n)
        (leNat (s.mem.readBytes (effAddr rs1 imm s).toNat n))))) := by
    intro s h
    rcases C s with ⟨-, -, h3⟩ | ⟨-, -, h3⟩ | ⟨h1, h2, -⟩
    · rw [h] at h3; cases h3
    · rw [h] at h3; cases h3
    · rw [hx, loadArm_ok ((memRead_spec s _ n).2.2 h1 h2)]
  refine ⟨fun c info h => ?_, fun h => ?_⟩
  · rw [hx]
    rcases C s with ⟨h1, h2, h3⟩ | ⟨h1, h2, h3⟩ | ⟨-, -, h3⟩
    · rw [h] at h3; cases h3; exact loadArm_error ((memRead_spec s _ n).1 h1 h2)
    · rw [h] at h3; cases h3; exact loadArm_error ((memRead_spec s _ n).2.1 h1 h2)
    · rw [h] at h3; cases h3
  · refine ⟨_, by rw [key s h, retire, writeReg_seqPc], ?_, fun c h' => ?_⟩
    · exact ⟨by simp, by simp, by simp, .inl (by simp), fun _ => rfl, .inl (by simp)⟩
    · rw [key _ h', retire, writeReg_seqPc, writeReg_withCfg]; rfl

/-- A store arm. -/
theorem cases_store {i : Instr} (n : Nat) (rs1 rs2 : RegIdx) (imm : BitVec 12)
    (hc : isCsr i = false) (he : i ≠ .ecall) (ht : i.tier ≠ .S)
    (hd : ∀ s, dataAccess i s = some (n, effAddr rs1 imm s))
    (hx : ∀ s, exec i s = completedOnly i s (storeArm n rs1 rs2 imm s)) (s : State) : ExecCases i s := by
  have key : ∀ s, execFault i s = none → InMemory s (effAddr rs1 imm s) n ∧
      exec i s = .next { s with
        mem := s.mem.writeBytes (effAddr rs1 imm s).toNat (leBytes n ((s.readReg rs2).setWidth (8 * n)).toNat),
        pc := s.pc + 4#32 } := by
    intro s h
    have hp := completed_of_execFault h ht
    rcases execFault_data (hd s) (by simp [hp]) hc he with ⟨-, -, h3⟩ | ⟨-, -, h3⟩ | ⟨h1, h2, -⟩
    · rw [h] at h3; cases h3
    · rw [h] at h3; cases h3
    · refine ⟨h2, ?_⟩
      rw [hx, completedOnly_completed hp, storeArm_ok ((memWrite_spec s _ n _).2.2 h1 h2)]
      rfl
  refine ⟨fun c info h => ?_, fun h => ?_⟩
  · cases hp : s.cfg.profile with
    | documented =>
      simp only [execFault, hp, ht, ne_eq, not_false_eq_true, and_self, if_true] at h
      cases h; exact exec_documented hp ht
    | completed =>
      rw [hx, completedOnly_completed hp]
      rcases execFault_data (hd s) (by simp [hp]) hc he with ⟨h1, h2, h3⟩ | ⟨h1, h2, h3⟩ | ⟨-, -, h3⟩
      · rw [h] at h3; cases h3; exact storeArm_error ((memWrite_spec s _ n _).1 h1 h2)
      · rw [h] at h3; cases h3; exact storeArm_error ((memWrite_spec s _ n _).2.1 h1 h2)
      · rw [h] at h3; cases h3
  · refine ⟨_, (key s h).2, ⟨rfl, rfl, rfl, .inl rfl, fun _ => rfl, .inr ⟨_, _, rfl, ?_⟩⟩, fun c h' => (key _ h').2⟩
    rw [length_leBytes]; exact (key s h).1

/-- An arm that always raises one fault. -/
theorem cases_raise {i : Instr} (c0 : Cause) (ht : i.tier ≠ .S)
    (hx : ∀ s, exec i s = completedOnly i s (raise c0 (encode i) s))
    (hf : ∀ s, s.cfg.profile = .completed → execFault i s = some (c0, encode i)) (s : State) : ExecCases i s := by
  refine ⟨fun c info h => ?_, fun h => ?_⟩
  · cases hp : s.cfg.profile with
    | documented =>
      simp only [execFault, hp, ht, ne_eq, not_false_eq_true, and_self, if_true] at h
      cases h; exact exec_documented hp ht
    | completed =>
      rw [hf s hp] at h; cases h
      rw [hx, completedOnly_completed hp]
  · rw [hf s (completed_of_execFault h ht)] at h; cases h

theorem execFault_csr {i : Instr} (hc : isCsr i = true) {s : State} (hp : s.cfg.profile = .completed) :
    execFault i s = some (.illegal, encode i) := by simp [execFault, hp, hc]

theorem execFault_ecall {s : State} (hp : s.cfg.profile = .completed) :
    execFault .ecall s = some (.environmentCall, encode .ecall) := by simp [execFault, hp, isCsr]

/-- Everything an instruction can do: raise the fault `execFault` names, or complete within `Quiet`, in the same way under every
choice of the parameters. -/
theorem exec_cases (i : Instr) (s : State) : ExecCases i s := by
  have R : ∀ {i : Instr} (rd : RegIdx) (f : State → Word), Plain i → i.tier ≠ .S →
      (∀ s, exec i s = completedOnly i s (retire (s.writeReg rd (f s)))) → (∀ s c, f { s with cfg := c } = f s) →
      ExecCases i s := fun rd f hi ht hx hf => cases_retire hi rd f hx ht hf s
  cases i
  case lui rd imm =>
    refine cases_plain ⟨rfl, by nofun, fun _ => rfl⟩ (fun s => (s.writeReg rd (immU imm)).commit s.seqPc)
      (fun s => .inr ⟨rfl, ?_⟩) (fun s c => by rw [writeReg_withCfg]; rfl) s
      ⟨by simp, by simp, by simp, .inl (by simp), fun _ => rfl, .inl (by simp)⟩
    show retire _ = _
    rw [retire, writeReg_seqPc]
  case fence =>
    exact cases_plain ⟨rfl, by nofun, fun _ => rfl⟩ (fun s => s.commit s.seqPc) (fun _ => .inr ⟨rfl, rfl⟩)
      (fun _ _ => rfl) s ⟨rfl, rfl, rfl, .inl rfl, fun _ => rfl, .inl rfl⟩
  case fenceI =>
    exact cases_plain ⟨rfl, by nofun, fun _ => rfl⟩ (fun s => s.commit s.seqPc) (fun _ => .inr ⟨rfl, rfl⟩)
      (fun _ _ => rfl) s ⟨rfl, rfl, rfl, .inl rfl, fun _ => rfl, .inl rfl⟩
  case ebreak =>
    exact cases_plain ⟨rfl, by nofun, fun _ => rfl⟩ (fun s => (s.emit s.dump).commit s.seqPc) (fun _ => .inr ⟨rfl, rfl⟩)
      (fun _ _ => rfl) s ⟨rfl, rfl, rfl, .inr ⟨rfl, rfl⟩, fun _ => rfl, .inl rfl⟩
  case lb rd rs1 imm => exact cases_load 1 _ rd rs1 imm rfl (by nofun) rfl (fun _ => rfl) (fun _ => rfl) s
  case lh rd rs1 imm => exact cases_load 2 _ rd rs1 imm rfl (by nofun) rfl (fun _ => rfl) (fun _ => rfl) s
  case lw rd rs1 imm => exact cases_load 4 _ rd rs1 imm rfl (by nofun) rfl (fun _ => rfl) (fun _ => rfl) s
  case lbu rd rs1 imm => exact cases_load 1 _ rd rs1 imm rfl (by nofun) rfl (fun _ => rfl) (fun _ => rfl) s
  case lhu rd rs1 imm => exact cases_load 2 _ rd rs1 imm rfl (by nofun) rfl (fun _ => rfl) (fun _ => rfl) s
  case sb rs1 rs2 imm => exact cases_store 1 rs1 rs2 imm rfl (by nofun) (by simp [Instr.tier]) (fun _ => rfl) (fun _ => rfl) s
  case sh rs1 rs2 imm => exact cases_store 2 rs1 rs2 imm rfl (by nofun) (by simp [Instr.tier]) (fun _ => rfl) (fun _ => rfl) s
  case sw rs1 rs2 imm => exact cases_store 4 rs1 rs2 imm rfl (by nofun) (by simp [Instr.tier]) (fun _ => rfl) (fun _ => rfl) s
  case jal rd o =>
    exact cases_write ⟨rfl, by nofun, fun _ => rfl⟩ rd State.seqPc (jalTarget o) (fun _ => rfl) (by simp [Instr.tier])
      (fun _ _ => rfl) (fun _ _ => rfl) (fun _ => by nofun) s
  case jalr rd rs1 imm =>
    exact cases_write ⟨rfl, by nofun, fun _ => rfl⟩ rd State.seqPc (jalrTarget rs1 imm) (fun _ => rfl)
      (by simp [Instr.tier]) (fun _ _ => rfl) (fun _ _ => rfl) (fun _ => by nofun) s
  case ecall => exact cases_raise .environmentCall (by simp [Instr.tier]) (fun _ => rfl) (fun _ => execFault_ecall) s
  all_goals first
    | exact R _ _ ⟨rfl, by nofun, fun _ => rfl⟩ (by simp [Instr.tier]) (fun _ => rfl) (fun _ _ => rfl)
    | exact cases_branch ⟨rfl, by nofun, fun _ => rfl⟩ _ _ _ _ (fun _ => rfl) (by simp [Instr.tier]) rfl s
    | exact cases_raise .illegal (by simp [Instr.tier]) (fun _ => rfl) (fun _ => execFault_csr rfl) s

/-- A live step, by what is decoded at the PC: the decoder's fault, the instruction's fault, or a completed instruction. -/
theorem step_cases {s t : State} (hf : s.fault = none) (h : step s = .next t) :
    (∃ c info, decodeAt s s.pc = .error (c, info) ∧ raise c info s = .next t) ∨
    (∃ i c info, decodeAt s s.pc = .ok i ∧ execFault i s = some (c, info) ∧ raise c info s = .next t) ∨
    ∃ i, decodeAt s s.pc = .ok i ∧ execFault i s = none ∧ exec i s = .next t ∧ Quiet i s t := by
  cases hd : decodeAt s s.pc with
  | error e => rw [step_error hf hd] at h; exact .inl ⟨_, _, rfl, h⟩
  | ok i =>
    rw [step_ok hf hd] at h
    cases he : execFault i s with
    | some e =>
      obtain ⟨c, info⟩ := e
      exact .inr (.inl ⟨i, c, info, rfl, he, by rw [← (exec_cases i s).1 c info he]; exact h⟩)
    | none =>
      obtain ⟨u, h1, h2, -⟩ := (exec_cases i s).2 he
      rw [h] at h1; cases h1
      exact .inr (.inr ⟨i, rfl, he, h, h2⟩)

end Sys2Proof.Machine
end

