-- ==== Sys2Proof/Laws/PerInstr.lean ====
section
/-! SUPPORT. Statements about every instruction, one lemma per constructor. Family `TableRow`: the encoded word matches the
row of R87 that carries the instruction's mnemonic and tier. -/

namespace Sys2Proof.Laws

/-- Some row of the opcode table has the instruction's mnemonic and tier, and the instruction's word matches it (R87). -/
def TableRow.Statement (i : Instr) : Prop :=
  ∃ r ∈ opcodeTable, r.mnemonic = i.mnemonic ∧ r.tier = i.tier ∧ encode i &&& r.mask = r.pattern

theorem TableRow.lui (rd : RegIdx) (imm20 : BitVec 20) : TableRow.Statement (.lui rd imm20) :=
  ⟨⟨"LUI", 0x00000037#32, 0x0000007F#32, .S⟩, by decide, rfl, rfl, by
    rw [and_mask_opcode]; simp only [encode, opcodeOf_encodeU]; rfl⟩

theorem TableRow.auipc (rd : RegIdx) (imm20 : BitVec 20) : TableRow.Statement (.auipc rd imm20) :=
  ⟨⟨"AUIPC", 0x00000017#32, 0x0000007F#32, .U⟩, by decide, rfl, rfl, by
    rw [and_mask_opcode]; simp only [encode, opcodeOf_encodeU]; rfl⟩

theorem TableRow.jal (rd : RegIdx) (offset : BitVec 21) : TableRow.Statement (.jal rd offset) :=
  ⟨⟨"JAL", 0x0000006F#32, 0x0000007F#32, .N⟩, by decide, rfl, rfl, by
    rw [and_mask_opcode]; simp only [encode, opcodeOf_encodeJ]; rfl⟩

theorem TableRow.jalr (rd rs1 : RegIdx) (imm : BitVec 12) : TableRow.Statement (.jalr rd rs1 imm) :=
  ⟨⟨"JALR", 0x00000067#32, 0x0000707F#32, .N⟩, by decide, rfl, rfl, by
    rw [and_mask_funct3]; simp only [encode, opcodeOf_encodeI, funct3Of_encodeI]; rfl⟩

theorem TableRow.beq (rs1 rs2 : RegIdx) (offset : BitVec 13) : TableRow.Statement (.beq rs1 rs2 offset) :=
  ⟨⟨"BEQ", 0x00000063#32, 0x0000707F#32, .N⟩, by decide, rfl, rfl, by
    rw [and_mask_funct3]; simp only [encode, opcodeOf_encodeB, funct3Of_encodeB]; rfl⟩

theorem TableRow.bne (rs1 rs2 : RegIdx) (offset : BitVec 13) : TableRow.Statement (.bne rs1 rs2 offset) :=
  ⟨⟨"BNE", 0x00001063#32, 0x0000707F#32, .N⟩, by decide, rfl, rfl, by
    rw [and_mask_funct3]; simp only [encode, opcodeOf_encodeB, funct3Of_encodeB]; rfl⟩

theorem TableRow.blt (rs1 rs2 : RegIdx) (offset : BitVec 13) : TableRow.Statement (.blt rs1 rs2 offset) :=
  ⟨⟨"BLT", 0x00004063#32, 0x0000707F#32, .N⟩, by decide, rfl, rfl, by
    rw [and_mask_funct3]; simp only [encode, opcodeOf_encodeB, funct3Of_encodeB]; rfl⟩

theorem TableRow.bge (rs1 rs2 : RegIdx) (offset : BitVec 13) : TableRow.Statement (.bge rs1 rs2 offset) :=
  ⟨⟨"BGE", 0x00005063#32, 0x0000707F#32, .N⟩, by decide, rfl, rfl, by
    rw [and_mask_funct3]; simp only [encode, opcodeOf_encodeB, funct3Of_encodeB]; rfl⟩

theorem TableRow.bltu (rs1 rs2 : RegIdx) (offset : BitVec 13) : TableRow.Statement (.bltu rs1 rs2 offset) :=
  ⟨⟨"BLTU", 0x00006063#32, 0x0000707F#32, .N⟩, by decide, rfl, rfl, by
    rw [and_mask_funct3]; simp only [encode, opcodeOf_encodeB, funct3Of_encodeB]; rfl⟩

theorem TableRow.bgeu (rs1 rs2 : RegIdx) (offset : BitVec 13) : TableRow.Statement (.bgeu rs1 rs2 offset) :=
  ⟨⟨"BGEU", 0x00007063#32, 0x0000707F#32, .N⟩, by decide, rfl, rfl, by
    rw [and_mask_funct3]; simp only [encode, opcodeOf_encodeB, funct3Of_encodeB]; rfl⟩

theorem TableRow.lb (rd rs1 : RegIdx) (imm : BitVec 12) : TableRow.Statement (.lb rd rs1 imm) :=
  ⟨⟨"LB", 0x00000003#32, 0x0000707F#32, .S⟩, by decide, rfl, rfl, by
    rw [and_mask_funct3]; simp only [encode, opcodeOf_encodeI, funct3Of_encodeI]; rfl⟩

theorem TableRow.lh (rd rs1 : RegIdx) (imm : BitVec 12) : TableRow.Statement (.lh rd rs1 imm) :=
  ⟨⟨"LH", 0x00001003#32, 0x0000707F#32, .S⟩, by decide, rfl, rfl, by
    rw [and_mask_funct3]; simp only [encode, opcodeOf_encodeI, funct3Of_encodeI]; rfl⟩

theorem TableRow.lw (rd rs1 : RegIdx) (imm : BitVec 12) : TableRow.Statement (.lw rd rs1 imm) :=
  ⟨⟨"LW", 0x00002003#32, 0x0000707F#32, .S⟩, by decide, rfl, rfl, by
    rw [and_mask_funct3]; simp only [encode, opcodeOf_encodeI, funct3Of_encodeI]; rfl⟩

theorem TableRow.lbu (rd rs1 : RegIdx) (imm : BitVec 12) : TableRow.Statement (.lbu rd rs1 imm) :=
  ⟨⟨"LBU", 0x00004003#32, 0x0000707F#32, .S⟩, by decide, rfl, rfl, by
    rw [and_mask_funct3]; simp only [encode, opcodeOf_encodeI, funct3Of_encodeI]; rfl⟩

theorem TableRow.lhu (rd rs1 : RegIdx) (imm : BitVec 12) : TableRow.Statement (.lhu rd rs1 imm) :=
  ⟨⟨"LHU", 0x00005003#32, 0x0000707F#32, .S⟩, by decide, rfl, rfl, by
    rw [and_mask_funct3]; simp only [encode, opcodeOf_encodeI, funct3Of_encodeI]; rfl⟩

theorem TableRow.sb (rs1 rs2 : RegIdx) (imm : BitVec 12) : TableRow.Statement (.sb rs1 rs2 imm) :=
  ⟨⟨"SB", 0x00000023#32, 0x0000707F#32, .N⟩, by decide, rfl, rfl, by
    rw [and_mask_funct3]; simp only [encode, opcodeOf_encodeS, funct3Of_encodeS]; rfl⟩

theorem TableRow.sh (rs1 rs2 : RegIdx) (imm : BitVec 12) : TableRow.Statement (.sh rs1 rs2 imm) :=
  ⟨⟨"SH", 0x00001023#32, 0x0000707F#32, .N⟩, by decide, rfl, rfl, by
    rw [and_mask_funct3]; simp only [encode, opcodeOf_encodeS, funct3Of_encodeS]; rfl⟩

theorem TableRow.sw (rs1 rs2 : RegIdx) (imm : BitVec 12) : TableRow.Statement (.sw rs1 rs2 imm) :=
  ⟨⟨"SW", 0x00002023#32, 0x0000707F#32, .N⟩, by decide, rfl, rfl, by
    rw [and_mask_funct3]; simp only [encode, opcodeOf_encodeS, funct3Of_encodeS]; rfl⟩

theorem TableRow.addi (rd rs1 : RegIdx) (imm : BitVec 12) : TableRow.Statement (.addi rd rs1 imm) :=
  ⟨⟨"ADDI", 0x00000013#32, 0x0000707F#32, .N⟩, by decide, rfl, rfl, by
    rw [and_mask_funct3]; simp only [encode, opcodeOf_encodeI, funct3Of_encodeI]; rfl⟩

theorem TableRow.slti (rd rs1 : RegIdx) (imm : BitVec 12) : TableRow.Statement (.slti rd rs1 imm) :=
  ⟨⟨"SLTI", 0x00002013#32, 0x0000707F#32, .N⟩, by decide, rfl, rfl, by
    rw [and_mask_funct3]; simp only [encode, opcodeOf_encodeI, funct3Of_encodeI]; rfl⟩

theorem TableRow.sltiu (rd rs1 : RegIdx) (imm : BitVec 12) : TableRow.Statement (.sltiu rd rs1 imm) :=
  ⟨⟨"SLTIU", 0x00003013#32, 0x0000707F#32, .N⟩, by decide, rfl, rfl, by
    rw [and_mask_funct3]; simp only [encode, opcodeOf_encodeI, funct3Of_encodeI]; rfl⟩

theorem TableRow.xori (rd rs1 : RegIdx) (imm : BitVec 12) : TableRow.Statement (.xori rd rs1 imm) :=
  ⟨⟨"XORI", 0x00004013#32, 0x0000707F#32, .N⟩, by decide, rfl, rfl, by
    rw [and_mask_funct3]; simp only [encode, opcodeOf_encodeI, funct3Of_encodeI]; rfl⟩

theorem TableRow.ori (rd rs1 : RegIdx) (imm : BitVec 12) : TableRow.Statement (.ori rd rs1 imm) :=
  ⟨⟨"ORI", 0x00006013#32, 0x0000707F#32, .N⟩, by decide, rfl, rfl, by
    rw [and_mask_funct3]; simp only [encode, opcodeOf_encodeI, funct3Of_encodeI]; rfl⟩

theorem TableRow.andi (rd rs1 : RegIdx) (imm : BitVec 12) : TableRow.Statement (.andi rd rs1 imm) :=
  ⟨⟨"ANDI", 0x00007013#32, 0x0000707F#32, .N⟩, by decide, rfl, rfl, by
    rw [and_mask_funct3]; simp only [encode, opcodeOf_encodeI, funct3Of_encodeI]; rfl⟩

theorem TableRow.slli (rd rs1 : RegIdx) (shamt : BitVec 5) : TableRow.Statement (.slli rd rs1 shamt) :=
  ⟨⟨"SLLI", 0x00001013#32, 0xFE00707F#32, .N⟩, by decide, rfl, rfl, by
    rw [and_mask_funct7]; simp only [encode, opcodeOf_encodeR, funct3Of_encodeR, funct7Of_encodeR]; rfl⟩

theorem TableRow.srli (rd rs1 : RegIdx) (shamt : BitVec 5) : TableRow.Statement (.srli rd rs1 shamt) :=
  ⟨⟨"SRLI", 0x00005013#32, 0xFE00707F#32, .N⟩, by decide, rfl, rfl, by
    rw [and_mask_funct7]; simp only [encode, opcodeOf_encodeR, funct3Of_encodeR, funct7Of_encodeR]; rfl⟩

theorem TableRow.srai (rd rs1 : RegIdx) (shamt : BitVec 5) : TableRow.Statement (.srai rd rs1 shamt) :=
  ⟨⟨"SRAI", 0x40005013#32, 0xFE00707F#32, .N⟩, by decide, rfl, rfl, by
    rw [and_mask_funct7]; simp only [encode, opcodeOf_encodeR, funct3Of_encodeR, funct7Of_encodeR]; rfl⟩

theorem TableRow.add (rd rs1 rs2 : RegIdx) : TableRow.Statement (.add rd rs1 rs2) :=
  ⟨⟨"ADD", 0x00000033#32, 0xFE00707F#32, .N⟩, by decide, rfl, rfl, by
    rw [and_mask_funct7]; simp only [encode, opcodeOf_encodeR, funct3Of_encodeR, funct7Of_encodeR]; rfl⟩

theorem TableRow.sub (rd rs1 rs2 : RegIdx) : TableRow.Statement (.sub rd rs1 rs2) :=
  ⟨⟨"SUB", 0x40000033#32, 0xFE00707F#32, .N⟩, by decide, rfl, rfl, by
    rw [and_mask_funct7]; simp only [encode, opcodeOf_encodeR, funct3Of_encodeR, funct7Of_encodeR]; rfl⟩

theorem TableRow.sll (rd rs1 rs2 : RegIdx) : TableRow.Statement (.sll rd rs1 rs2) :=
  ⟨⟨"SLL", 0x00001033#32, 0xFE00707F#32, .N⟩, by decide, rfl, rfl, by
    rw [and_mask_funct7]; simp only [encode, opcodeOf_encodeR, funct3Of_encodeR, funct7Of_encodeR]; rfl⟩

theorem TableRow.slt (rd rs1 rs2 : RegIdx) : TableRow.Statement (.slt rd rs1 rs2) :=
  ⟨⟨"SLT", 0x00002033#32, 0xFE00707F#32, .N⟩, by decide, rfl, rfl, by
    rw [and_mask_funct7]; simp only [encode, opcodeOf_encodeR, funct3Of_encodeR, funct7Of_encodeR]; rfl⟩

theorem TableRow.sltu (rd rs1 rs2 : RegIdx) : TableRow.Statement (.sltu rd rs1 rs2) :=
  ⟨⟨"SLTU", 0x00003033#32, 0xFE00707F#32, .N⟩, by decide, rfl, rfl, by
    rw [and_mask_funct7]; simp only [encode, opcodeOf_encodeR, funct3Of_encodeR, funct7Of_encodeR]; rfl⟩

theorem TableRow.xor (rd rs1 rs2 : RegIdx) : TableRow.Statement (.xor rd rs1 rs2) :=
  ⟨⟨"XOR", 0x00004033#32, 0xFE00707F#32, .N⟩, by decide, rfl, rfl, by
    rw [and_mask_funct7]; simp only [encode, opcodeOf_encodeR, funct3Of_encodeR, funct7Of_encodeR]; rfl⟩

theorem TableRow.srl (rd rs1 rs2 : RegIdx) : TableRow.Statement (.srl rd rs1 rs2) :=
  ⟨⟨"SRL", 0x00005033#32, 0xFE00707F#32, .N⟩, by decide, rfl, rfl, by
    rw [and_mask_funct7]; simp only [encode, opcodeOf_encodeR, funct3Of_encodeR, funct7Of_encodeR]; rfl⟩

theorem TableRow.sra (rd rs1 rs2 : RegIdx) : TableRow.Statement (.sra rd rs1 rs2) :=
  ⟨⟨"SRA", 0x40005033#32, 0xFE00707F#32, .N⟩, by decide, rfl, rfl, by
    rw [and_mask_funct7]; simp only [encode, opcodeOf_encodeR, funct3Of_encodeR, funct7Of_encodeR]; rfl⟩

theorem TableRow.or (rd rs1 rs2 : RegIdx) : TableRow.Statement (.or rd rs1 rs2) :=
  ⟨⟨"OR", 0x00006033#32, 0xFE00707F#32, .N⟩, by decide, rfl, rfl, by
    rw [and_mask_funct7]; simp only [encode, opcodeOf_encodeR, funct3Of_encodeR, funct7Of_encodeR]; rfl⟩

theorem TableRow.and (rd rs1 rs2 : RegIdx) : TableRow.Statement (.and rd rs1 rs2) :=
  ⟨⟨"AND", 0x00007033#32, 0xFE00707F#32, .N⟩, by decide, rfl, rfl, by
    rw [and_mask_funct7]; simp only [encode, opcodeOf_encodeR, funct3Of_encodeR, funct7Of_encodeR]; rfl⟩

theorem TableRow.fence (fm pred succ : BitVec 4) (rs1 rd : RegIdx) : TableRow.Statement (.fence fm pred succ rs1 rd) :=
  ⟨⟨"FENCE", 0x0000000F#32, 0x0000707F#32, .S⟩, by decide, rfl, rfl, by
    rw [and_mask_funct3]; simp only [encode, opcodeOf_encodeFence, funct3Of_encodeFence]; rfl⟩

theorem TableRow.fenceI (imm : BitVec 12) (rs1 rd : RegIdx) : TableRow.Statement (.fenceI imm rs1 rd) :=
  ⟨⟨"FENCE.I", 0x0000100F#32, 0x0000707F#32, .S⟩, by decide, rfl, rfl, by
    rw [and_mask_funct3]; simp only [encode, opcodeOf_encodeI, funct3Of_encodeI]; rfl⟩

theorem TableRow.ecall : TableRow.Statement (.ecall) :=
  ⟨⟨"ECALL", 0x00000073#32, 0xFFFFFFFF#32, .N⟩, by decide, rfl, rfl, by decide⟩

theorem TableRow.ebreak : TableRow.Statement (.ebreak) :=
  ⟨⟨"EBREAK", 0x00100073#32, 0xFFFFFFFF#32, .S⟩, by decide, rfl, rfl, by decide⟩

theorem TableRow.csrrw (rd : RegIdx) (csr : BitVec 12) (rs1 : RegIdx) : TableRow.Statement (.csrrw rd csr rs1) :=
  ⟨⟨"CSRRW", 0x00001073#32, 0x0000707F#32, .N⟩, by decide, rfl, rfl, by
    rw [and_mask_funct3]; simp only [encode, opcodeOf_encodeI, funct3Of_encodeI]; rfl⟩

theorem TableRow.csrrs (rd : RegIdx) (csr : BitVec 12) (rs1 : RegIdx) : TableRow.Statement (.csrrs rd csr rs1) :=
  ⟨⟨"CSRRS", 0x00002073#32, 0x0000707F#32, .N⟩, by decide, rfl, rfl, by
    rw [and_mask_funct3]; simp only [encode, opcodeOf_encodeI, funct3Of_encodeI]; rfl⟩

theorem TableRow.csrrc (rd : RegIdx) (csr : BitVec 12) (rs1 : RegIdx) : TableRow.Statement (.csrrc rd csr rs1) :=
  ⟨⟨"CSRRC", 0x00003073#32, 0x0000707F#32, .N⟩, by decide, rfl, rfl, by
    rw [and_mask_funct3]; simp only [encode, opcodeOf_encodeI, funct3Of_encodeI]; rfl⟩

theorem TableRow.csrrwi (rd : RegIdx) (csr : BitVec 12) (uimm : BitVec 5) : TableRow.Statement (.csrrwi rd csr uimm) :=
  ⟨⟨"CSRRWI", 0x00005073#32, 0x0000707F#32, .N⟩, by decide, rfl, rfl, by
    rw [and_mask_funct3]; simp only [encode, opcodeOf_encodeI, funct3Of_encodeI]; rfl⟩

theorem TableRow.csrrsi (rd : RegIdx) (csr : BitVec 12) (uimm : BitVec 5) : TableRow.Statement (.csrrsi rd csr uimm) :=
  ⟨⟨"CSRRSI", 0x00006073#32, 0x0000707F#32, .N⟩, by decide, rfl, rfl, by
    rw [and_mask_funct3]; simp only [encode, opcodeOf_encodeI, funct3Of_encodeI]; rfl⟩

theorem TableRow.csrrci (rd : RegIdx) (csr : BitVec 12) (uimm : BitVec 5) : TableRow.Statement (.csrrci rd csr uimm) :=
  ⟨⟨"CSRRCI", 0x00007073#32, 0x0000707F#32, .N⟩, by decide, rfl, rfl, by
    rw [and_mask_funct3]; simp only [encode, opcodeOf_encodeI, funct3Of_encodeI]; rfl⟩

end Sys2Proof.Laws
end

