-- ==== Sys2Proof/Tests/Slice0.lean ====
section
/-! SUPPORT. The model's own tests, each on one word or one step, with the expected results taken from the spec (the rules'
examples and spec/95_test_vectors.md); and, for every obligation with hypotheses, a state and operands that meet them all. -/

namespace Sys2Proof.Machine.Test

/-! ### Well-formedness: an odd offset has no encoding (R71, R72) -/

theorem test_wf_refuses_odd_branch_offset : (Instr.beq 1#5 2#5 7#13).wf = false := by decide
theorem test_wf_refuses_odd_bne_offset : (Instr.bne 1#5 2#5 7#13).wf = false := by decide
theorem test_wf_refuses_odd_blt_offset : (Instr.blt 1#5 2#5 7#13).wf = false := by decide
theorem test_wf_refuses_odd_bge_offset : (Instr.bge 1#5 2#5 7#13).wf = false := by decide
theorem test_wf_refuses_odd_bltu_offset : (Instr.bltu 1#5 2#5 7#13).wf = false := by decide
theorem test_wf_refuses_odd_bgeu_offset : (Instr.bgeu 1#5 2#5 7#13).wf = false := by decide
theorem test_wf_refuses_odd_jump_offset : (Instr.jal 1#5 0x1FFFFF#21).wf = false := by decide
theorem test_wf_accepts_even_offsets :
    (Instr.beq 1#5 2#5 0x1000#13).wf = true ∧ (Instr.jal 0#5 0x0FFFFE#21).wf = true := by decide

/-! ### Decoding: a word for every constructor, written out in the rules' examples -/

/-- R120. -/
theorem test_decode_lui : decodeTableWord 32 0x0BEEF137 = some (.lui 2#5 0x0BEEF#20) := by decide

/-- R121. -/
theorem test_decode_auipc : decodeTableWord 32 0x00001297 = some (.auipc 5#5 1#20) := by decide

/-- R172. -/
theorem test_decode_jal : decodeTableWord 32 0x010000EF = some (.jal 1#5 16#21) := by decide

/-- R173. -/
theorem test_decode_jalr : decodeTableWord 32 0xFFC280E7 = some (.jalr 1#5 5#5 0xFFC#12) := by decide

/-- R175: offset -4096. -/
theorem test_decode_beq : decodeTableWord 32 0x80000063 = some (.beq 0#5 0#5 0x1000#13) := by decide

/-- R176: offset -8. -/
theorem test_decode_bne : decodeTableWord 32 0xFE009CE3 = some (.bne 1#5 0#5 0x1FF8#13) := by decide

/-- R177. -/
theorem test_decode_blt : decodeTableWord 32 0x0020C463 = some (.blt 1#5 2#5 8#13) := by decide

/-- R178. -/
theorem test_decode_bge : decodeTableWord 32 0x0020D463 = some (.bge 1#5 2#5 8#13) := by decide

/-- R179. -/
theorem test_decode_bltu : decodeTableWord 32 0x0020E463 = some (.bltu 1#5 2#5 8#13) := by decide

/-- R180. -/
theorem test_decode_bgeu : decodeTableWord 32 0x0020F463 = some (.bgeu 1#5 2#5 8#13) := by decide

/-- R126. -/
theorem test_decode_lb : decodeTableWord 32 0xFFF30283 = some (.lb 5#5 6#5 0xFFF#12) := by decide

/-- R127. -/
theorem test_decode_lh : decodeTableWord 32 0x02201383 = some (.lh 7#5 0#5 0x022#12) := by decide

/-- R128. -/
theorem test_decode_lw : decodeTableWord 32 0x00412403 = some (.lw 8#5 2#5 4#12) := by decide

/-- R129. -/
theorem test_decode_lbu : decodeTableWord 32 0xFFF34283 = some (.lbu 5#5 6#5 0xFFF#12) := by decide

/-- R130. -/
theorem test_decode_lhu : decodeTableWord 32 0x02205383 = some (.lhu 7#5 0#5 0x022#12) := by decide

/-- R186: base x2, data x5. -/
theorem test_decode_sb : decodeTableWord 32 0x00510423 = some (.sb 2#5 5#5 8#12) := by decide

/-- R187. -/
theorem test_decode_sh : decodeTableWord 32 0xFE511F23 = some (.sh 2#5 5#5 0xFFE#12) := by decide

/-- R188. -/
theorem test_decode_sw : decodeTableWord 32 0x00512423 = some (.sw 2#5 5#5 8#12) := by decide

/-- R141. -/
theorem test_decode_addi : decodeTableWord 32 0xFFF00093 = some (.addi 1#5 0#5 0xFFF#12) := by decide

/-- R142. -/
theorem test_decode_slti : decodeTableWord 32 0xFFF0A193 = some (.slti 3#5 1#5 0xFFF#12) := by decide

/-- R143. -/
theorem test_decode_sltiu : decodeTableWord 32 0xFFF0B193 = some (.sltiu 3#5 1#5 0xFFF#12) := by decide

/-- R144. -/
theorem test_decode_xori : decodeTableWord 32 0xFFF0C193 = some (.xori 3#5 1#5 0xFFF#12) := by decide

/-- R145. -/
theorem test_decode_ori : decodeTableWord 32 0x0F00E193 = some (.ori 3#5 1#5 0x0F0#12) := by decide

/-- R146. -/
theorem test_decode_andi : decodeTableWord 32 0xFF00F193 = some (.andi 3#5 1#5 0xFF0#12) := by decide

/-- R147. -/
theorem test_decode_slli : decodeTableWord 32 0x00409193 = some (.slli 3#5 1#5 4#5) := by decide

/-- R148. -/
theorem test_decode_srli : decodeTableWord 32 0x0040D193 = some (.srli 3#5 1#5 4#5) := by decide

/-- R149. -/
theorem test_decode_srai : decodeTableWord 32 0x4040D193 = some (.srai 3#5 1#5 4#5) := by decide

/-- R156. -/
theorem test_decode_add : decodeTableWord 32 0x002081B3 = some (.add 3#5 1#5 2#5) := by decide

/-- R157. -/
theorem test_decode_sub : decodeTableWord 32 0x402081B3 = some (.sub 3#5 1#5 2#5) := by decide

/-- R158. -/
theorem test_decode_sll : decodeTableWord 32 0x002091B3 = some (.sll 3#5 1#5 2#5) := by decide

/-- R159. -/
theorem test_decode_slt : decodeTableWord 32 0x0020A1B3 = some (.slt 3#5 1#5 2#5) := by decide

/-- R160. -/
theorem test_decode_sltu : decodeTableWord 32 0x0020B1B3 = some (.sltu 3#5 1#5 2#5) := by decide

/-- R161. -/
theorem test_decode_xor : decodeTableWord 32 0x0020C1B3 = some (.xor 3#5 1#5 2#5) := by decide

/-- R162. -/
theorem test_decode_srl : decodeTableWord 32 0x0020D1B3 = some (.srl 3#5 1#5 2#5) := by decide

/-- R163. -/
theorem test_decode_sra : decodeTableWord 32 0x4020D1B3 = some (.sra 3#5 1#5 2#5) := by decide

/-- R164. -/
theorem test_decode_or : decodeTableWord 32 0x0020E1B3 = some (.or 3#5 1#5 2#5) := by decide

/-- R165. -/
theorem test_decode_and : decodeTableWord 32 0x0020F1B3 = some (.and 3#5 1#5 2#5) := by decide

/-- V-FE-3. -/
theorem test_decode_fence : decodeTableWord 32 0x8330000F = some (.fence 8#4 3#4 3#4 0#5 0#5) := by decide

/-- V-FE-6. -/
theorem test_decode_fenceI : decodeTableWord 32 0xFFFF9F8F = some (.fenceI 0xFFF#12 31#5 31#5) := by decide

/-- R197. -/
theorem test_decode_ecall : decodeTableWord 32 0x00000073 = some .ecall := by decide

/-- R138. -/
theorem test_decode_ebreak : decodeTableWord 32 0x00100073 = some .ebreak := by decide

/-- R191. -/
theorem test_decode_csrrw : decodeTableWord 32 0x30009073 = some (.csrrw 0#5 0x300#12 1#5) := by decide

/-- R192. -/
theorem test_decode_csrrs : decodeTableWord 32 0xC00022F3 = some (.csrrs 5#5 0xC00#12 0#5) := by decide

/-- R193. -/
theorem test_decode_csrrc : decodeTableWord 32 0x3000B2F3 = some (.csrrc 5#5 0x300#12 1#5) := by decide

/-- R194. -/
theorem test_decode_csrrwi : decodeTableWord 32 0x3002D073 = some (.csrrwi 0#5 0x300#12 5#5) := by decide

/-- R195. -/
theorem test_decode_csrrsi : decodeTableWord 32 0x3000E2F3 = some (.csrrsi 5#5 0x300#12 1#5) := by decide

/-- R196. -/
theorem test_decode_csrrci : decodeTableWord 32 0x3000F2F3 = some (.csrrci 5#5 0x300#12 1#5) := by decide

/-- V-FETCH-7 to 9, V-FE-7, V-FE-10, V-FE-11: words that match no row. -/
theorem test_decode_refuses :
    [0x00000000#32, 0xFFFFFFFF#32, 0x00000001#32, 0x0000200F#32, 0x00200073#32, 0x001000F3#32].all
      (fun w => (decodeWord w).isNone) = true := by decide

/-- V-OP-31 to 34, V-CT-12, V-CT-34. -/
theorem test_decode_refuses_functions :
    [0x022081B3#32, 0x0220C1B3#32, 0x4020C1B3#32, 0x802081B3#32, 0x00009067#32, 0x0020A463#32].all
      (fun w => (decodeWord w).isNone) = true := by decide

/-- V-SYS-11 to 14, V-ST-18. -/
theorem test_decode_refuses_system :
    [0x30200073#32, 0x10500073#32, 0x00004073#32, 0x00000873#32, 0x00513423#32].all
      (fun w => (decodeWord w).isNone) = true := by decide

/-- V-ILL-1 to 9. -/
theorem test_decode_refuses_opcodes :
    [0x0000007F#32, 0x00002007#32, 0x1000202F#32, 0x0000000B#32, 0x0000001B#32, 0x00003003#32, 0x00006003#32,
      0x00007003#32, 0x00004501#32].all (fun w => (decodeWord w).isNone) = true := by decide

/-- A string of fewer than four bytes is no instruction (R65). -/
theorem test_decode_truncated : decodeBytes [0x13#8, 0#8, 0#8] = .error .truncated := by decide

/-- E3: `skip_bits(2).add_bits(0b11101111,3,5).zext() = 0b10100`, and `sext()` extends from the total width 5. -/
theorem test_field_builder :
    ((FieldBuilder.start.skipBits 2).addBits 0b11101111#32 3 5).zext = 0b10100#32 ∧
    ((FieldBuilder.start.skipBits 2).addBits 0b11101111#32 3 5).sext = 0xFFFFFFF4#32 := by decide

/-! ### One step on a small state: `MEM_SIZE = 64`, checked, completed, halt (the conventions of 95_test_vectors.md) -/

def smallCfg : Config := { memSize := 64, dataAlign := .checked, profile := .completed, trapMode := .halt }

/-- A state with the given PC, registers and memory, everything else as at reset. -/
def board (pc : Word) (regs : List (RegIdx × Word)) (cells : List Host.Cell) : State :=
  regs.foldl (fun s r => s.writeReg r.1 r.2) { State.reset with cfg := smallCfg, pc := pc, mem := cells }

/-- The state after one step with a word placed at the PC. -/
def after (s : State) (w : Nat) : State :=
  match step (s.withFetchWord 32 w) with
  | .next t => t
  | .fault _ | .refused _ => s

/-- One register and the PC after one step with a word placed at the PC. -/
def regPc (s : State) (w : Nat) (r : RegIdx) : Word × Word := ((after s w).readReg r, (after s w).pc)

/-- The latch and the PC after one step. -/
def faultPc (s : State) (w : Nat) : Option FaultRecord × Word := ((after s w).fault, (after s w).pc)

/-- V-UI-1. -/
theorem test_lui : regPc (board 0#32 [] []) 0x0BEEF137 2#5 = (0x0BEEF000#32, 4#32) := by decide

/-- V-UI-5. -/
theorem test_lui_x0 : regPc (board 8#32 [] []) 0x12345037 0#5 = (0#32, 0x0C#32) := by decide

/-- V-UI-7. -/
theorem test_auipc_wraps : regPc (board 0x10#32 [] []) 0xFFFFF297 5#5 = (0xFFFFF010#32, 0x14#32) := by decide

/-- V-CT-1. -/
theorem test_jal_links : regPc (board 8#32 [] []) 0x010000EF 1#5 = (0x0C#32, 0x18#32) := by decide

/-- V-CT-4. -/
theorem test_jal_wraps : regPc (board 0#32 [] []) 0xFF9FF0EF 1#5 = (4#32, 0xFFFFFFF8#32) := by decide

/-- V-CT-8. -/
theorem test_jalr_old_base : regPc (board 8#32 [(1#5, 0x10#32)] []) 0x008080E7 1#5 = (0x0C#32, 0x18#32) := by decide

/-- V-CT-9. -/
theorem test_jalr_clears_bit0 : regPc (board 8#32 [(5#5, 0x20#32)] []) 0x003280E7 1#5 = (0x0C#32, 0x22#32) := by decide

/-- V-CT-13. -/
theorem test_beq_taken : regPc (board 0x10#32 [(1#5, 7#32), (2#5, 7#32)] []) 0x00208463 1#5 = (7#32, 0x18#32) := by decide

/-- V-CT-14. -/
theorem test_beq_not_taken : regPc (board 0x10#32 [(1#5, 7#32), (2#5, 8#32)] []) 0x00208463 1#5 = (7#32, 0x14#32) := by decide

/-- V-CT-17. -/
theorem test_bne_backward : regPc (board 0x10#32 [(1#5, 1#32)] []) 0xFE009CE3 1#5 = (1#32, 8#32) := by decide

/-- V-CT-16. -/
theorem test_bne_equal : regPc (board 0x10#32 [(1#5, 7#32), (2#5, 7#32)] []) 0x00209463 1#5 = (7#32, 0x14#32) := by decide

/-- V-CT-18. -/
theorem test_blt_signed : regPc (board 0x10#32 [(1#5, 0xFFFFFFFF#32), (2#5, 1#32)] []) 0x0020C463 2#5 = (1#32, 0x18#32) := by decide

/-- V-CT-20. -/
theorem test_blt_equal : regPc (board 0x10#32 [(1#5, 5#32), (2#5, 5#32)] []) 0x0020C463 2#5 = (5#32, 0x14#32) := by decide

/-- V-CT-21. -/
theorem test_bge_signed : regPc (board 0x10#32 [(1#5, 0xFFFFFFFF#32), (2#5, 1#32)] []) 0x0020D463 2#5 = (1#32, 0x14#32) := by decide

/-- V-CT-22. -/
theorem test_bge_equal : regPc (board 0x10#32 [(1#5, 5#32), (2#5, 5#32)] []) 0x0020D463 2#5 = (5#32, 0x18#32) := by decide

/-- V-CT-24. -/
theorem test_bltu_unsigned : regPc (board 0x10#32 [(1#5, 0xFFFFFFFF#32), (2#5, 1#32)] []) 0x0020E463 2#5 = (1#32, 0x14#32) := by decide

/-- V-CT-25. -/
theorem test_bltu_taken : regPc (board 0x10#32 [(1#5, 1#32), (2#5, 0xFFFFFFFF#32)] []) 0x0020E463 1#5 = (1#32, 0x18#32) := by decide

/-- V-CT-27. -/
theorem test_bgeu_unsigned : regPc (board 0x10#32 [(1#5, 0xFFFFFFFF#32), (2#5, 1#32)] []) 0x0020F463 2#5 = (1#32, 0x18#32) := by decide

/-- V-CT-28. -/
theorem test_bgeu_not_taken : regPc (board 0x10#32 [(1#5, 0#32), (2#5, 1#32)] []) 0x0020F463 2#5 = (1#32, 0x14#32) := by decide

/-- V-LD-4. -/
theorem test_lb_sign : regPc (board 0#32 [(6#5, 0x23#32)] [(32, 0x34#8), (33, 0x82#8), (34, 0xFF#8), (35, 0x7F#8), (36, 0xEF#8), (37, 0xBE#8), (38, 0xAD#8), (39, 0xDE#8)]) 0xFFF30283 5#5 = (0xFFFFFFFF#32, 4#32) := by decide

/-- V-LD-2. -/
theorem test_lbu_zero : regPc (board 0#32 [] [(32, 0x34#8), (33, 0x82#8), (34, 0xFF#8), (35, 0x7F#8), (36, 0xEF#8), (37, 0xBE#8), (38, 0xAD#8), (39, 0xDE#8)]) 0x02104283 5#5 = (0x82#32, 4#32) := by decide

/-- V-LD-6. -/
theorem test_lh_sign : regPc (board 0#32 [] [(32, 0x34#8), (33, 0x82#8), (34, 0xFF#8), (35, 0x7F#8), (36, 0xEF#8), (37, 0xBE#8), (38, 0xAD#8), (39, 0xDE#8)]) 0x02001383 7#5 = (0xFFFF8234#32, 4#32) := by decide

/-- V-LD-7. -/
theorem test_lhu_zero : regPc (board 0#32 [] [(32, 0x34#8), (33, 0x82#8), (34, 0xFF#8), (35, 0x7F#8), (36, 0xEF#8), (37, 0xBE#8), (38, 0xAD#8), (39, 0xDE#8)]) 0x02005383 7#5 = (0x8234#32, 4#32) := by decide

/-- V-LD-11. -/
theorem test_lw_old_base : regPc (board 0#32 [(1#5, 0x24#32)] [(32, 0x34#8), (33, 0x82#8), (34, 0xFF#8), (35, 0x7F#8), (36, 0xEF#8), (37, 0xBE#8), (38, 0xAD#8), (39, 0xDE#8)]) 0x0000A083 1#5 = (0xDEADBEEF#32, 4#32) := by decide

/-- V-LD-17. -/
theorem test_lb_unmapped : faultPc (board 0#32 [] []) 0xFFF00283 = (some ⟨.unmapped, 0#32, 0xFFFFFFFF#32⟩, 0#32) := by decide

/-- V-LD-19. -/
theorem test_lh_unaligned : faultPc (board 0#32 [] []) 0x02101383 = (some ⟨.unaligned, 0#32, 0x21#32⟩, 0#32) := by decide

/-- V-LD-24. -/
theorem test_lw_unaligned_wins : faultPc (board 0#32 [] []) 0x03E02403 = (some ⟨.unaligned, 0#32, 0x3E#32⟩, 0#32) := by decide

/-- The bytes at the given addresses after one step with a word placed at the PC. -/
def bytesAfter (s : State) (w : Nat) (as : List Nat) : List Byte := as.map (after s w).mem.read

/-- V-ST-1. -/
theorem test_sb_low_byte : bytesAfter (board 8#32 [(2#5, 0x20#32), (5#5, 0x123456AB#32)] [(0x28, 0xFF#8), (0x29, 0xFF#8)]) 0x00510423
    [0x27, 0x28, 0x29] = [0#8, 0xAB#8, 0xFF#8] := by decide

/-- V-ST-2. -/
theorem test_sh_negative_offset : bytesAfter (board 8#32 [(2#5, 0x20#32), (5#5, 0x1234BEEF#32)] []) 0xFE511F23
    [0x1D, 0x1E, 0x1F, 0x20] = [0#8, 0xEF#8, 0xBE#8, 0#8] := by decide

/-- V-ST-10. -/
theorem test_sw_wraps : bytesAfter (board 8#32 [(2#5, 0xFFFFFFFC#32), (5#5, 0x11223344#32)] []) 0x00512423
    [3, 4, 5, 6, 7] = [0#8, 0x44#8, 0x33#8, 0x22#8, 0x11#8] := by decide

/-- V-ST-4. -/
theorem test_sw_zero_over_ff : bytesAfter (board 8#32 [(2#5, 0x20#32)] [(0x28, 0xFF#8), (0x2B, 0xFF#8)]) 0x00012423
    [0x28, 0x2B] = [0#8, 0#8] := by decide

/-- V-ST-11. -/
theorem test_sh_unaligned : faultPc (board 8#32 [(5#5, 0xBEEF#32)] []) 0x025010A3 = (some ⟨.unaligned, 8#32, 0x21#32⟩, 8#32) := by decide

/-- V-OPI-2. -/
theorem test_addi_overflow : regPc (board 8#32 [(1#5, 0x7FFFFFFF#32)] []) 0x00108093 1#5 = (0x80000000#32, 0x0C#32) := by decide

/-- V-OPI-12. -/
theorem test_slti_signed : regPc (board 8#32 [(1#5, 0x80000000#32)] []) 0x0010A193 3#5 = (1#32, 0x0C#32) := by decide

/-- V-OPI-11. -/
theorem test_slti_equal : regPc (board 8#32 [(1#5, 0xFFFFFFFF#32), (3#5, 9#32)] []) 0xFFF0A193 3#5 = (0#32, 0x0C#32) := by decide

/-- V-OPI-19. -/
theorem test_sltiu_sign_extends : regPc (board 8#32 [(1#5, 0xFFFFF7FF#32)] []) 0x8000B193 3#5 = (1#32, 0x0C#32) := by decide

/-- V-OPI-20. -/
theorem test_xori_not : regPc (board 8#32 [(1#5, 0x0F0F0F0F#32)] []) 0xFFF0C193 3#5 = (0xF0F0F0F0#32, 0x0C#32) := by decide

/-- V-OPI-23. -/
theorem test_ori_sign_extends : regPc (board 8#32 [(1#5, 1#32)] []) 0x8000E193 3#5 = (0xFFFFF801#32, 0x0C#32) := by decide

/-- V-OPI-24. -/
theorem test_andi : regPc (board 8#32 [(1#5, 0x12345678#32)] []) 0xFF00F193 3#5 = (0x12345670#32, 0x0C#32) := by decide

/-- V-OPI-27. -/
theorem test_slli : regPc (board 8#32 [(1#5, 0x80000001#32)] []) 0x00409193 3#5 = (0x10#32, 0x0C#32) := by decide

/-- R148 example. -/
theorem test_srli : regPc (board 8#32 [(1#5, 0x80000010#32)] []) 0x0040D193 3#5 = (0x08000001#32, 0x0C#32) := by decide

/-- R149 example. -/
theorem test_srai : regPc (board 8#32 [(1#5, 0x80000010#32)] []) 0x4040D193 3#5 = (0xF8000001#32, 0x0C#32) := by decide

/-- V-OP-3. -/
theorem test_add_same_register : regPc (board 8#32 [(1#5, 0x40000001#32)] []) 0x001080B3 1#5 = (0x80000002#32, 0x0C#32) := by decide

/-- V-OP-2. -/
theorem test_add_wraps : regPc (board 8#32 [(1#5, 0xFFFFFFFF#32), (2#5, 1#32), (3#5, 9#32)] []) 0x002081B3 3#5 = (0#32, 0x0C#32) := by decide

/-- V-OP-5. -/
theorem test_sub_borrow : regPc (board 8#32 [(1#5, 0#32), (2#5, 1#32)] []) 0x402081B3 3#5 = (0xFFFFFFFF#32, 0x0C#32) := by decide

/-- V-OP-10. -/
theorem test_sll_amount_mod32 : regPc (board 8#32 [(1#5, 1#32), (2#5, 0x21#32)] []) 0x002091B3 3#5 = (2#32, 0x0C#32) := by decide

/-- V-OP-15. -/
theorem test_slt_extremes : regPc (board 8#32 [(1#5, 0x80000000#32), (2#5, 0x7FFFFFFF#32)] []) 0x0020A1B3 3#5 = (1#32, 0x0C#32) := by decide

/-- V-OP-17. -/
theorem test_sltu_extremes : regPc (board 8#32 [(1#5, 0xFFFFFFFF#32), (2#5, 1#32), (3#5, 9#32)] []) 0x0020B1B3 3#5 = (0#32, 0x0C#32) := by decide

/-- V-OP-21. -/
theorem test_xor : regPc (board 8#32 [(1#5, 0xFF00FF00#32), (2#5, 0x0FF00FF0#32)] []) 0x0020C1B3 3#5 = (0xF0F0F0F0#32, 0x0C#32) := by decide

/-- V-OP-24. -/
theorem test_srl_amount_mod32 : regPc (board 8#32 [(1#5, 0x80000000#32), (2#5, 0x24#32)] []) 0x0020D1B3 3#5 = (0x08000000#32, 0x0C#32) := by decide

/-- V-OP-26. -/
theorem test_sra_amount_mod32 : regPc (board 8#32 [(1#5, 0x80000000#32), (2#5, 0x24#32)] []) 0x4020D1B3 3#5 = (0xF8000000#32, 0x0C#32) := by decide

/-- V-OP-28. -/
theorem test_or : regPc (board 8#32 [(1#5, 0xF0F00000#32), (2#5, 0x0000F0F0#32)] []) 0x0020E1B3 3#5 = (0xF0F0F0F0#32, 0x0C#32) := by decide

/-- V-OP-29. -/
theorem test_and : regPc (board 8#32 [(1#5, 0xFFFF0000#32), (2#5, 0x0FF00FF0#32)] []) 0x0020F1B3 3#5 = (0x0FF00000#32, 0x0C#32) := by decide

/-- V-FE-4: `rd = 31` is ignored. -/
theorem test_fence_ones : regPc (board 8#32 [(31#5, 5#32)] []) 0xFFFF8F8F 31#5 = (5#32, 0x0C#32) := by decide

/-- V-FE-6. -/
theorem test_fenceI_ones : regPc (board 8#32 [(31#5, 5#32)] []) 0xFFFF9F8F 31#5 = (5#32, 0x0C#32) := by decide

/-- V-FE-8. -/
theorem test_ebreak_dump : ((after (board 0x10#32 [(2#5, 0x0BEEF000#32), (31#5, 0xFFFFFFFF#32)] []) 0x00100073).diag.map
    fun d => (d.regs[0], d.regs[2], d.regs[31], d.pcv)) = [(0#32, 0x0BEEF000#32, 0xFFFFFFFF#32, 0x10#32)] := by decide

/-- V-SYS-9. -/
theorem test_ecall : faultPc (board 0x14#32 [(10#5, 1#32)] []) 0x00000073 = (some ⟨.environmentCall, 0x14#32, 0x00000073#32⟩, 0x14#32) := by decide

/-- V-SYS-1. -/
theorem test_csrrw : faultPc (board 8#32 [(5#5, 9#32)] []) 0x30009073 = (some ⟨.illegal, 8#32, 0x30009073#32⟩, 8#32) := by decide

/-- V-SYS-2. -/
theorem test_csrrs : faultPc (board 8#32 [(5#5, 9#32)] []) 0xC00022F3 = (some ⟨.illegal, 8#32, 0xC00022F3#32⟩, 8#32) := by decide

/-- V-SYS-4. -/
theorem test_csrrc : faultPc (board 8#32 [(5#5, 9#32)] []) 0x3000B2F3 = (some ⟨.illegal, 8#32, 0x3000B2F3#32⟩, 8#32) := by decide

/-- V-SYS-5. -/
theorem test_csrrwi : faultPc (board 8#32 [(5#5, 9#32)] []) 0x3002D073 = (some ⟨.illegal, 8#32, 0x3002D073#32⟩, 8#32) := by decide

/-- V-SYS-6. -/
theorem test_csrrsi : faultPc (board 8#32 [(5#5, 9#32)] []) 0x3000E2F3 = (some ⟨.illegal, 8#32, 0x3000E2F3#32⟩, 8#32) := by decide

/-- V-SYS-7. -/
theorem test_csrrci : faultPc (board 8#32 [(5#5, 9#32)] []) 0x300072F3 = (some ⟨.illegal, 8#32, 0x300072F3#32⟩, 8#32) := by decide

/-- V-FETCH-7. -/
theorem test_illegal_zero_word : faultPc (board 0x10#32 [] []) 0x00000000 = (some ⟨.illegal, 0x10#32, 0#32⟩, 0x10#32) := by decide

/-- V-FETCH-1, V-FETCH-3, V-FETCH-4, V-FETCH-6: fetch faults, and `Unaligned` wins where both hold. -/
theorem test_fetch_faults :
    (after (board 0x40#32 [] []) 0x13).fault = some ⟨.fetchUnmapped, 0x40#32, 0x40#32⟩ ∧
    (after (board 0x12#32 [] []) 0x13).fault = some ⟨.fetchUnaligned, 0x12#32, 0x12#32⟩ ∧
    (after (board 0x42#32 [] []) 0x13).fault = some ⟨.fetchUnaligned, 0x42#32, 0x42#32⟩ ∧
    (after (board 0xFFFFFFFC#32 [] []) 0x13).fault = some ⟨.fetchUnmapped, 0xFFFFFFFC#32, 0xFFFFFFFC#32⟩ := by decide

/-- V-FETCH-2: the last word of memory can be fetched. -/
theorem test_fetch_last_word : faultPc (board 0x3C#32 [] []) 0x12345037 = (none, 0x40#32) := by decide

/-- V-PRI-4 for `sb x5, -1(x0)`: with `PROFILE = documented` the body is not reached, so the bad address is not met. -/
theorem test_documented_store :
    faultPc ((board 8#32 [] []).withProfile .documented) 0xFE500FA3 =
      (some ⟨.unimplemented, 8#32, 0xFE500FA3#32⟩, 8#32) := by decide

/-- V-LD-21: unchecked, a halfword at an odd address. -/
theorem test_unchecked_load :
    regPc ((board 0#32 [] [(0x21, 0x82#8), (0x22, 0xFF#8), (0x23, 0x7F#8)]).withDataAlign .unchecked)
      0x02105383 7#5 = (0xFF82#32, 4#32) := by decide

/-- R212, R213: in vector mode the cause is recorded over an earlier one, the PC slot takes the vector and the latch is not set. -/
theorem test_vector_mode :
    (fun t => (t.causeSink, t.pc, t.fault))
      (after { (board 8#32 [] []).withTrapMode (.vector 0x20#32 { } (.newest 1)) with causeSink := [⟨3, 4, 5⟩] } 0x00000073) =
      ([⟨6#32, 8#32, 0x73#32⟩], 0x20#32, none) := by decide

/-- The host's question: from reset, the word placed by `withFetchWord` is what the next step runs (`addi x1, x0, -1`). -/
theorem test_reset_runs_placed_word : regPc State.reset 0xFFF00093 1#5 = (0xFFFFFFFF#32, 4#32) := by decide

/-- From reset with nothing placed, address 0 holds the zero word, which is `Illegal` (R237 item 4). -/
theorem test_reset_alone :
    (match step State.reset with | .next t => t.fault | .fault _ | .refused _ => none) =
      some ⟨.illegal, 0#32, 0#32⟩ := by decide

/-! ### Witnesses: for each obligation with hypotheses, a state and operands that meet them all; where it has several clauses,
one for each, at a boundary. -/

/-- The extreme offsets of formats B and J. -/
theorem witness_DecodeAfterEncode :
    (Instr.beq 31#5 31#5 0x1000#13).wf = true ∧ (Instr.bgeu 31#5 31#5 0x0FFE#13).wf = true ∧
    (Instr.jal 31#5 0x100000#21).wf = true ∧ (Instr.csrrw 31#5 0xFFF#12 31#5).wf = true := by decide

theorem witness_EncodeAfterDecode :
    decodeWord 0x7E000FE3#32 = some (.beq 0#5 0#5 0x0FFE#13) ∧
    decodeWord 0xFFFF8F8F#32 = some (.fence 15#4 15#4 15#4 31#5 31#5) := by decide

/-- A row and a word that matches it; a word that matches none. -/
theorem witness_DecoderFollowsOpcodeTable :
    (⟨"LUI", 0x00000037#32, 0x0000007F#32, .S⟩ : OpcodeRow) ∈ opcodeTable ∧
    (⟨"LUI", 0x00000037#32, 0x0000007F#32, .S⟩ : OpcodeRow).matchesWord 0x0BEEF137#32 = true ∧
    opcodeTable.all (fun r => !r.matchesWord 0#32) = true := by
  exact ⟨by decide, by decide, by decide⟩

/-- A live state whose fetched word matches no row; then a word for each case of R85. -/
theorem witness_IllegalWordsRaiseIllegal :
    ((board 0x3C#32 [] []).fault = none ∧ fetchWord (board 0x3C#32 [] []) (board 0x3C#32 [] []).pc = .ok 0#32 ∧
      opcodeTable.all (fun r => !r.matchesWord 0#32) = true) ∧
    (0x00004501#32).extractLsb' 0 2 ≠ 0b11#2 ∧ opcodeOf 0x0000007F#32 = 0x7F#7 ∧
    (opcodeOf 0x00009067#32 = 0x67#7 ∧ funct3Of 0x00009067#32 = 1#3) ∧
    (opcodeOf 0x00003063#32 = 0x63#7 ∧ funct3Of 0x00003063#32 = 3#3) ∧
    (opcodeOf 0x00007003#32 = 0x03#7 ∧ funct3Of 0x00007003#32 = 7#3) ∧
    (opcodeOf 0x00513423#32 = 0x23#7 ∧ (funct3Of 0x00513423#32).toNat = 3) ∧
    (opcodeOf 0x02001013#32 = 0x13#7 ∧ funct3Of 0x02001013#32 = 1#3 ∧ funct7Of 0x02001013#32 = 1#7) ∧
    (opcodeOf 0x02005013#32 = 0x13#7 ∧ funct3Of 0x02005013#32 = 5#3 ∧ funct7Of 0x02005013#32 = 1#7) ∧
    (opcodeOf 0x4020C1B3#32 = 0x33#7 ∧ funct7Of 0x4020C1B3#32 = 0x20#7 ∧ funct3Of 0x4020C1B3#32 = 4#3) ∧
    (opcodeOf 0x0000200F#32 = 0x0F#7 ∧ (funct3Of 0x0000200F#32).toNat = 2) ∧
    (opcodeOf 0x00004073#32 = 0x73#7 ∧ funct3Of 0x00004073#32 = 4#3) ∧
    (opcodeOf 0x00200073#32 = 0x73#7 ∧ funct3Of 0x00200073#32 = 0#3) := by
  refine ⟨⟨by decide, by decide, by decide⟩, by decide, by decide, by decide, by decide, by decide, by decide, by decide,
    by decide, by decide, by decide, by decide, by decide⟩

/-- The whole word, and its top bit alone. -/
theorem witness_ExtractBitsIsTheBitRange : (0 ≤ 31 ∧ 31 < 32) ∧ (31 ≤ 31 ∧ 31 < 32) := by decide

/-- The widths 1 and 32; a bit below the width and one above. -/
theorem witness_SextFieldCopiesTheTopBit : (1 ≤ 1 ∧ 1 ≤ 32) ∧ (1 ≤ 32 ∧ 32 ≤ 32) ∧ 0 < 1 ∧ ¬ 31 < 1 := by decide

/-- A builder filled to exactly 32 bits. -/
theorem witness_FieldBuilderStacksRanges :
    12 ≤ 31 ∧ 31 < 32 ∧ (FieldBuilder.start.skipBits 12).acc.toNat < 2 ^ (FieldBuilder.start.skipBits 12).off ∧
    (FieldBuilder.start.skipBits 12).off + (31 - 12 + 1) ≤ 32 := by decide

theorem witness_RegisterFileReadsBackWrites :
    (32 : Fin 33) ≠ 0 ∧ (31 : Fin 33) ≠ 32 ∧ (1#5 = 1#5 ∧ 1#5 ≠ 0#5) := by decide

/-- The last byte, the first address outside; the last words and the first that do not fit, of each width. -/
theorem witness_LoadPrimitivesComposeBytes :
    ((board 0#32 [] []).cfg.memSize ≤ 64 ∧ 63 < (board 0#32 [] []).cfg.memSize) ∧
    (62 + 16 / 8 ≤ (board 0#32 [] []).cfg.memSize ∧ (board 0#32 [] []).cfg.memSize < 63 + 16 / 8) ∧
    (60 + 32 / 8 ≤ (board 0#32 [] []).cfg.memSize ∧ (board 0#32 [] []).cfg.memSize < 61 + 32 / 8) ∧
    (56 + 64 / 8 ≤ (board 0#32 [] []).cfg.memSize ∧ (board 0#32 [] []).cfg.memSize < 57 + 64 / 8) ∧
    62 % (32 / 8) ≠ 0 ∧ 60 % (32 / 8) = 0 := by decide

theorem witness_StorePrimitivesWriteBytes :
    (board 0#32 [] [(0x3F, 0xA5#8)]).mem.wf = true ∧ 63 < (board 0#32 [] [(0x3F, 0xA5#8)]).cfg.memSize ∧
    (board 0#32 [] [(0x3F, 0xA5#8)]).cfg.memSize ≤ 64 ∧
    60 + 32 / 8 ≤ (board 0#32 [] [(0x3F, 0xA5#8)]).cfg.memSize ∧
    (board 0#32 [] [(0x3F, 0xA5#8)]).cfg.memSize < 61 + 32 / 8 ∧ 63 % (16 / 8) ≠ 0 := by decide

/-- A store of each path that succeeds at the top of memory. -/
theorem witness_LoadAfterStoreReturnsValue :
    (board 0#32 [] []).mem.wf = true ∧
    (∃ t, (board 0#32 [] []).store8 63 0xAB#8 = .ok t) ∧
    (∃ t, (board 0#32 [] []).storeUnaligned 32 60 0x11223344#32 = .ok t) ∧
    (∃ t, (board 0#32 [] []).storeAligned 64 56 0x1122334455667788#64 = .ok t) :=
  ⟨by decide, ⟨_, rfl⟩, ⟨_, rfl⟩, ⟨_, rfl⟩⟩

/-- With the largest memory, an access of each width whose last byte is address `2^32`, also an aligned one past the end. -/
theorem witness_NoAccessWrapsToZero :
    State.reset.cfg.wf = true ∧ 4294967296 < 4294967295 + 16 / 8 ∧ 4294967296 < 4294967293 + 32 / 8 ∧
    (4294967296 < 4294967296 + 32 / 8 ∧ 4294967296 % (32 / 8) = 0) := by decide

theorem witness_CanonicalMemoriesWithEqualBytesAreEqual :
    Memory.wf [(3, 1#8), (7, 2#8)] = true ∧ Memory.wf ((Memory.write [] 7 2#8).write 3 1#8) = true ∧
    ((Memory.write [] 7 2#8).write 3 1#8) = [(3, 1#8), (7, 2#8)] := by decide

/-- A live state with `addi x1, x0, -1` in the last word of memory. -/
def lastWord : State := board 0x3C#32 [] [(0x3C, 0x93#8), (0x3E, 0xF0#8), (0x3F, 0xFF#8)]

theorem witness_StepRunsDecodedInstruction :
    lastWord.fault = none ∧ lastWord.pc.toNat % 4 = 0 ∧ lastWord.pc.toNat + 4 ≤ lastWord.cfg.memSize ∧
    decodeBytes (lastWord.mem.readBytes lastWord.pc.toNat 4) = .ok (.addi 1#5 0#5 0xFFF#12, []) := by decide

theorem witness_PlacedWordIsRun :
    lastWord.fault = none ∧ lastWord.mem.wf = true ∧ lastWord.pc.toNat % 4 = 0 ∧
    lastWord.pc.toNat + 4 ≤ lastWord.cfg.memSize ∧ decodeWord 0x00100073#32 = some .ebreak := by decide

theorem witness_HaltedCoreNeverChanges :
    (after (board 0x14#32 [] []) 0x00000073).fault ≠ none := by decide

/-- Fetch addresses at the end of memory and of the address space, and a fetch of the last word. -/
theorem witness_FetchFaultsOrReadsTheWord :
    (0xFFFFFFFF#32).toNat % 4 ≠ 0 ∧
    ((0x40#32).toNat % 4 = 0 ∧ lastWord.cfg.memSize < (0x40#32).toNat + 4) ∧
    ((0x3C#32).toNat % 4 = 0 ∧ lastWord.load8 0x3C = .ok 0x93#8 ∧ lastWord.load8 0x3D = .ok 0#8 ∧
      lastWord.load8 0x3E = .ok 0xF0#8 ∧ lastWord.load8 0x3F = .ok 0xFF#8) ∧
    ((board 0x3E#32 [] []).fault = none ∧ (board 0x3E#32 [] []).pc.toNat % 4 ≠ 0) ∧
    ((board 0x40#32 [] []).fault = none ∧ (board 0x40#32 [] []).pc.toNat % 4 = 0 ∧
      (board 0x40#32 [] []).cfg.memSize < (board 0x40#32 [] []).pc.toNat + 4) := by
  refine ⟨by decide, by decide, by decide, by decide, by decide⟩

/-- Two states that differ in registers and PC, with the same four bytes. -/
theorem witness_DecodeDependsOnTheBytesOnly :
    ∀ j, j < 4 → (board 0#32 [(1#5, 7#32)] lastWord.mem).load8 ((0x3C#32).toNat + j) =
      lastWord.load8 ((0x3C#32).toNat + j) := fun _ _ => rfl

/-- A word of each encoding with every free bit set, and a state of each profile. -/
theorem witness_UpperImmediateResults :
    0xFFFFFFB7#32 &&& 0x0000007F#32 = 0x00000037#32 ∧ 0xFFFFFF97#32 &&& 0x0000007F#32 = 0x00000017#32 ∧
    (board 0x10#32 [] []).cfg.profile = .completed ∧
    ((board 0x10#32 [] []).withProfile .documented).cfg.profile = .documented := by decide

/-- A word of each encoding; the last byte of memory and the first address outside. -/
theorem witness_LoadByteResults :
    0xFFFF8F83#32 &&& 0x0000707F#32 = 0x00000003#32 ∧ 0xFFFFCF83#32 &&& 0x0000707F#32 = 0x00004003#32 ∧
    (board 0#32 [] []).load8 ((board 0#32 [] []).readReg 0#5 + (0x03F#12).signExtend 32).toNat = .ok 0#8 ∧
    (board 0#32 [] []).cfg.memSize ≤ ((board 0#32 [] []).readReg 0#5 + (0x040#12).signExtend 32).toNat := by decide

/-- The last halfword; an odd address, also where it does not fit; the first even address that does not fit. -/
theorem witness_LoadHalfwordResults :
    (0xFFFF9F83#32 &&& 0x0000707F#32 = 0x00001003#32 ∧ 0xFFFFDF83#32 &&& 0x0000707F#32 = 0x00005003#32) ∧
    (DataAligned (board 0#32 [] []) 0x3E#32 2 ∧ (board 0#32 [] []).load8 0x3E = .ok 0#8 ∧
      (board 0#32 [] []).load8 0x3F = .ok 0#8) ∧
    ((board 0#32 [] []).cfg.dataAlign = .checked ∧ (0x3F#32).toNat % 2 ≠ 0) ∧
    (DataAligned (board 0#32 [] []) 0x40#32 2 ∧ ¬ InMemory (board 0#32 [] []) 0x40#32 2) ∧
    (DataAligned ((board 0#32 [] []).withDataAlign .unchecked) 0x3F#32 2 ∧
      ¬ InMemory ((board 0#32 [] []).withDataAlign .unchecked) 0x3F#32 2) := by
  unfold DataAligned InMemory
  refine ⟨by decide, by decide, by decide, by decide, by decide⟩

/-- A word of the encoding; the last word; an address that is no multiple of 4; the first aligned one that does not fit. -/
theorem witness_LoadWordResult :
    0xFFFFAF83#32 &&& 0x0000707F#32 = 0x00002003#32 ∧
    (DataAligned (board 0#32 [] []) 0x3C#32 4 ∧ (board 0#32 [] []).load8 0x3C = .ok 0#8 ∧
      (board 0#32 [] []).load8 0x3D = .ok 0#8 ∧ (board 0#32 [] []).load8 0x3E = .ok 0#8 ∧
      (board 0#32 [] []).load8 0x3F = .ok 0#8) ∧
    ((board 0#32 [] []).cfg.dataAlign = .checked ∧ (0x3E#32).toNat % 4 ≠ 0) ∧
    (DataAligned (board 0#32 [] []) 0x40#32 4 ∧ ¬ InMemory (board 0#32 [] []) 0x40#32 4) := by
  unfold DataAligned InMemory
  refine ⟨by decide, by decide, by decide, by decide⟩

/-- A word of the encoding with every free bit set; the last byte, and the first address outside. -/
theorem witness_StoreByteResult :
    0xFFFF8FA3#32 &&& 0x0000707F#32 = 0x00000023#32 ∧
    (board 8#32 [] []).cfg.profile = .completed ∧ (board 8#32 [] []).mem.wf = true ∧
    InMemory (board 8#32 [] []) 0x3F#32 1 ∧ ¬ InMemory (board 8#32 [] []) 0x40#32 1 := by
  unfold InMemory; decide

/-- The last halfword; an odd address; the first even address that does not fit. -/
theorem witness_StoreHalfwordResult :
    0xFFFF9FA3#32 &&& 0x0000707F#32 = 0x00001023#32 ∧
    (board 8#32 [] []).cfg.profile = .completed ∧ (board 8#32 [] []).mem.wf = true ∧
    (DataAligned (board 8#32 [] []) 0x3E#32 2 ∧ InMemory (board 8#32 [] []) 0x3E#32 2) ∧
    ((board 8#32 [] []).cfg.dataAlign = .checked ∧ (0x3F#32).toNat % 2 ≠ 0) ∧
    (DataAligned (board 8#32 [] []) 0x40#32 2 ∧ ¬ InMemory (board 8#32 [] []) 0x40#32 2) := by
  unfold DataAligned InMemory; decide

/-- The last word; an address that is no multiple of 4; the first aligned one that does not fit. -/
theorem witness_StoreWordResult :
    0xFFFFAFA3#32 &&& 0x0000707F#32 = 0x00002023#32 ∧
    (board 8#32 [] []).cfg.profile = .completed ∧ (board 8#32 [] []).mem.wf = true ∧
    (DataAligned (board 8#32 [] []) 0x3C#32 4 ∧ InMemory (board 8#32 [] []) 0x3C#32 4) ∧
    ((board 8#32 [] []).cfg.dataAlign = .checked ∧ (0x3E#32).toNat % 4 ≠ 0) ∧
    (DataAligned (board 8#32 [] []) 0x40#32 4 ∧ ¬ InMemory (board 8#32 [] []) 0x40#32 4) := by
  unfold DataAligned InMemory; decide

/-- Words with every ignored field set. -/
theorem witness_FencesOnlyAdvanceThePc :
    0xFFFF8F8F#32 &&& 0x0000707F#32 = 0x0000000F#32 ∧ 0xFFFF9F8F#32 &&& 0x0000707F#32 = 0x0000100F#32 := by decide

/-- The only word. -/
theorem witness_EbreakAppendsOneDump :
    0x00100073#32 &&& 0xFFFFFFFF#32 = 0x00100073#32 := by decide

/-- A word of each encoding with every free bit set, and the profile. -/
theorem witness_AluImmediateResults :
    0xFFFF8F93#32 &&& 0x0000707F#32 = 0x00000013#32 ∧ 0xFFFFAF93#32 &&& 0x0000707F#32 = 0x00002013#32 ∧
    0xFFFFBF93#32 &&& 0x0000707F#32 = 0x00003013#32 ∧ 0xFFFFCF93#32 &&& 0x0000707F#32 = 0x00004013#32 ∧
    0xFFFFEF93#32 &&& 0x0000707F#32 = 0x00006013#32 ∧ 0xFFFFFF93#32 &&& 0x0000707F#32 = 0x00007013#32 ∧
    (board 8#32 [(1#5, 0xFFFFFFFF#32)] []).cfg.profile = .completed := by decide

/-- A word of each encoding; a word of each illegal form, bit 25 or 31 set; the profile. -/
theorem witness_ShiftImmediateResults :
    0x01FF9F93#32 &&& 0xFE00707F#32 = 0x00001013#32 ∧ 0x01FFDF93#32 &&& 0xFE00707F#32 = 0x00005013#32 ∧
    0x41FFDF93#32 &&& 0xFE00707F#32 = 0x40005013#32 ∧
    (opcodeOf 0x02001013#32 = 0x13#7 ∧ funct3Of 0x02001013#32 = 1#3 ∧ funct7Of 0x02001013#32 ≠ 0#7) ∧
    (opcodeOf 0xC0005013#32 = 0x13#7 ∧ funct3Of 0xC0005013#32 = 5#3 ∧ funct7Of 0xC0005013#32 ≠ 0#7 ∧
      funct7Of 0xC0005013#32 ≠ 0x20#7) ∧
    (board 8#32 [(1#5, 0xFFFFFFFF#32)] []).cfg.profile = .completed := by decide

/-- A word of each encoding, and the profile. -/
theorem witness_AluRegisterResults :
    0x01FF8FB3#32 &&& 0xFE00707F#32 = 0x00000033#32 ∧ 0x41FF8FB3#32 &&& 0xFE00707F#32 = 0x40000033#32 ∧
    0x01FFAFB3#32 &&& 0xFE00707F#32 = 0x00002033#32 ∧ 0x01FFBFB3#32 &&& 0xFE00707F#32 = 0x00003033#32 ∧
    0x01FFCFB3#32 &&& 0xFE00707F#32 = 0x00004033#32 ∧ 0x01FFEFB3#32 &&& 0xFE00707F#32 = 0x00006033#32 ∧
    0x01FFFFB3#32 &&& 0xFE00707F#32 = 0x00007033#32 ∧
    (board 8#32 [(1#5, 0xFFFFFFFF#32)] []).cfg.profile = .completed := by decide

/-- A word of each encoding; the profile, with the shift amount 31. -/
theorem witness_ShiftRegisterResults :
    0x01FF9FB3#32 &&& 0xFE00707F#32 = 0x00001033#32 ∧ 0x01FFDFB3#32 &&& 0xFE00707F#32 = 0x00005033#32 ∧
    0x41FFDFB3#32 &&& 0xFE00707F#32 = 0x40005033#32 ∧
    (board 8#32 [(1#5, 0xFFFFFFFF#32)] []).cfg.profile = .completed ∧
    ((board 8#32 [(1#5, 0xFFFFFFFF#32)] []).readReg 1#5).toNat % 32 = 31 := by decide

/-- A word of each encoding; JALR's opcode with another funct3; the profile. -/
theorem witness_JumpResults :
    0xFFFFFFEF#32 &&& 0x0000007F#32 = 0x0000006F#32 ∧
    0xFFFF8FE7#32 &&& 0x0000707F#32 = 0x00000067#32 ∧
    (opcodeOf 0x00009067#32 = 0x67#7 ∧ funct3Of 0x00009067#32 ≠ 0#3) ∧ (board 8#32 [] []).cfg.profile = .completed := by decide

/-- A word of each encoding, and the profile. -/
theorem witness_BranchResults :
    0xFFFF8FE3#32 &&& 0x0000707F#32 = 0x00000063#32 ∧ 0xFFFF9FE3#32 &&& 0x0000707F#32 = 0x00001063#32 ∧
    0xFFFFCFE3#32 &&& 0x0000707F#32 = 0x00004063#32 ∧ 0xFFFFDFE3#32 &&& 0x0000707F#32 = 0x00005063#32 ∧
    0xFFFFEFE3#32 &&& 0x0000707F#32 = 0x00006063#32 ∧ 0xFFFFFFE3#32 &&& 0x0000707F#32 = 0x00007063#32 ∧
    (board 8#32 [] []).cfg.profile = .completed := by decide

/-- A jump from an even PC to a target that is no multiple of 4. -/
theorem witness_MisalignedTargetFaultsOneStepLater :
    (board 0x10#32 [] []).cfg.profile = .completed ∧ (board 0x10#32 [] []).fault = none ∧
    isControlTransfer (.jal 1#5 2#21) = true ∧ (Instr.jal 1#5 2#21).wf = true ∧
    (board 0x10#32 [] []).pc.toNat % 2 = 0 ∧
    (after (board 0x10#32 [] []) 0x002000EF).pc.toNat % 4 ≠ 0 := by decide

/-- A live state with `csrrw x0, 0x300, x1` at the PC. -/
def csrBoard : State := board 8#32 [] [(8, 0x73#8), (9, 0x90#8), (11, 0x30#8)]

/-- A word of each encoding; `csrrw x0, 0x300, x1` in memory at the PC; both profiles. -/
theorem witness_CsrInstructionsRaiseIllegal :
    0xFFFF9FF3#32 &&& 0x0000707F#32 = 0x00001073#32 ∧ 0xFFFFAFF3#32 &&& 0x0000707F#32 = 0x00002073#32 ∧
    0xFFFFBFF3#32 &&& 0x0000707F#32 = 0x00003073#32 ∧ 0xFFFFDFF3#32 &&& 0x0000707F#32 = 0x00005073#32 ∧
    0xFFFFEFF3#32 &&& 0x0000707F#32 = 0x00006073#32 ∧ 0xFFFFFFF3#32 &&& 0x0000707F#32 = 0x00007073#32 ∧
    csrBoard.cfg.profile = .completed ∧ (csrBoard.withProfile .documented).cfg.profile = .documented ∧
    csrBoard.fault = none ∧ fetchWord csrBoard csrBoard.pc = .ok 0x30009073#32 ∧
    decodeWord 0x30009073#32 = some (.csrrw 0#5 0x300#12 1#5) ∧ isCsr (.csrrw 0#5 0x300#12 1#5) = true := by decide

/-- The only word, and the profile. -/
theorem witness_EcallRaisesEnvironmentCall :
    0x00000073#32 &&& 0xFFFFFFFF#32 = 0x00000073#32 ∧ (board 0x14#32 [] []).cfg.profile = .completed := by decide

/-- `PROFILE = documented`, with a tier N instruction in memory, and a tier S instruction that completes. -/
theorem witness_DocumentedProfileRaisesUnimplemented :
    (lastWord.withProfile .documented).cfg.profile = .documented ∧ (lastWord.withProfile .documented).fault = none ∧
    fetchWord (lastWord.withProfile .documented) 0x3C#32 = .ok 0xFFF00093#32 ∧
    decodeWord 0xFFF00093#32 = some (.addi 1#5 0#5 0xFFF#12) ∧ (Instr.addi 1#5 0#5 0xFFF#12).tier ≠ .S ∧
    (Instr.lui 1#5 1#20).tier = .S ∧ (∃ t, exec (.lui 1#5 1#20) (lastWord.withProfile .completed) = .next t) :=
  ⟨by decide, by decide, by decide, by decide, by decide, by decide, ⟨_, rfl⟩⟩

theorem witness_StoredWordIsFetched :
    (board 8#32 [] []).cfg.profile = .completed ∧ (board 8#32 [] []).mem.wf = true ∧
    ((board 8#32 [] []).readReg 0#5 + (0x03C#12).signExtend 32).toNat % 4 = 0 ∧
    InMemory (board 8#32 [] []) ((board 8#32 [] []).readReg 0#5 + (0x03C#12).signExtend 32) 4 := by
  unfold InMemory; decide

/-- A state for each fault of R200 and one with none. -/
theorem witness_StepRaisesExactlyThePendingFault :
    pendingFault (board 0x42#32 [] []) = some (.fetchUnaligned, 0x42#32) ∧
    pendingFault (board 0x40#32 [] []) = some (.fetchUnmapped, 0x40#32) ∧
    pendingFault (board 0x3C#32 [] []) = some (.illegal, 0#32) ∧
    pendingFault (lastWord.withProfile .documented) = some (.unimplemented, 0xFFF00093#32) ∧
    pendingFault ((board 0#32 [] []).withFetchWord 32 0x30009073) = some (.illegal, 0x30009073#32) ∧
    pendingFault ((board 0#32 [] []).withFetchWord 32 0x00000073) = some (.environmentCall, 0x73#32) ∧
    pendingFault ((board 0#32 [] []).withFetchWord 32 0x03E02403) = some (.unaligned, 0x3E#32) ∧
    pendingFault ((board 0#32 [] []).withFetchWord 32 0x04002403) = some (.unmapped, 0x40#32) ∧
    pendingFault lastWord = none ∧ lastWord.fault = none := by
  refine ⟨by decide, by decide, by decide, by decide, by decide, by decide, by decide, by decide, by decide, by decide⟩

/-- A live step that faults. -/
theorem witness_FaultsArePrecise :
    (board 0x40#32 [] []).fault = none ∧
    ∃ t r, step (board 0x40#32 [] []) = .next t ∧ t.fault = some r := ⟨by decide, _, _, rfl, rfl⟩

/-- An instruction of each kind that faults: a CSR instruction, `ECALL`, and a data access that does not fit. -/
theorem witness_FaultsPerInstruction :
    (board 8#32 [] []).cfg.profile = .completed ∧ (board 8#32 [] []).fault = none ∧
    (∃ t r, exec (.csrrs 5#5 0xC00#12 0#5) (board 8#32 [] []) = .next t ∧ t.fault = some r) ∧
    (∃ t r, exec .ecall (board 8#32 [] []) = .next t ∧ t.fault = some r) ∧
    (∃ t r, exec (.lh 7#5 0#5 0x021#12) (board 8#32 [] []) = .next t ∧ t.fault = some r) :=
  ⟨by decide, by decide, ⟨_, _, rfl, rfl⟩, ⟨_, _, rfl, rfl⟩, ⟨_, _, rfl, rfl⟩⟩

/-- Vector mode with a handler, `ebreak`, at the vector 0x20, and an illegal word at the PC. -/
def vectored : State :=
  (board 8#32 [] [(0x20, 0x73#8), (0x22, 0x10#8)]).withTrapMode (.vector 0x20#32 { } (.newest 1))

/-- A state for each kind of sink: overwriting, with room for two, full, unbounded. -/
theorem witness_VectorModeEntersTheVector :
    vectored.fault = none ∧ vectored.cfg.wf = true ∧ pendingFault vectored = some (.illegal, 0#32) ∧
    vectored.cfg.trapMode = .vector 0x20#32 { } (.newest 1) ∧ decodeAt vectored 0x20#32 = .ok .ebreak ∧
    pendingFault (vectored.withTrapMode (.vector 0x20#32 { } (.newest 2))) = some (.illegal, 0#32) ∧
    pendingFault (vectored.withTrapMode (.vector 0x20#32 { } .every)) = some (.illegal, 0#32) ∧
    pendingFault { vectored.withTrapMode (.vector 0x20#32 { } (.oldest 1)) with causeSink := [⟨3, 4, 5⟩] } =
      some (.illegal, 0#32) := by
  refine ⟨by decide, by decide, by decide, by decide, by decide, by decide, by decide, by decide⟩

theorem witness_OnlyControlTransfersLeaveTheSequence :
    (board 8#32 [] []).cfg.trapMode = .halt ∧ (board 8#32 [] []).fault = none ∧
    isControlTransfer (.fenceI 0#12 0#5 0#5) = false ∧
    ∃ t, exec (.fenceI 0#12 0#5 0#5) (board 8#32 [] []) = .next t ∧ t.fault = none :=
  ⟨by decide, by decide, by decide, _, rfl, rfl⟩

/-- A step from a state that meets the invariant: it completes, it halts, it enters the vector. -/
theorem witness_StepKeepsInvariant :
    lastWord.inv = true ∧ vectored.inv = true ∧ (State.inv { vectored with causeSink := [⟨3, 4, 5⟩] } = true) ∧ (board 0x40#32 [] []).inv = true ∧
    (after (board 0x14#32 [] []) 0x00000073).inv = true := by
  refine ⟨by decide, by decide, by decide, by decide, by decide⟩

theorem witness_PcStaysEven : vectored.cfg.wf = true ∧ vectored.pc.toNat % 2 = 0 ∧ ∃ t, step vectored = .next t :=
  ⟨by decide, by decide, _, rfl⟩

theorem witness_ParametersNeverChange : ∃ t, Sys2Proof.core.run 2 lastWord = .next t := ⟨_, rfl⟩

theorem witness_DiagGrowsByEbreakOnly :
    decodeAt (after vectored 0) 0x20#32 = .ok .ebreak ∧ ∃ t, step vectored = .next t := ⟨by decide, _, rfl⟩

/-- Two states that differ in `diag` only. -/
theorem witness_DiagNeverInfluencesTheRun :
    SameButDiag lastWord (lastWord.emit lastWord.dump) ∧ ∃ t, Sys2Proof.core.run 2 lastWord = .next t :=
  ⟨⟨rfl, rfl, rfl, rfl, rfl, rfl⟩, _, rfl⟩

/-- The first and the last address of the memory of `State.reset`. -/
theorem witness_ResetValues : 0 < State.reset.cfg.memSize ∧ 4294967295 < State.reset.cfg.memSize := by decide

/-- Legal parameters, and a `MEM_INIT` that lists the last byte and one address outside memory. -/
theorem witness_ConstructionGivesTheParameters :
    smallCfg.wf = true ∧ ([(63, 1#8), (64, 2#8)].map (Prod.fst : Host.Cell → Nat)).Nodup ∧
    (∃ c ∈ ([(63, 1#8), (64, 2#8)] : List Host.Cell), c.1 < smallCfg.memSize) ∧
    (62 < smallCfg.memSize ∧ 62 ∉ ([(63, 1#8), (64, 2#8)] : List Host.Cell).map Prod.fst) := by
  refine ⟨by decide, by decide, ⟨(63, 1#8), by decide, by decide⟩, by decide⟩

/-- An image that fills a memory of two bytes, and one byte more. -/
theorem witness_BootLoadPlacesTheImage :
    Memory.wf (State.reset.withMemSize 2).mem = true ∧
    (∃ t, (State.reset.withMemSize 2).loadImage [1#8, 2#8] = .ok t) ∧
    (∃ e, (State.reset.withMemSize 2).loadImage [1#8, 2#8, 3#8] = .error e) :=
  ⟨by decide, ⟨_, rfl⟩, ⟨_, rfl⟩⟩

/-- One completed step. -/
theorem completes_lastWord : Completes lastWord (after lastWord 0xFFF00093) := ⟨rfl, by decide, rfl⟩

theorem witness_SafeRunsAreRunsOfTheCore :
    lastWord.fault = none ∧ lastWord.inv = true ∧ SafeRun 1 lastWord (after lastWord 0xFFF00093) :=
  ⟨by decide, by decide, _, completes_lastWord, rfl⟩

theorem witness_CheckedRunsAreUncheckedRuns :
    lastWord.cfg.dataAlign = .checked ∧ SafeRun 1 lastWord (after lastWord 0xFFF00093) :=
  ⟨by decide, _, completes_lastWord, rfl⟩

/-- `lui x0, 0x12345` with `PROFILE = documented`. -/
def documentedLui : State := ((board 0x3C#32 [] []).withFetchWord 32 0x12345037).withProfile .documented

theorem witness_DocumentedRunsAreCompletedRuns :
    documentedLui.cfg.profile = .documented ∧ SafeRun 1 documentedLui (after documentedLui 0x12345037) :=
  ⟨by decide, _, ⟨rfl, by decide, rfl⟩, rfl⟩

theorem witness_SafeRunsIgnoreTheMemorySize :
    lastWord.cfg.memSize ≤ 4294967296 ∧ SafeRun 1 lastWord (after lastWord 0xFFF00093) :=
  ⟨by decide, _, completes_lastWord, rfl⟩

theorem witness_SafeRunsIgnoreTheTrapMode : SafeRun 1 lastWord (after lastWord 0xFFF00093) :=
  ⟨_, completes_lastWord, rfl⟩

end Sys2Proof.Machine.Test
end

/-! The register file through its 33 slots (R11 to R15): what a slot holds, and the one law of a read after a write. -/

namespace Sys2Proof.Machine

section slots
variable (s : State) (v : Word)

/-- A write to register 0 is discarded (R13). -/
@[simp] theorem writeReg_zero : s.writeReg 0#5 v = s := rfl

/-- Slot 0 is register 0 (R12, R13). -/
@[simp] theorem loadSlot_zero : s.loadSlot 0 = 0#32 := rfl

@[simp] theorem storeSlot_zero : s.storeSlot 0 v = s := rfl

/-- Slot 32 is the PC (R15). -/
@[simp] theorem loadSlot_pc : s.loadSlot 32 = s.pc := rfl

@[simp] theorem storeSlot_pc : s.storeSlot 32 v = s.commit v := rfl

theorem loadSlot_of_ne_pc {k : Fin 33} (hk : k ≠ 32) : s.loadSlot k = s.readReg (BitVec.ofNat 5 k.val) :=
  if_neg (Fin.val_ne_of_ne hk)

theorem storeSlot_of_ne_pc {k : Fin 33} (hk : k ≠ 32) : s.storeSlot k v = s.writeReg (BitVec.ofNat 5 k.val) v :=
  if_neg (Fin.val_ne_of_ne hk)
end slots

/-- The slots 0 to 31 name distinct registers: their index fits the 5-bit field (R11). -/
theorem ofNat_slot_inj {j k : Fin 33} (hj : j ≠ 32) (hk : k ≠ 32) :
    BitVec.ofNat 5 j.val = BitVec.ofNat 5 k.val ↔ j = k := by
  have hj' : j.val ≠ 32 := Fin.val_ne_of_ne hj
  have hk' : k.val ≠ 32 := Fin.val_ne_of_ne hk
  simp only [← BitVec.toNat_inj, BitVec.toNat_ofNat, Fin.ext_iff]
  omega

/-- A slot read after a slot write (R12, R13, R15): the written value in the written slot, unless it is slot 0; every
other slot as before. -/
theorem loadSlot_storeSlot (s : State) (k j : Fin 33) (v : Word) :
    (s.storeSlot k v).loadSlot j = if j = k ∧ j ≠ 0 then v else s.loadSlot j := by
  by_cases hk : k = 32
  · subst hk
    by_cases hj : j = 32
    · simp [hj]
    · simp [hj, loadSlot_of_ne_pc]
  · rw [storeSlot_of_ne_pc s v hk]
    by_cases hj : j = 32
    · simp [hj, Ne.symm hk]
    · have hjk : BitVec.ofNat 5 j.val = BitVec.ofNat 5 k.val ↔ j = k := ofNat_slot_inj hj hk
      have hj0 : BitVec.ofNat 5 j.val = 0#5 ↔ j = 0 := ofNat_slot_inj hj (k := 0) (by decide)
      simp only [loadSlot_of_ne_pc _ hj, readReg_writeReg, hjk, hj0, ne_eq]

/-- Settles O10: the read-after-write laws of the registers and of the slots, and register 0, which no write reaches. -/
theorem registerFileReadsBackWrites : Obligations.RegisterFileReadsBackWrites := by
  intro s v
  refine ⟨readReg_zero s, writeReg_zero s v, fun r q => readReg_writeReg s r q v, loadSlot_zero s,
    storeSlot_zero s v, fun k hk => ?readBack, fun k j hjk => ?frame⟩
  case readBack => rw [loadSlot_storeSlot, if_pos ⟨rfl, hk⟩]
  case frame => rw [loadSlot_storeSlot, if_neg fun h => hjk h.1]

end Sys2Proof.Machine

/-! The memory primitives (R31 to R39): what each answers, by condition, and the bytes of a value. -/

namespace Sys2Proof.Machine

section byteAccess
variable {s : State} {a : Nat} {b : Byte}

theorem load8_error (h : s.cfg.memSize ≤ a) : s.load8 a = .error .unmapped := if_pos h

theorem store8_error (h : s.cfg.memSize ≤ a) : s.store8 a b = .error .unmapped := if_pos h

theorem store8_ok (h : a < s.cfg.memSize) : s.store8 a b = .ok { s with mem := s.mem.write a b } :=
  if_neg (Nat.not_le.mpr h)
end byteAccess

section alignment
variable {s : State} {n a : Nat} {v : BitVec n}

/-- `Unaligned` wins over every other failure (R39). -/
theorem loadAligned_of_misaligned (h : a % (n / 8) ≠ 0) : s.loadAligned n a = .error .unaligned := if_neg h

theorem loadAligned_of_aligned (h : a % (n / 8) = 0) : s.loadAligned n a = s.loadUnaligned n a := if_pos h

theorem storeAligned_of_misaligned (h : a % (n / 8) ≠ 0) : s.storeAligned n a v = .error .unaligned := if_neg h

theorem storeAligned_of_aligned (h : a % (n / 8) = 0) : s.storeAligned n a v = s.storeUnaligned n a v := if_pos h
end alignment

/-! ### The bytes of a value (R33) -/

/-- The bytes written for a value are its 8-bit slices, the least significant first. -/
theorem getElem_leBytes_toNat {n k j : Nat} (v : BitVec n) (h : j < k) :
    (leBytes k v.toNat)[j]'(by simpa using h) = v.extractLsb' (8 * j) 8 := by
  rw [getElem_leBytes _ _ _ h, BitVec.extractLsb', Nat.shiftRight_eq_div_pow, Nat.pow_mul]

/-- Splitting the number of some bytes gives the bytes back. -/
theorem leBytes_leNat (bs : List Byte) : leBytes bs.length (leNat bs) = bs := by
  induction bs with
  | nil => rfl
  | cons b bs ih =>
    have hb : b.toNat < 256 := b.isLt
    have hhead : BitVec.ofNat 8 (b.toNat + 256 * leNat bs) = b :=
      BitVec.eq_of_toNat_eq (by rw [BitVec.toNat_ofNat]; omega)
    have htail : (b.toNat + 256 * leNat bs) / 256 = leNat bs := by omega
    simp only [List.length_cons, leNat, leBytes, hhead, htail, ih]

theorem leNat_lt (bs : List Byte) : leNat bs < 256 ^ bs.length := by
  calc leNat bs = leNat bs % 256 ^ bs.length := by rw [← leNat_leBytes, leBytes_leNat]
    _ < 256 ^ bs.length := Nat.mod_lt _ (by positivity)

/-- A number of `n / 8` bytes is one of `n` bits, for a width of whole bytes. -/
theorem pow_bytes_of_width {n : Nat} (hn : 8 ∣ n) : 256 ^ (n / 8) = 2 ^ n := by
  rw [show 256 = 2 ^ 8 from rfl, ← Nat.pow_mul, Nat.mul_div_cancel' hn]

/-- The 8-bit slices of the value composed from `n / 8` bytes are these bytes. -/
theorem extractLsb'_ofNat_leNat {n j : Nat} (hn : 8 ∣ n) {bs : List Byte} (hlen : bs.length = n / 8)
    (h : j < bs.length) : (BitVec.ofNat n (leNat bs)).extractLsb' (8 * j) 8 = bs[j] := by
  have hlt : leNat bs < 2 ^ n := by
    rw [← pow_bytes_of_width hn, ← hlen]
    exact leNat_lt bs
  have hval : (BitVec.ofNat n (leNat bs)).toNat = leNat bs := by
    rw [BitVec.toNat_ofNat, Nat.mod_eq_of_lt hlt]
  rw [← getElem_leBytes_toNat _ h]
  simp only [hval, leBytes_leNat]

/-- The widths of the multi-byte primitives are whole bytes. -/
theorem eight_dvd_of_width {n : Nat} (h : n = 16 ∨ n = 32 ∨ n = 64) : 8 ∣ n := by omega

/-- Settles O11: each byte of the value composed is the byte in memory, and the checks come first. -/
theorem loadPrimitivesComposeBytes : Obligations.LoadPrimitivesComposeBytes := by
  refine ⟨fun s a => ⟨load8_error, fun h => load8_eq_ok.mpr ⟨h, rfl⟩⟩, fun s n a hn =>
    ⟨loadUnaligned_error, fun h => ⟨_, loadUnaligned_ok h, fun j hj => ?composed⟩, loadAligned_of_misaligned,
      loadAligned_of_aligned⟩⟩
  case composed =>
    rw [extractLsb'_ofNat_leNat (eight_dvd_of_width hn) (length_readBytes _ _ _) (by simpa using hj),
      getElem_readBytes _ _ _ _ hj]
    exact load8_eq_ok.mpr ⟨by omega, rfl⟩

/-- Settles O12: in a canonical memory the bytes written are the slices of the value, and no other byte changes. -/
theorem storePrimitivesWriteBytes : Obligations.StorePrimitivesWriteBytes := by
  refine ⟨fun s a b hwf => ⟨store8_error, fun h => ⟨_, store8_ok h, ?byteWritten, fun c hc => ?byteFrame⟩⟩,
    fun s n a v hwf hn => ⟨storeUnaligned_error, fun h => ⟨_, storeUnaligned_ok h, fun j hj => ?written,
      fun c hc => ?frame⟩, storeAligned_of_misaligned, storeAligned_of_aligned⟩⟩
  case byteWritten => rw [read_write hwf, if_pos rfl]
  case byteFrame => rw [read_write hwf, if_neg hc]
  case written => rw [read_writeBytes_inside hwf (by simpa using hj), getElem_leBytes_toNat v hj]
  case frame => exact read_writeBytes_outside hwf (by simpa using hc)

/-! ### The fetch (R44) -/

section fetch
variable {s : State} {a : Word}

theorem fetchWord_of_misaligned (h : a.toNat % 4 ≠ 0) : fetchWord s a = .error (.fetchUnaligned, a) := by
  rw [fetchWord_eq, if_pos h]

theorem fetchWord_of_outside (h : a.toNat % 4 = 0) (hout : s.cfg.memSize < a.toNat + 4) :
    fetchWord s a = .error (.fetchUnmapped, a) := by
  rw [fetchWord_eq, if_neg (not_not.mpr h), if_pos hout]

theorem fetchWord_ok (h : a.toNat % 4 = 0) (hin : a.toNat + 4 ≤ s.cfg.memSize) :
    fetchWord s a = .ok (BitVec.ofNat 32 (leNat (s.mem.readBytes a.toNat 4))) := by
  rw [fetchWord_eq, if_neg (not_not.mpr h), if_neg (Nat.not_lt.mpr hin)]

/-- The word fetched, from its four bytes. -/
theorem fetchWord_of_load8 {b0 b1 b2 b3 : Byte} (h : a.toNat % 4 = 0) (h0 : s.load8 a.toNat = .ok b0)
    (h1 : s.load8 (a.toNat + 1) = .ok b1) (h2 : s.load8 (a.toNat + 2) = .ok b2)
    (h3 : s.load8 (a.toNat + 3) = .ok b3) : fetchWord s a = .ok (b3 ++ b2 ++ b1 ++ b0) := by
  rw [load8_eq_ok] at h0 h1 h2 h3
  rw [fetchWord_ok h (by omega), readBytes_four, h0.2, h1.2, h2.2, h3.2, leNat_four]

/-- A fetch that fails is a decoding that fails (R102). -/
theorem decodeAt_of_fetchWord_error {e : Cause × Word} (h : fetchWord s a = .error e) : decodeAt s a = .error e := by
  rw [decodeAt, h]

/-- A live core raises the fault of the fetch at its PC. -/
theorem step_raised_of_fetchWord_error {c : Cause} {info : Word} (hlive : s.fault = none)
    (h : fetchWord s s.pc = .error (c, info)) : Raised c info s (step s) := by
  rw [step_error hlive (decodeAt_of_fetchWord_error h)]
  exact raise_raised c info s
end fetch

/-- Settles O19: the fetch by its three cases, and the two faults raised by a live core. -/
theorem fetchFaultsOrReadsTheWord : Obligations.FetchFaultsOrReadsTheWord :=
  ⟨fun _ _ => ⟨fetchWord_of_misaligned, fetchWord_of_outside, fun _ _ _ _ => fetchWord_of_load8⟩,
    fun _ hlive => ⟨fun h => step_raised_of_fetchWord_error hlive (fetchWord_of_misaligned h),
      fun h hout => step_raised_of_fetchWord_error hlive (fetchWord_of_outside h hout)⟩⟩

end Sys2Proof.Machine

/-! The decoder row by row (R76 to R87): the sub-decoder an opcode selects, what a word of each row decodes to, and the
word of a decoded instruction. -/

namespace Sys2Proof.Machine

/-! ### The opcode selects the sub-decoder (R78) -/

section opcode
variable {w : Word}

theorem decodeWord_of_jalr (h : opcodeOf w = 0x67#7) : decodeWord w = decodeJalr w := by simp [decodeWord, h]
theorem decodeWord_of_branch (h : opcodeOf w = 0x63#7) : decodeWord w = decodeBranch w := by simp [decodeWord, h]
theorem decodeWord_of_load (h : opcodeOf w = 0x03#7) : decodeWord w = decodeLoad w := by simp [decodeWord, h]
theorem decodeWord_of_store (h : opcodeOf w = 0x23#7) : decodeWord w = decodeStore w := by simp [decodeWord, h]
theorem decodeWord_of_opImm (h : opcodeOf w = 0x13#7) : decodeWord w = decodeOpImm w := by simp [decodeWord, h]
theorem decodeWord_of_op (h : opcodeOf w = 0x33#7) : decodeWord w = decodeOp w := by simp [decodeWord, h]
theorem decodeWord_of_miscMem (h : opcodeOf w = 0x0F#7) : decodeWord w = decodeMiscMem w := by simp [decodeWord, h]
theorem decodeWord_of_system (h : opcodeOf w = 0x73#7) : decodeWord w = decodeSystem w := by simp [decodeWord, h]
end opcode

/-! ### What a word of each row decodes to

A mask fixes the fields that select: the opcode chooses the sub-decoder, `funct3` and `funct7` the instruction in it. -/

section masks
variable {p : Word} {f : Word → Instr} {sub : Word → Option Instr}

theorem decodesAs_of_funct3 (hsub : ∀ {w : Word}, opcodeOf w = opcodeOf p → decodeWord w = sub w)
    (hf : ∀ w : Word, funct3Of w = funct3Of p → sub w = some (f w)) : DecodesAs 0x0000707F#32 p f := by
  intro w h
  obtain ⟨hop, h3⟩ := fields_of_mask_funct3 h
  rw [hsub hop, hf w h3]

theorem decodesAs_of_funct7 (hsub : ∀ {w : Word}, opcodeOf w = opcodeOf p → decodeWord w = sub w)
    (hf : ∀ w : Word, funct3Of w = funct3Of p → funct7Of w = funct7Of p → sub w = some (f w)) :
    DecodesAs 0xFE00707F#32 p f := by
  intro w h
  obtain ⟨hop, h3, h7⟩ := fields_of_mask_funct7 h
  rw [hsub hop, hf w h3 h7]
end masks

/-! Upper immediates and control transfer (R78, R79) -/

theorem decodesAs_lui : DecodesAs 0x0000007F#32 0x00000037#32 fun w => .lui (rdOf w) (immUOf w) :=
  fun _ h => by rw [decodeWord, fields_of_mask_opcode h]; rfl
theorem decodesAs_auipc : DecodesAs 0x0000007F#32 0x00000017#32 fun w => .auipc (rdOf w) (immUOf w) :=
  fun _ h => by rw [decodeWord, fields_of_mask_opcode h]; rfl
theorem decodesAs_jal : DecodesAs 0x0000007F#32 0x0000006F#32 fun w => .jal (rdOf w) (immJOf w) :=
  fun _ h => by rw [decodeWord, fields_of_mask_opcode h]; rfl
theorem decodesAs_jalr : DecodesAs 0x0000707F#32 0x00000067#32 fun w => .jalr (rdOf w) (rs1Of w) (immIOf w) :=
  decodesAs_of_funct3 decodeWord_of_jalr fun w h3 => by rw [decodeJalr, h3]; rfl
theorem decodesAs_beq : DecodesAs 0x0000707F#32 0x00000063#32 fun w => .beq (rs1Of w) (rs2Of w) (immBOf w) :=
  decodesAs_of_funct3 decodeWord_of_branch fun w h3 => by rw [decodeBranch, h3]; rfl
theorem decodesAs_bne : DecodesAs 0x0000707F#32 0x00001063#32 fun w => .bne (rs1Of w) (rs2Of w) (immBOf w) :=
  decodesAs_of_funct3 decodeWord_of_branch fun w h3 => by rw [decodeBranch, h3]; rfl
theorem decodesAs_blt : DecodesAs 0x0000707F#32 0x00004063#32 fun w => .blt (rs1Of w) (rs2Of w) (immBOf w) :=
  decodesAs_of_funct3 decodeWord_of_branch fun w h3 => by rw [decodeBranch, h3]; rfl
theorem decodesAs_bge : DecodesAs 0x0000707F#32 0x00005063#32 fun w => .bge (rs1Of w) (rs2Of w) (immBOf w) :=
  decodesAs_of_funct3 decodeWord_of_branch fun w h3 => by rw [decodeBranch, h3]; rfl
theorem decodesAs_bltu : DecodesAs 0x0000707F#32 0x00006063#32 fun w => .bltu (rs1Of w) (rs2Of w) (immBOf w) :=
  decodesAs_of_funct3 decodeWord_of_branch fun w h3 => by rw [decodeBranch, h3]; rfl
theorem decodesAs_bgeu : DecodesAs 0x0000707F#32 0x00007063#32 fun w => .bgeu (rs1Of w) (rs2Of w) (immBOf w) :=
  decodesAs_of_funct3 decodeWord_of_branch fun w h3 => by rw [decodeBranch, h3]; rfl

/-! Loads and stores (R80, R81) -/

theorem decodesAs_lb : DecodesAs 0x0000707F#32 0x00000003#32 fun w => .lb (rdOf w) (rs1Of w) (immIOf w) :=
  decodesAs_of_funct3 decodeWord_of_load fun w h3 => by rw [decodeLoad, h3]; rfl
theorem decodesAs_lh : DecodesAs 0x0000707F#32 0x00001003#32 fun w => .lh (rdOf w) (rs1Of w) (immIOf w) :=
  decodesAs_of_funct3 decodeWord_of_load fun w h3 => by rw [decodeLoad, h3]; rfl
theorem decodesAs_lw : DecodesAs 0x0000707F#32 0x00002003#32 fun w => .lw (rdOf w) (rs1Of w) (immIOf w) :=
  decodesAs_of_funct3 decodeWord_of_load fun w h3 => by rw [decodeLoad, h3]; rfl
theorem decodesAs_lbu : DecodesAs 0x0000707F#32 0x00004003#32 fun w => .lbu (rdOf w) (rs1Of w) (immIOf w) :=
  decodesAs_of_funct3 decodeWord_of_load fun w h3 => by rw [decodeLoad, h3]; rfl
theorem decodesAs_lhu : DecodesAs 0x0000707F#32 0x00005003#32 fun w => .lhu (rdOf w) (rs1Of w) (immIOf w) :=
  decodesAs_of_funct3 decodeWord_of_load fun w h3 => by rw [decodeLoad, h3]; rfl
theorem decodesAs_sb : DecodesAs 0x0000707F#32 0x00000023#32 fun w => .sb (rs1Of w) (rs2Of w) (immSOf w) :=
  decodesAs_of_funct3 decodeWord_of_store fun w h3 => by rw [decodeStore, h3]; rfl
theorem decodesAs_sh : DecodesAs 0x0000707F#32 0x00001023#32 fun w => .sh (rs1Of w) (rs2Of w) (immSOf w) :=
  decodesAs_of_funct3 decodeWord_of_store fun w h3 => by rw [decodeStore, h3]; rfl
theorem decodesAs_sw : DecodesAs 0x0000707F#32 0x00002023#32 fun w => .sw (rs1Of w) (rs2Of w) (immSOf w) :=
  decodesAs_of_funct3 decodeWord_of_store fun w h3 => by rw [decodeStore, h3]; rfl

/-! OP-IMM (R82) -/

theorem decodesAs_addi : DecodesAs 0x0000707F#32 0x00000013#32 fun w => .addi (rdOf w) (rs1Of w) (immIOf w) :=
  decodesAs_of_funct3 decodeWord_of_opImm fun w h3 => by rw [decodeOpImm, h3]; rfl
theorem decodesAs_slti : DecodesAs 0x0000707F#32 0x00002013#32 fun w => .slti (rdOf w) (rs1Of w) (immIOf w) :=
  decodesAs_of_funct3 decodeWord_of_opImm fun w h3 => by rw [decodeOpImm, h3]; rfl
theorem decodesAs_sltiu : DecodesAs 0x0000707F#32 0x00003013#32 fun w => .sltiu (rdOf w) (rs1Of w) (immIOf w) :=
  decodesAs_of_funct3 decodeWord_of_opImm fun w h3 => by rw [decodeOpImm, h3]; rfl
theorem decodesAs_xori : DecodesAs 0x0000707F#32 0x00004013#32 fun w => .xori (rdOf w) (rs1Of w) (immIOf w) :=
  decodesAs_of_funct3 decodeWord_of_opImm fun w h3 => by rw [decodeOpImm, h3]; rfl
theorem decodesAs_ori : DecodesAs 0x0000707F#32 0x00006013#32 fun w => .ori (rdOf w) (rs1Of w) (immIOf w) :=
  decodesAs_of_funct3 decodeWord_of_opImm fun w h3 => by rw [decodeOpImm, h3]; rfl
theorem decodesAs_andi : DecodesAs 0x0000707F#32 0x00007013#32 fun w => .andi (rdOf w) (rs1Of w) (immIOf w) :=
  decodesAs_of_funct3 decodeWord_of_opImm fun w h3 => by rw [decodeOpImm, h3]; rfl
theorem decodesAs_slli : DecodesAs 0xFE00707F#32 0x00001013#32 fun w => .slli (rdOf w) (rs1Of w) (rs2Of w) :=
  decodesAs_of_funct7 decodeWord_of_opImm fun w h3 h7 => by rw [decodeOpImm, h3, h7]; rfl
theorem decodesAs_srli : DecodesAs 0xFE00707F#32 0x00005013#32 fun w => .srli (rdOf w) (rs1Of w) (rs2Of w) :=
  decodesAs_of_funct7 decodeWord_of_opImm fun w h3 h7 => by rw [decodeOpImm, h3, h7]; rfl
theorem decodesAs_srai : DecodesAs 0xFE00707F#32 0x40005013#32 fun w => .srai (rdOf w) (rs1Of w) (rs2Of w) :=
  decodesAs_of_funct7 decodeWord_of_opImm fun w h3 h7 => by rw [decodeOpImm, h3, h7]; rfl

/-! OP (R83) -/

theorem decodesAs_add : DecodesAs 0xFE00707F#32 0x00000033#32 fun w => .add (rdOf w) (rs1Of w) (rs2Of w) :=
  decodesAs_of_funct7 decodeWord_of_op fun w h3 h7 => by rw [decodeOp, h7, decodeOpBase, h3]; rfl
theorem decodesAs_sub : DecodesAs 0xFE00707F#32 0x40000033#32 fun w => .sub (rdOf w) (rs1Of w) (rs2Of w) :=
  decodesAs_of_funct7 decodeWord_of_op fun w h3 h7 => by rw [decodeOp, h7, h3]; rfl
theorem decodesAs_sll : DecodesAs 0xFE00707F#32 0x00001033#32 fun w => .sll (rdOf w) (rs1Of w) (rs2Of w) :=
  decodesAs_of_funct7 decodeWord_of_op fun w h3 h7 => by rw [decodeOp, h7, decodeOpBase, h3]; rfl
theorem decodesAs_slt : DecodesAs 0xFE00707F#32 0x00002033#32 fun w => .slt (rdOf w) (rs1Of w) (rs2Of w) :=
  decodesAs_of_funct7 decodeWord_of_op fun w h3 h7 => by rw [decodeOp, h7, decodeOpBase, h3]; rfl
theorem decodesAs_sltu : DecodesAs 0xFE00707F#32 0x00003033#32 fun w => .sltu (rdOf w) (rs1Of w) (rs2Of w) :=
  decodesAs_of_funct7 decodeWord_of_op fun w h3 h7 => by rw [decodeOp, h7, decodeOpBase, h3]; rfl
theorem decodesAs_xor : DecodesAs 0xFE00707F#32 0x00004033#32 fun w => .xor (rdOf w) (rs1Of w) (rs2Of w) :=
  decodesAs_of_funct7 decodeWord_of_op fun w h3 h7 => by rw [decodeOp, h7, decodeOpBase, h3]; rfl
theorem decodesAs_srl : DecodesAs 0xFE00707F#32 0x00005033#32 fun w => .srl (rdOf w) (rs1Of w) (rs2Of w) :=
  decodesAs_of_funct7 decodeWord_of_op fun w h3 h7 => by rw [decodeOp, h7, decodeOpBase, h3]; rfl
theorem decodesAs_sra : DecodesAs 0xFE00707F#32 0x40005033#32 fun w => .sra (rdOf w) (rs1Of w) (rs2Of w) :=
  decodesAs_of_funct7 decodeWord_of_op fun w h3 h7 => by rw [decodeOp, h7, h3]; rfl
theorem decodesAs_or : DecodesAs 0xFE00707F#32 0x00006033#32 fun w => .or (rdOf w) (rs1Of w) (rs2Of w) :=
  decodesAs_of_funct7 decodeWord_of_op fun w h3 h7 => by rw [decodeOp, h7, decodeOpBase, h3]; rfl
theorem decodesAs_and : DecodesAs 0xFE00707F#32 0x00007033#32 fun w => .and (rdOf w) (rs1Of w) (rs2Of w) :=
  decodesAs_of_funct7 decodeWord_of_op fun w h3 h7 => by rw [decodeOp, h7, decodeOpBase, h3]; rfl

/-! MISC-MEM and SYSTEM (R84) -/

theorem decodesAs_fence :
    DecodesAs 0x0000707F#32 0x0000000F#32 fun w =>
      .fence (w.extractLsb' 28 4) (w.extractLsb' 24 4) (w.extractLsb' 20 4) (rs1Of w) (rdOf w) :=
  decodesAs_of_funct3 decodeWord_of_miscMem fun w h3 => by rw [decodeMiscMem, h3]; rfl
theorem decodesAs_fenceI : DecodesAs 0x0000707F#32 0x0000100F#32 fun w => .fenceI (immIOf w) (rs1Of w) (rdOf w) :=
  decodesAs_of_funct3 decodeWord_of_miscMem fun w h3 => by rw [decodeMiscMem, h3]; rfl
theorem decodesAs_ecall : DecodesAs 0xFFFFFFFF#32 0x00000073#32 fun _ => .ecall :=
  fun w h => by rw [← and_mask_all w, h]; rfl
theorem decodesAs_ebreak : DecodesAs 0xFFFFFFFF#32 0x00100073#32 fun _ => .ebreak :=
  fun w h => by rw [← and_mask_all w, h]; rfl
theorem decodesAs_csrrw : DecodesAs 0x0000707F#32 0x00001073#32 fun w => .csrrw (rdOf w) (immIOf w) (rs1Of w) :=
  decodesAs_of_funct3 decodeWord_of_system fun w h3 => by rw [decodeSystem, h3]; rfl
theorem decodesAs_csrrs : DecodesAs 0x0000707F#32 0x00002073#32 fun w => .csrrs (rdOf w) (immIOf w) (rs1Of w) :=
  decodesAs_of_funct3 decodeWord_of_system fun w h3 => by rw [decodeSystem, h3]; rfl
theorem decodesAs_csrrc : DecodesAs 0x0000707F#32 0x00003073#32 fun w => .csrrc (rdOf w) (immIOf w) (rs1Of w) :=
  decodesAs_of_funct3 decodeWord_of_system fun w h3 => by rw [decodeSystem, h3]; rfl
theorem decodesAs_csrrwi : DecodesAs 0x0000707F#32 0x00005073#32 fun w => .csrrwi (rdOf w) (immIOf w) (rs1Of w) :=
  decodesAs_of_funct3 decodeWord_of_system fun w h3 => by rw [decodeSystem, h3]; rfl
theorem decodesAs_csrrsi : DecodesAs 0x0000707F#32 0x00006073#32 fun w => .csrrsi (rdOf w) (immIOf w) (rs1Of w) :=
  decodesAs_of_funct3 decodeWord_of_system fun w h3 => by rw [decodeSystem, h3]; rfl
theorem decodesAs_csrrci : DecodesAs 0x0000707F#32 0x00007073#32 fun w => .csrrci (rdOf w) (immIOf w) (rs1Of w) :=
  decodesAs_of_funct3 decodeWord_of_system fun w h3 => by rw [decodeSystem, h3]; rfl

/-! ### The word of a decoded instruction -/

/-- What a decoder answered for `w`, if it answered, is an instruction whose word is `w`. -/
def EncodesTo (w : Word) (o : Option Instr) : Prop := ∀ i, o = some i → encode i = w

section encodesTo
variable {w : Word} {i : Instr} {op : BitVec 7} {f3 : BitVec 3} {f7 : BitVec 7}

theorem encodesTo_none : EncodesTo w none := fun _ h => nomatch h

theorem encodesTo_some (h : encode i = w) : EncodesTo w (some i) := by
  rintro _ ⟨⟩
  exact h

/-- One test of a decoder. -/
theorem encodesTo_ite {c : Prop} [Decidable c] {a b : Option Instr} (ha : c → EncodesTo w a)
    (hb : ¬c → EncodesTo w b) : EncodesTo w (if c then a else b) := by
  by_cases hc : c
  · simpa only [if_pos hc] using ha hc
  · simpa only [if_neg hc] using hb hc

/-! By format, an instruction made of the fields of `w` has the word `w`, once the tested fields are the format's. -/

theorem encodesTo_formatR (hi : encode i = encodeR f7 (rs2Of w) (rs1Of w) f3 (rdOf w) op) (hop : opcodeOf w = op)
    (h3 : funct3Of w = f3) (h7 : funct7Of w = f7) : EncodesTo w (some i) := by
  subst hop h3 h7
  exact encodesTo_some (hi.trans (encodeR_fields w))

theorem encodesTo_formatI (hi : encode i = encodeI (immIOf w) (rs1Of w) f3 (rdOf w) op) (hop : opcodeOf w = op)
    (h3 : funct3Of w = f3) : EncodesTo w (some i) := by
  subst hop h3
  exact encodesTo_some (hi.trans (encodeI_fields w))

theorem encodesTo_formatS (hi : encode i = encodeS (immSOf w) (rs2Of w) (rs1Of w) f3 op) (hop : opcodeOf w = op)
    (h3 : funct3Of w = f3) : EncodesTo w (some i) := by
  subst hop h3
  exact encodesTo_some (hi.trans (encodeS_fields w))

theorem encodesTo_formatB (hi : encode i = encodeB (immBOf w) (rs2Of w) (rs1Of w) f3 op) (hop : opcodeOf w = op)
    (h3 : funct3Of w = f3) : EncodesTo w (some i) := by
  subst hop h3
  exact encodesTo_some (hi.trans (encodeB_fields w))

theorem encodesTo_formatU (hi : encode i = encodeU (immUOf w) (rdOf w) op) (hop : opcodeOf w = op) :
    EncodesTo w (some i) := by
  subst hop
  exact encodesTo_some (hi.trans (encodeU_fields w))

theorem encodesTo_formatJ (hi : encode i = encodeJ (immJOf w) (rdOf w) op) (hop : opcodeOf w = op) :
    EncodesTo w (some i) := by
  subst hop
  exact encodesTo_some (hi.trans (encodeJ_fields w))

/-! By sub-decoder, test after test. -/

theorem encodesTo_decodeJalr (hop : opcodeOf w = 0x67#7) : EncodesTo w (decodeJalr w) :=
  encodesTo_ite (encodesTo_formatI rfl hop) fun _ => encodesTo_none

theorem encodesTo_decodeBranch (hop : opcodeOf w = 0x63#7) : EncodesTo w (decodeBranch w) := by
  unfold decodeBranch
  iterate 6 refine encodesTo_ite (encodesTo_formatB rfl hop) fun _ => ?_
  exact encodesTo_none

theorem encodesTo_decodeLoad (hop : opcodeOf w = 0x03#7) : EncodesTo w (decodeLoad w) := by
  unfold decodeLoad
  iterate 5 refine encodesTo_ite (encodesTo_formatI rfl hop) fun _ => ?_
  exact encodesTo_none

theorem encodesTo_decodeStore (hop : opcodeOf w = 0x23#7) : EncodesTo w (decodeStore w) := by
  unfold decodeStore
  iterate 3 refine encodesTo_ite (encodesTo_formatS rfl hop) fun _ => ?_
  exact encodesTo_none

theorem encodesTo_decodeOpImm (hop : opcodeOf w = 0x13#7) : EncodesTo w (decodeOpImm w) := by
  -- the seven values tested leave `funct3 = 5` to the last branch
  unfold decodeOpImm
  iterate 6 refine encodesTo_ite (encodesTo_formatI rfl hop) fun _ => ?_
  refine encodesTo_ite (fun h1 => encodesTo_ite (encodesTo_formatR rfl hop h1) fun _ => encodesTo_none) fun _ => ?_
  have h5 : funct3Of w = 5#3 := by bv_omega
  iterate 2 refine encodesTo_ite (encodesTo_formatR rfl hop h5) fun _ => ?_
  exact encodesTo_none

theorem encodesTo_decodeOpBase (hop : opcodeOf w = 0x33#7) (hf7 : funct7Of w = 0#7) :
    EncodesTo w (decodeOpBase w) := by
  -- the seven values tested leave `funct3 = 7` to the last branch
  unfold decodeOpBase
  iterate 7 refine encodesTo_ite (fun h3 => encodesTo_formatR rfl hop h3 hf7) fun _ => ?_
  have h7 : funct3Of w = 7#3 := by bv_omega
  exact encodesTo_formatR rfl hop h7 hf7

theorem encodesTo_decodeOp (hop : opcodeOf w = 0x33#7) : EncodesTo w (decodeOp w) := by
  unfold decodeOp
  refine encodesTo_ite (encodesTo_decodeOpBase hop) fun _ => encodesTo_ite (fun hf7 => ?_) fun _ => encodesTo_none
  iterate 2 refine encodesTo_ite (fun h3 => encodesTo_formatR rfl hop h3 hf7) fun _ => ?_
  exact encodesTo_none

theorem encodesTo_decodeMiscMem (hop : opcodeOf w = 0x0F#7) : EncodesTo w (decodeMiscMem w) := by
  unfold decodeMiscMem
  refine encodesTo_ite (fun h3 => encodesTo_some (encodeFence_fields w h3 hop)) fun _ => ?_
  exact encodesTo_ite (encodesTo_formatI rfl hop) fun _ => encodesTo_none

theorem encodesTo_decodeSystem (hop : opcodeOf w = 0x73#7) : EncodesTo w (decodeSystem w) := by
  unfold decodeSystem
  refine encodesTo_ite (fun _ => ?exactWords) fun _ => ?csr
  case exactWords =>
    exact encodesTo_ite (fun hw => encodesTo_some hw.symm) fun _ =>
      encodesTo_ite (fun hw => encodesTo_some hw.symm) fun _ => encodesTo_none
  case csr =>
    iterate 6 refine encodesTo_ite (encodesTo_formatI rfl hop) fun _ => ?_
    exact encodesTo_none

theorem encodesTo_decodeWord : EncodesTo w (decodeWord w) := by
  unfold decodeWord
  iterate 2 refine encodesTo_ite (encodesTo_formatU rfl) fun _ => ?_
  refine encodesTo_ite (encodesTo_formatJ rfl) fun _ => ?_
  refine encodesTo_ite encodesTo_decodeJalr fun _ => encodesTo_ite encodesTo_decodeBranch fun _ => ?_
  refine encodesTo_ite encodesTo_decodeLoad fun _ => encodesTo_ite encodesTo_decodeStore fun _ => ?_
  refine encodesTo_ite encodesTo_decodeOpImm fun _ => encodesTo_ite encodesTo_decodeOp fun _ => ?_
  refine encodesTo_ite encodesTo_decodeMiscMem fun _ => encodesTo_ite encodesTo_decodeSystem fun _ => ?_
  exact encodesTo_none

/-- The encoder gives back every word that decodes (R87): no bit of it is lost. -/
theorem encode_of_decodeWord (h : decodeWord w = some i) : encode i = w := encodesTo_decodeWord i h
end encodesTo

/-! ### The table (R87) -/

theorem matchesWord_iff {r : OpcodeRow} {w : Word} : r.matchesWord w = true ↔ w &&& r.mask = r.pattern :=
  decide_eq_true_iff

/-- Every word that matches the row decodes, to an instruction of the row's mnemonic and tier. -/
def RowDecodes (r : OpcodeRow) : Prop :=
  ∀ w : Word, r.matchesWord w = true → ∃ i, decodeWord w = some i ∧ i.mnemonic = r.mnemonic ∧ i.tier = r.tier

theorem RowDecodes.of_decodesAs {r : OpcodeRow} {f : Word → Instr} (h : DecodesAs r.mask r.pattern f)
    (hf : ∀ w, (f w).mnemonic = r.mnemonic ∧ (f w).tier = r.tier := by exact fun _ => ⟨rfl, rfl⟩) : RowDecodes r :=
  fun w hw => ⟨f w, h w (matchesWord_iff.mp hw), hf w⟩

theorem rowDecodes_opcodeRowsControl : ∀ r ∈ opcodeRowsControl, RowDecodes r := by
  simp only [opcodeRowsControl, List.forall_mem_cons]
  exact ⟨.of_decodesAs decodesAs_lui, .of_decodesAs decodesAs_auipc, .of_decodesAs decodesAs_jal,
    .of_decodesAs decodesAs_jalr, .of_decodesAs decodesAs_beq, .of_decodesAs decodesAs_bne,
    .of_decodesAs decodesAs_blt, .of_decodesAs decodesAs_bge, .of_decodesAs decodesAs_bltu,
    .of_decodesAs decodesAs_bgeu, List.forall_mem_nil _⟩

theorem rowDecodes_opcodeRowsMemory : ∀ r ∈ opcodeRowsMemory, RowDecodes r := by
  simp only [opcodeRowsMemory, List.forall_mem_cons]
  exact ⟨.of_decodesAs decodesAs_lb, .of_decodesAs decodesAs_lh, .of_decodesAs decodesAs_lw,
    .of_decodesAs decodesAs_lbu, .of_decodesAs decodesAs_lhu, .of_decodesAs decodesAs_sb, .of_decodesAs decodesAs_sh,
    .of_decodesAs decodesAs_sw, List.forall_mem_nil _⟩

theorem rowDecodes_opcodeRowsOpImm : ∀ r ∈ opcodeRowsOpImm, RowDecodes r := by
  simp only [opcodeRowsOpImm, List.forall_mem_cons]
  exact ⟨.of_decodesAs decodesAs_addi, .of_decodesAs decodesAs_slti, .of_decodesAs decodesAs_sltiu,
    .of_decodesAs decodesAs_xori, .of_decodesAs decodesAs_ori, .of_decodesAs decodesAs_andi,
    .of_decodesAs decodesAs_slli, .of_decodesAs decodesAs_srli, .of_decodesAs decodesAs_srai, List.forall_mem_nil _⟩

theorem rowDecodes_opcodeRowsOp : ∀ r ∈ opcodeRowsOp, RowDecodes r := by
  simp only [opcodeRowsOp, List.forall_mem_cons]
  exact ⟨.of_decodesAs decodesAs_add, .of_decodesAs decodesAs_sub, .of_decodesAs decodesAs_sll,
    .of_decodesAs decodesAs_slt, .of_decodesAs decodesAs_sltu, .of_decodesAs decodesAs_xor,
    .of_decodesAs decodesAs_srl, .of_decodesAs decodesAs_sra, .of_decodesAs decodesAs_or,
    .of_decodesAs decodesAs_and, List.forall_mem_nil _⟩

theorem rowDecodes_opcodeRowsSystem : ∀ r ∈ opcodeRowsSystem, RowDecodes r := by
  simp only [opcodeRowsSystem, List.forall_mem_cons]
  exact ⟨.of_decodesAs decodesAs_fence, .of_decodesAs decodesAs_fenceI, .of_decodesAs decodesAs_ecall,
    .of_decodesAs decodesAs_ebreak, .of_decodesAs decodesAs_csrrw, .of_decodesAs decodesAs_csrrs,
    .of_decodesAs decodesAs_csrrc, .of_decodesAs decodesAs_csrrwi, .of_decodesAs decodesAs_csrrsi,
    .of_decodesAs decodesAs_csrrci, List.forall_mem_nil _⟩

theorem rowDecodes_opcodeTable : ∀ r ∈ opcodeTable, RowDecodes r := by
  simp only [opcodeTable, List.forall_mem_append]
  exact ⟨⟨⟨⟨rowDecodes_opcodeRowsControl, rowDecodes_opcodeRowsMemory⟩, rowDecodes_opcodeRowsOpImm⟩,
    rowDecodes_opcodeRowsOp⟩, rowDecodes_opcodeRowsSystem⟩

/-- Any two rows differ in a bit that both masks test. -/
theorem opcodeTable_disjoint :
    ∀ r ∈ opcodeTable, ∀ q ∈ opcodeTable, r.pattern &&& q.mask = q.pattern &&& r.mask → r = q := by decide

theorem row_unique {w : Word} {r q : OpcodeRow} (hr : r ∈ opcodeTable) (hq : q ∈ opcodeTable)
    (hrw : r.matchesWord w = true) (hqw : q.matchesWord w = true) : r = q := by
  apply opcodeTable_disjoint r hr q hq
  calc r.pattern &&& q.mask = w &&& r.mask &&& q.mask := by rw [matchesWord_iff.mp hrw]
    _ = w &&& q.mask &&& r.mask := by rw [BitVec.and_assoc, BitVec.and_comm r.mask, ← BitVec.and_assoc]
    _ = q.pattern &&& r.mask := by rw [matchesWord_iff.mp hqw]

section
open Laws

/-- The word of every instruction matches a row, that of its mnemonic and tier. -/
theorem tableRow_statement (i : Instr) : TableRow.Statement i := by
  cases i
  exacts [TableRow.lui _ _, TableRow.auipc _ _, TableRow.jal _ _, TableRow.jalr _ _ _, TableRow.beq _ _ _,
    TableRow.bne _ _ _, TableRow.blt _ _ _, TableRow.bge _ _ _, TableRow.bltu _ _ _, TableRow.bgeu _ _ _,
    TableRow.lb _ _ _, TableRow.lh _ _ _, TableRow.lw _ _ _, TableRow.lbu _ _ _, TableRow.lhu _ _ _,
    TableRow.sb _ _ _, TableRow.sh _ _ _, TableRow.sw _ _ _, TableRow.addi _ _ _, TableRow.slti _ _ _,
    TableRow.sltiu _ _ _, TableRow.xori _ _ _, TableRow.ori _ _ _, TableRow.andi _ _ _, TableRow.slli _ _ _,
    TableRow.srli _ _ _, TableRow.srai _ _ _, TableRow.add _ _ _, TableRow.sub _ _ _, TableRow.sll _ _ _,
    TableRow.slt _ _ _, TableRow.sltu _ _ _, TableRow.xor _ _ _, TableRow.srl _ _ _, TableRow.sra _ _ _,
    TableRow.or _ _ _, TableRow.and _ _ _, TableRow.fence _ _ _ _ _, TableRow.fenceI _ _ _, TableRow.ecall,
    TableRow.ebreak, TableRow.csrrw _ _ _, TableRow.csrrs _ _ _, TableRow.csrrc _ _ _, TableRow.csrrwi _ _ _,
    TableRow.csrrsi _ _ _, TableRow.csrrci _ _ _]
end

theorem exists_row_of_decodeWord {w : Word} {i : Instr} (h : decodeWord w = some i) :
    ∃ r ∈ opcodeTable, r.matchesWord w = true := by
  obtain ⟨r, hr, -, -, hmatch⟩ := tableRow_statement i
  exact ⟨r, hr, matchesWord_iff.mpr (encode_of_decodeWord h ▸ hmatch)⟩

/-- The decoder fails on exactly the words that match no row (R85, R87). -/
theorem decodeWord_eq_none_iff (w : Word) :
    decodeWord w = none ↔ ∀ r ∈ opcodeTable, r.matchesWord w = false := by
  constructor
  · intro hnone r hr
    by_contra hmatch
    obtain ⟨i, hi, -⟩ := rowDecodes_opcodeTable r hr w (Bool.eq_true_of_not_eq_false hmatch)
    simp [hi] at hnone
  · intro hno
    by_contra hsome
    obtain ⟨i, hi⟩ := Option.ne_none_iff_exists'.mp hsome
    obtain ⟨r, hr, hmatch⟩ := exists_row_of_decodeWord hi
    simp [hno r hr] at hmatch

/-- Settles O3: each row decodes to its own instruction, the rows' tested bits are apart, and the word of whatever the
decoder answers matches a row. -/
theorem decoderFollowsOpcodeTable : Obligations.DecoderFollowsOpcodeTable :=
  ⟨rfl, fun w => ⟨fun r hr => rowDecodes_opcodeTable r hr w, fun _ hr _ hq => row_unique hr hq,
    decodeWord_eq_none_iff w⟩⟩

end Sys2Proof.Machine

/-! The words that decode to nothing (R85). -/

namespace Sys2Proof.Machine

/-- The opcodes of R78. -/
def majorOpcodes : List (BitVec 7) :=
  [0x37#7, 0x17#7, 0x6F#7, 0x67#7, 0x63#7, 0x03#7, 0x23#7, 0x13#7, 0x33#7, 0x0F#7, 0x73#7]

theorem decodeWord_of_opcode_not_mem {w : Word} (h : opcodeOf w ∉ majorOpcodes) : decodeWord w = none := by
  simp only [majorOpcodes, List.mem_cons, not_or] at h
  simp [decodeWord, h]

theorem lowBits_of_mem_majorOpcodes : ∀ op ∈ majorOpcodes, op.extractLsb' 0 2 = 0b11#2 := by decide

theorem lowBits_opcodeOf (w : Word) : (opcodeOf w).extractLsb' 0 2 = w.extractLsb' 0 2 :=
  BitVec.extractLsb'_extractLsb'_of_le (by decide)

/-- Every opcode of R78 ends in `0b11`. -/
theorem decodeWord_of_lowBits {w : Word} (h : w.extractLsb' 0 2 ≠ 0b11#2) : decodeWord w = none :=
  decodeWord_of_opcode_not_mem fun hmem => h (lowBits_opcodeOf w ▸ lowBits_of_mem_majorOpcodes _ hmem)

/-- A fetched word is refused exactly when the decoder fails on it (R76, R85). -/
theorem decodeAt_illegal_iff {s : State} {a w : Word} (h : fetchWord s a = .ok w) :
    decodeAt s a = .error (.illegal, w) ↔ decodeWord w = none := by
  simp only [decodeAt, h]
  cases decodeWord w <;> simp

/-- Settles O4: the decoder fails on the words outside the table, a live core then raises, and the classes of R85 case by
case through the sub-decoders. -/
theorem illegalWordsRaiseIllegal : Obligations.IllegalWordsRaiseIllegal := by
  refine ⟨fun s w hlive hfetch => ?fetched, fun w => ⟨decodeWord_of_lowBits, decodeWord_of_opcode_not_mem, ?jalr,
    ?branch, ?load, ?store, ?shiftLeft, ?shiftRight, ?op, ?miscMem, ?csrFunct3, ?exactWords⟩⟩
  case fetched =>
    have hillegal := (decodeAt_illegal_iff hfetch).trans (decodeWord_eq_none_iff w)
    refine ⟨hillegal, fun hno => ?_⟩
    rw [step_error hlive (hillegal.mpr hno)]
    exact raise_raised .illegal w s
  case jalr =>
    intro hop h3
    rw [decodeWord_of_jalr hop, decodeJalr, if_neg h3]
  case branch => rintro hop (h3 | h3) <;> simp [decodeWord_of_branch hop, decodeBranch, h3]
  case load => rintro hop (h3 | h3 | h3) <;> simp [decodeWord_of_load hop, decodeLoad, h3]
  case store =>
    intro hop h3
    rw [decodeWord_of_store hop, decodeStore, if_neg (by bv_omega), if_neg (by bv_omega), if_neg (by bv_omega)]
  case shiftLeft =>
    intro hop h3 h7
    simp [decodeWord_of_opImm hop, decodeOpImm, h3, h7]
  case shiftRight =>
    intro hop h3 h0 h32
    simp [decodeWord_of_opImm hop, decodeOpImm, h3, h0, h32]
  case op =>
    intro hop h0 hpair
    rw [decodeWord_of_op hop, decodeOp, if_neg h0]
    by_cases h32 : funct7Of w = 0x20#7
    · obtain ⟨h3, h3'⟩ := not_or.mp fun h3 => hpair ⟨h32, h3⟩
      rw [if_pos h32, if_neg h3, if_neg h3']
    · exact if_neg h32
  case miscMem =>
    intro hop h3
    rw [decodeWord_of_miscMem hop, decodeMiscMem, if_neg (by bv_omega), if_neg (by bv_omega)]
  case csrFunct3 =>
    intro hop h3
    simp [decodeWord_of_system hop, decodeSystem, h3]
  case exactWords =>
    intro hop h3 hcall hbreak
    rw [decodeWord_of_system hop, decodeSystem, if_pos h3, if_neg hcall, if_neg hbreak]

end Sys2Proof.Machine

/-! The source's bit primitives (R60, R61) on numbers and on bits. -/

namespace Sys2Proof.Machine

/-- The mask of `extract_bits`: `n` ones, up to the full width, where the shifted 1 leaves the word. -/
theorem toNat_lowMask {n : Nat} (h : n ≤ 32) : ((1#32 <<< n) - 1#32).toNat = 2 ^ n - 1 := by
  obtain rfl | hlt := Nat.eq_or_lt_of_le h
  · rfl
  · have hpos : 0 < 2 ^ n := Nat.two_pow_pos n
    have hpow : 2 ^ n < 2 ^ 32 := Nat.pow_lt_pow_right (by decide) hlt
    have hshift : (1#32 <<< n).toNat = 2 ^ n := by
      rw [BitVec.toNat_shiftLeft, Nat.shiftLeft_eq]
      exact (congrArg (· % 2 ^ 32) (Nat.one_mul _)).trans (Nat.mod_eq_of_lt hpow)
    rw [BitVec.toNat_sub, hshift]
    simp only [BitVec.toNat_ofNat]
    omega

/-- `extract_bits` as a number (R60). -/
theorem toNat_extractBits {lo hi : Nat} (w : Word) (hle : lo ≤ hi) (hhi : hi < 32) :
    (extractBits w lo hi).toNat = w.toNat / 2 ^ lo % 2 ^ (hi - lo + 1) := by
  rw [extractBits, BitVec.toNat_and, BitVec.toNat_ushiftRight, toNat_lowMask (by omega),
    Nat.and_two_pow_sub_one_eq_mod, Nat.shiftRight_eq_div_pow]

/-- Settles O7: masking with ones is a remainder, and the source's example is one case. -/
theorem extractBitsIsTheBitRange : Obligations.ExtractBitsIsTheBitRange :=
  ⟨fun w _ _ => toNat_extractBits w, by decide⟩

/-- The bits of `sext_field` (R61). -/
theorem getLsbD_sextField (v : Word) {k j : Nat} (hk : 1 ≤ k) (hj : j < 32) :
    (sextField v k).getLsbD j = if j < k then v.getLsbD j else v.getLsbD (k - 1) := by
  rw [sextField, BitVec.getLsbD_signExtend, BitVec.msb_setWidth, BitVec.getLsbD_setWidth]
  by_cases hjk : j < k
  · simp [hj, hjk]
  · simp [hj, hjk, Nat.lt_of_lt_of_le Nat.zero_lt_one hk]

/-- Every bit of the extended value is one that the extension copies from itself (R61). -/
theorem sextField_idem (v : Word) {k : Nat} (hk : 1 ≤ k) (hk' : k ≤ 32) :
    sextField (sextField v k) k = sextField v k := by
  apply BitVec.eq_of_getLsbD_eq
  intro j hj
  have htop : (sextField v k).getLsbD (k - 1) = v.getLsbD (k - 1) := by
    rw [getLsbD_sextField v hk (by omega), if_pos (by omega)]
  rw [getLsbD_sextField _ hk hj, htop, getLsbD_sextField v hk hj]
  split <;> rfl

/-- At the native width nothing is left to extend (R61, D1). -/
@[simp] theorem sextField_full (v : Word) : sextField v 32 = v := by
  rw [sextField, BitVec.setWidth_eq, BitVec.signExtend_eq]

/-- Settles O8: bit by bit, from which idempotence follows. -/
theorem sextFieldCopiesTheTopBit : Obligations.SextFieldCopiesTheTopBit :=
  ⟨fun v _ hk hk' => ⟨fun _ => getLsbD_sextField v hk, sextField_idem v hk hk'⟩, sextField_full, by decide⟩

end Sys2Proof.Machine

/-! The step cycle (R100 to R109): what decoding at the PC answers, the fault that is pending there, and what a fault or a
completed instruction does to the PC. -/

namespace Sys2Proof.Machine

/-! ### Decoding at an address (R102, R103) -/

section decoding
variable {s : State} {a w : Word} {i : Instr}

/-- The fetch precedes the classification (R102): an instruction is decoded from the word that was fetched. -/
theorem decodeAt_ok_iff (h : fetchWord s a = .ok w) : decodeAt s a = .ok i ↔ decodeWord w = some i := by
  simp only [decodeAt, h]
  cases decodeWord w <;> simp

/-- The bytes of the interface and the word of the fetch decode alike (R65, R76). -/
theorem decodeWord_of_decodeBytes {m : Memory} {A : Nat} {rest : List Byte}
    (h : decodeBytes (m.readBytes A 4) = .ok (i, rest)) :
    decodeWord (BitVec.ofNat 32 (leNat (m.readBytes A 4))) = some i := by
  rw [readBytes_four] at h ⊢
  rw [decodeBytes_four] at h
  split at h
  case h_1 j hw => cases h; exact hw
  case h_2 => cases h
end decoding

/-- Settles O16: the word of the four bytes is the one fetched, and the step is `exec` of what it decodes to. -/
theorem stepRunsDecodedInstruction : Obligations.StepRunsDecodedInstruction := by
  intro s i rest hlive halign hin hbytes
  exact step_ok hlive ((decodeAt_ok_iff (fetchWord_ok halign hin)).mpr (decodeWord_of_decodeBytes hbytes))

/-- The fetch reads nothing but the four bytes at its address; that they exist is read off the last of them. -/
theorem fetchWord_congr {s s' : State} {a : Word} (h : ∀ j, j < 4 → s'.load8 (a.toNat + j) = s.load8 (a.toNat + j)) :
    fetchWord s' a = fetchWord s a := by
  by_cases halign : a.toNat % 4 = 0
  · by_cases hin : a.toNat + 4 ≤ s.cfg.memSize
    · have hload : ∀ j, j < 4 → s.load8 (a.toNat + j) = .ok (s.mem.read (a.toNat + j)) :=
        fun j hj => load8_eq_ok.mpr ⟨by omega, rfl⟩
      have hload' := fun j hj => (h j hj).trans (hload j hj)
      rw [fetchWord_of_load8 halign (hload 0 (by decide)) (hload 1 (by decide)) (hload 2 (by decide))
          (hload 3 (by decide)),
        fetchWord_of_load8 halign (hload' 0 (by decide)) (hload' 1 (by decide)) (hload' 2 (by decide))
          (hload' 3 (by decide))]
    · have hout : s'.cfg.memSize < a.toNat + 4 := by
        by_contra hin'
        have hlast := (h 3 (by decide)).symm.trans (load8_eq_ok.mpr ⟨by omega, rfl⟩)
        have hlt : a.toNat + 3 < s.cfg.memSize := (load8_eq_ok.mp hlast).1
        omega
      rw [fetchWord_of_outside halign hout, fetchWord_of_outside halign (Nat.not_le.mp hin)]
  · rw [fetchWord_of_misaligned halign, fetchWord_of_misaligned halign]

/-- Settles O21: decoding reads the state through the fetch only, and the fetch through the four bytes only. -/
theorem decodeDependsOnTheBytesOnly : Obligations.DecodeDependsOnTheBytesOnly := by
  intro s s' a h
  rw [decodeAt, decodeAt, fetchWord_congr h]

/-! ### The pending fault (R200, R203) -/

section pending
variable {s : State} {i : Instr}

/-- With nothing wrong in the fetch, the pending fault is that of the word at the PC. -/
theorem pendingFault_of_illegal (halign : s.pc.toNat % 4 = 0) (hin : s.pc.toNat + 4 ≤ s.cfg.memSize)
    (hw : decodeWord (wordAtPc s) = none) : pendingFault s = some (.illegal, wordAtPc s) := by
  rw [pendingFault, if_neg (not_not.mpr halign), if_neg (Nat.not_lt.mpr hin), hw]

/-- `pendingFault` records the word at the PC where `execFault` records the encoding of the instruction: the same word. -/
theorem pendingFault_of_decodeWord (halign : s.pc.toNat % 4 = 0) (hin : s.pc.toNat + 4 ≤ s.cfg.memSize)
    (hw : decodeWord (wordAtPc s) = some i) : pendingFault s = execFault i s := by
  rw [pendingFault, if_neg (not_not.mpr halign), if_neg (Nat.not_lt.mpr hin), hw, ← encode_of_decodeWord hw]
  rfl

/-- Everything that can be pending: the fault of the fetch, the illegal word, or the fault of the decoded instruction. -/
theorem pendingFault_cases (s : State) :
    (∃ c info, decodeAt s s.pc = .error (c, info) ∧ pendingFault s = some (c, info)) ∨
    ∃ i, decodeAt s s.pc = .ok i ∧ pendingFault s = execFault i s := by
  by_cases halign : s.pc.toNat % 4 = 0
  · by_cases hin : s.pc.toNat + 4 ≤ s.cfg.memSize
    · have hfetch : fetchWord s s.pc = .ok (wordAtPc s) := fetchWord_ok halign hin
      cases hw : decodeWord (wordAtPc s) with
      | none => exact .inl ⟨_, _, (decodeAt_illegal_iff hfetch).mpr hw, pendingFault_of_illegal halign hin hw⟩
      | some i => exact .inr ⟨i, (decodeAt_ok_iff hfetch).mpr hw, pendingFault_of_decodeWord halign hin hw⟩
    · have hout : s.cfg.memSize < s.pc.toNat + 4 := Nat.not_le.mp hin
      refine .inl ⟨_, _, decodeAt_of_fetchWord_error (fetchWord_of_outside halign hout), ?_⟩
      rw [pendingFault, if_neg (not_not.mpr halign), if_pos hout]
  · refine .inl ⟨_, _, decodeAt_of_fetchWord_error (fetchWord_of_misaligned halign), ?_⟩
    rw [pendingFault, if_pos halign]

/-- A live step raises the fault that is pending. -/
theorem step_of_pendingFault {c : Cause} {info : Word} (hlive : s.fault = none)
    (h : pendingFault s = some (c, info)) : step s = raise c info s := by
  obtain ⟨c', info', hdec, hpend⟩ | ⟨i, hdec, hpend⟩ := pendingFault_cases s
  · obtain ⟨rfl, rfl⟩ : c' = c ∧ info' = info := by simpa [h, eq_comm] using hpend
    exact step_error hlive hdec
  · rw [step_ok hlive hdec, (exec_cases i s).1 c info (hpend ▸ h)]

/-- A live step with no fault pending completes the instruction at the PC. -/
theorem step_of_no_pendingFault (hlive : s.fault = none) (h : pendingFault s = none) :
    ∃ i t, decodeAt s s.pc = .ok i ∧ step s = .next t ∧ Quiet i s t := by
  obtain ⟨c, info, -, hpend⟩ | ⟨i, hdec, hpend⟩ := pendingFault_cases s
  · simp [h] at hpend
  · obtain ⟨t, hexec, hquiet, -⟩ := (exec_cases i s).2 (hpend ▸ h)
    exact ⟨i, t, hdec, (step_ok hlive hdec).trans hexec, hquiet⟩
end pending

/-- Settles O42: `pendingFault` names what the decoding at the PC or the decoded instruction raises. -/
theorem stepRaisesExactlyThePendingFault : Obligations.StepRaisesExactlyThePendingFault := by
  refine fun s hlive => ⟨fun c info hpend => ?raises, fun hpend => ?completes⟩
  case raises =>
    rw [step_of_pendingFault hlive hpend]
    exact raise_raised c info s
  case completes =>
    obtain ⟨i, t, -, hstep, -, hfault, hsink, -⟩ := step_of_no_pendingFault hlive hpend
    exact ⟨t, hstep, hfault.trans hlive, hsink⟩

/-! ### What a fault leaves of the PC and the latch (R210, R211), and the sequence (R106) -/

section faults
variable {s t : State} {c : Cause} {info : Word} {r : FaultRecord}

/-- With `TRAP_MODE = halt` every raise sets the latch (R210). -/
theorem raise_sets_latch (hhalt : s.cfg.trapMode = .halt) (h : raise c info s = .next t) :
    t.fault = some ⟨c, s.pc, info⟩ := by
  obtain ⟨-, -, -, -, ⟨-, hfault, -⟩ | ⟨v, codes, sink, hvector, -⟩⟩ := raise_next h
  · exact hfault
  · rw [hhalt] at hvector
    cases hvector

/-- A raise that sets the latch of a live core is one with `TRAP_MODE = halt`, which leaves the PC slot and the sink alone
(R211); with `TRAP_MODE = vector` the latch stays clear (R212). -/
theorem raise_precise (hlive : s.fault = none) (h : raise c info s = .next t) (hr : t.fault = some r) :
    SameRegs s t ∧ t.mem = s.mem ∧ t.pc = s.pc ∧ t.diag = s.diag ∧ t.cfg = s.cfg ∧ t.causeSink = s.causeSink ∧
      r.faultPc = s.pc := by
  obtain ⟨hcfg, hgpr, hmem, hdiag, ⟨-, hfault, hpc, hsink⟩ | ⟨v, codes, sink, -, hfault, -⟩⟩ := raise_next h
  · obtain rfl : ⟨c, s.pc, info⟩ = r := Option.some.inj (hfault.symm.trans hr)
    exact ⟨fun _ => by simp only [State.readReg, hgpr], hmem, hpc, hdiag, hcfg, hsink, rfl⟩
  · simp [hfault, hlive] at hr
end faults

/-- Settles O43: a step that sets the latch had a fault pending, since a completed instruction leaves the latch clear. -/
theorem faultsArePrecise : Obligations.FaultsArePrecise := by
  intro s t r hlive hstep hr
  cases hpend : pendingFault s with
  | some e => exact raise_precise hlive ((step_of_pendingFault hlive hpend).symm.trans hstep) hr
  | none =>
    obtain ⟨i, u, -, hu, -, hfault, -⟩ := step_of_no_pendingFault hlive hpend
    obtain rfl : t = u := by simpa [hstep] using hu
    simp [hfault, hlive] at hr

/-- Settles O46: an instruction that leaves the latch clear raised nothing, so it completed and advanced the PC. -/
theorem onlyControlTransfersLeaveTheSequence : Obligations.OnlyControlTransfersLeaveTheSequence := by
  intro s t i hhalt _ hseq hexec hclear
  obtain ⟨hraise, hcomplete⟩ := exec_cases i s
  cases hfault : execFault i s with
  | some e =>
    have hlatch := raise_sets_latch hhalt ((hraise e.1 e.2 hfault).symm.trans hexec)
    simp [hclear] at hlatch
  | none =>
    obtain ⟨u, hu, ⟨-, -, -, -, hpc, -⟩, -⟩ := hcomplete hfault
    obtain rfl : t = u := by simpa [hexec] using hu
    exact hpc hseq

end Sys2Proof.Machine

/-! The loads (R125 to R131): what `MemRead` answers, by its checks and by the bytes in memory, and what a load arm makes of
either answer. -/

namespace Sys2Proof.Machine

/-! ### The answers of `MemRead` (R39, R45) -/

section memRead
variable {s : State} {ea : Word} {n : Nat}

theorem memRead_unaligned (hchecked : s.cfg.dataAlign = .checked) (h : ea.toNat % n ≠ 0) :
    s.memRead ea n = .error .unaligned :=
  have ⟨hunaligned, _, _⟩ := memRead_spec s ea n
  hunaligned hchecked h

theorem memRead_unmapped (halign : DataAligned s ea n) (hout : ¬ InMemory s ea n) :
    s.memRead ea n = .error .unmapped :=
  have ⟨_, hunmapped, _⟩ := memRead_spec s ea n
  hunmapped halign hout

theorem memRead_ok (halign : DataAligned s ea n) (hin : InMemory s ea n) :
    s.memRead ea n = .ok (BitVec.ofNat (8 * n) (leNat (s.mem.readBytes ea.toNat n))) :=
  have ⟨_, _, hok⟩ := memRead_spec s ea n
  hok halign hin

/-- A byte is aligned at every address, so a byte access is never `Unaligned`. -/
theorem dataAligned_one : DataAligned s ea 1 := .inr (Nat.mod_one _)

/-- An access lies in memory when its last byte does. -/
theorem inMemory_of_load8_last {b : Byte} (h : s.load8 (ea.toNat + n) = .ok b) : InMemory s ea (n + 1) :=
  (load8_eq_ok.mp h).1

/-! For each width, the little-endian value from the bytes in memory (R33). -/

theorem memRead_byte {b : Byte} (h : s.load8 ea.toNat = .ok b) : s.memRead ea 1 = .ok b := by
  rw [memRead_ok dataAligned_one (inMemory_of_load8_last h), ← (load8_eq_ok.mp h).2]
  exact congrArg Except.ok (leNat_one _)

theorem memRead_halfword {b0 b1 : Byte} (halign : DataAligned s ea 2) (h0 : s.load8 ea.toNat = .ok b0)
    (h1 : s.load8 (ea.toNat + 1) = .ok b1) : s.memRead ea 2 = .ok (b1 ++ b0) := by
  rw [memRead_ok halign (inMemory_of_load8_last h1), ← (load8_eq_ok.mp h0).2, ← (load8_eq_ok.mp h1).2]
  exact congrArg Except.ok (leNat_two _ _)

theorem memRead_word {b0 b1 b2 b3 : Byte} (halign : DataAligned s ea 4) (h0 : s.load8 ea.toNat = .ok b0)
    (h1 : s.load8 (ea.toNat + 1) = .ok b1) (h2 : s.load8 (ea.toNat + 2) = .ok b2)
    (h3 : s.load8 (ea.toNat + 3) = .ok b3) : s.memRead ea 4 = .ok (b3 ++ b2 ++ b1 ++ b0) := by
  rw [memRead_ok halign (inMemory_of_load8_last h3), ← (load8_eq_ok.mp h0).2, ← (load8_eq_ok.mp h1).2,
    ← (load8_eq_ok.mp h2).2, ← (load8_eq_ok.mp h3).2]
  exact congrArg Except.ok (leNat_four _ _ _ _)
end memRead

/-! ### The five loads, by what `MemRead` answers (R125, R131) -/

section arms
variable {i : Instr} {s : State} {n : Nat} {ext : BitVec (8 * n) → Word} {rd rs1 : RegIdx} {imm : BitVec 12}

theorem exec_lb : exec (.lb rd rs1 imm) s = loadArm 1 (BitVec.signExtend 32) rd rs1 imm s := rfl
theorem exec_lh : exec (.lh rd rs1 imm) s = loadArm 2 (BitVec.signExtend 32) rd rs1 imm s := rfl
theorem exec_lw : exec (.lw rd rs1 imm) s = loadArm 4 (BitVec.setWidth 32) rd rs1 imm s := rfl
theorem exec_lbu : exec (.lbu rd rs1 imm) s = loadArm 1 (BitVec.setWidth 32) rd rs1 imm s := rfl
theorem exec_lhu : exec (.lhu rd rs1 imm) s = loadArm 2 (BitVec.setWidth 32) rd rs1 imm s := rfl

/-- A load whose access succeeds writes the widened value and retires. -/
theorem regResult_of_memRead {v : BitVec (8 * n)} (hx : exec i s = loadArm n ext rd rs1 imm s)
    (h : s.memRead (effAddr rs1 imm s) n = .ok v) : RegResult i s rd (ext v) (s.pc + 4#32) :=
  regResult_of_retire (hx.trans (loadArm_ok h))

/-- A load whose access fails raises the failure with the effective address, and writes no register (R131). -/
theorem raised_of_memRead {e : MemFault} (hx : exec i s = loadArm n ext rd rs1 imm s)
    (h : s.memRead (effAddr rs1 imm s) n = .error e) : Raised (dataCause e) (effAddr rs1 imm s) s (exec i s) := by
  rw [hx, loadArm_error h]
  exact raise_raised _ _ s
end arms

/-- Settles O23: the one byte read, widened by sign or by zero; a byte access can fail in one way only. -/
theorem loadByteResults : Obligations.LoadByteResults := by
  refine ⟨decodesAs_lb, decodesAs_lbu, ?_⟩
  rintro s rd rs1 imm _ rfl
  refine ⟨fun b hb => ?loaded, fun hout => ?unmapped⟩
  case loaded =>
    have h := memRead_byte hb
    exact ⟨regResult_of_memRead exec_lb h, regResult_of_memRead exec_lbu h⟩
  case unmapped =>
    have h := memRead_unmapped dataAligned_one (Nat.not_le.mpr (Nat.lt_succ_of_le hout))
    exact ⟨raised_of_memRead exec_lb h, raised_of_memRead exec_lbu h⟩

/-- Settles O24: the halfword read, widened by sign or by zero; `Unaligned` comes before `Unmapped`. -/
theorem loadHalfwordResults : Obligations.LoadHalfwordResults := by
  refine ⟨decodesAs_lh, decodesAs_lhu, ?_⟩
  rintro s rd rs1 imm _ rfl
  refine ⟨fun b0 b1 halign h0 h1 => ?loaded, fun hchecked hodd => ?unaligned, fun halign hout => ?unmapped⟩
  case loaded =>
    have h := memRead_halfword halign h0 h1
    exact ⟨regResult_of_memRead exec_lh h, regResult_of_memRead exec_lhu h⟩
  case unaligned =>
    have h := memRead_unaligned hchecked hodd
    exact ⟨raised_of_memRead exec_lh h, raised_of_memRead exec_lhu h⟩
  case unmapped =>
    have h := memRead_unmapped halign hout
    exact ⟨raised_of_memRead exec_lh h, raised_of_memRead exec_lhu h⟩

/-- Settles O25: the word read fills the register, so widening it changes nothing. -/
theorem loadWordResult : Obligations.LoadWordResult := by
  refine ⟨decodesAs_lw, ?_⟩
  rintro s rd rs1 imm _ rfl
  refine ⟨fun b0 b1 b2 b3 halign h0 h1 h2 h3 => ?loaded,
    fun hchecked h => raised_of_memRead exec_lw (memRead_unaligned hchecked h),
    fun halign hout => raised_of_memRead exec_lw (memRead_unmapped halign hout)⟩
  case loaded =>
    rw [← BitVec.setWidth_eq (b3 ++ b2 ++ b1 ++ b0)]
    exact regResult_of_memRead exec_lw (memRead_word halign h0 h1 h2 h3)

end Sys2Proof.Machine

/-! The ALU instructions with an immediate (R140 to R149): the arms that run with
`PROFILE = completed` only and write one register, and their results as numbers. -/

namespace Sys2Proof.Machine

/-! ### Arms of `PROFILE = completed` that write one register (R109) -/

/-- With `PROFILE = completed` the rule runs: it writes its value and retires. -/
theorem regResult_of_completedOnly {i : Instr} {s : State} {rd : RegIdx} {v v' : Word}
    (hprof : s.cfg.profile = .completed) (hx : exec i s = completedOnly i s (retire (s.writeReg rd v)))
    (hv : v = v') : RegResult i s rd v' (s.pc + 4#32) :=
  hv ▸ regResult_of_retire (hx.trans (completedOnly_completed hprof))

/-! ### The results on integers (R9) -/

section results
variable (a b : Word)

theorem boolWord_ltSigned : boolWord (ltSigned a b) = if a.toInt < b.toInt then 1#32 else 0#32 := by
  simp [boolWord, ltSigned]

theorem boolWord_ltUnsigned : boolWord (ltUnsigned a b) = if a.toNat < b.toNat then 1#32 else 0#32 := by
  simp [boolWord, ltUnsigned]

/-- Sign extension keeps the signed value (R68). -/
@[simp] theorem toInt_imm12 (imm : BitVec 12) : (imm12 imm).toInt = imm.toInt :=
  BitVec.toInt_signExtend_of_le (by decide)

/-- The sum modulo 2^32 (R141). -/
theorem add_imm12 (imm : BitVec 12) : a + imm12 imm = BitVec.ofInt 32 (a.toInt + imm.toInt) := by
  rw [← toInt_imm12, BitVec.ofInt_add, BitVec.ofInt_toInt, BitVec.ofInt_toInt]

/-- R142: the immediate is compared at its own signed value. -/
theorem boolWord_ltSigned_imm12 (imm : BitVec 12) :
    boolWord (ltSigned a (imm12 imm)) = if a.toInt < imm.toInt then 1#32 else 0#32 := by
  rw [boolWord_ltSigned, toInt_imm12]

/-- The product with a power of two modulo 2^32 (R147, R158). -/
theorem shiftLeft_eq_ofNat (sh : BitVec 5) : shiftLeft a sh = BitVec.ofNat 32 (a.toNat * 2 ^ sh.toNat) :=
  BitVec.eq_of_toNat_eq (by rw [shiftLeft, BitVec.toNat_shiftLeft, Nat.shiftLeft_eq, BitVec.toNat_ofNat])

/-- The unsigned quotient by a power of two (R148, R162). -/
theorem shiftRightLogical_eq_ofNat (sh : BitVec 5) :
    shiftRightLogical a sh = BitVec.ofNat 32 (a.toNat / 2 ^ sh.toNat) := by
  rw [shiftRightLogical, ← Nat.shiftRight_eq_div_pow, ← BitVec.toNat_ushiftRight, BitVec.ofNat_toNat,
    BitVec.setWidth_eq]

/-- The signed quotient by a power of two, rounded toward minus infinity (R149, R163). -/
theorem shiftRightArith_eq_ofInt (sh : BitVec 5) :
    shiftRightArith a sh = BitVec.ofInt 32 (a.toInt / 2 ^ sh.toNat) := by
  rw [shiftRightArith, BitVec.sshiftRight, Int.shiftRight_eq_div_pow]
  norm_cast
end results

/-- Settles O31: the sum and the comparisons read as numbers; the bitwise results are the arms' own words. -/
theorem aluImmediateResults : Obligations.AluImmediateResults := by
  refine ⟨decodesAs_addi, decodesAs_slti, decodesAs_sltiu, decodesAs_xori, decodesAs_ori, decodesAs_andi, ?_⟩
  rintro s rd rs1 imm _ hprof rfl
  exact ⟨regResult_of_completedOnly hprof rfl (add_imm12 _ imm),
    regResult_of_completedOnly hprof rfl (boolWord_ltSigned_imm12 _ imm),
    regResult_of_completedOnly hprof rfl (boolWord_ltUnsigned _ (imm12 imm)),
    regResult_of_completedOnly hprof rfl rfl, regResult_of_completedOnly hprof rfl rfl,
    regResult_of_completedOnly hprof rfl rfl⟩

/-- Settles O32: the refused `funct7` values are among the illegal words of R85, and each shift is a product or a
quotient by a power of two. -/
theorem shiftImmediateResults : Obligations.ShiftImmediateResults := by
  refine ⟨decodesAs_slli, decodesAs_srli, decodesAs_srai, fun w => ?illegalLeft, fun w => ?illegalRight, ?results⟩
  case illegalLeft =>
    obtain ⟨-, -, -, -, -, -, hleft, -⟩ := illegalWordsRaiseIllegal.2 w
    exact hleft
  case illegalRight =>
    obtain ⟨-, -, -, -, -, -, -, hright, -⟩ := illegalWordsRaiseIllegal.2 w
    exact hright
  case results =>
    rintro s rd rs1 shamt _ hprof rfl
    exact ⟨regResult_of_completedOnly hprof rfl (shiftLeft_eq_ofNat _ shamt),
      regResult_of_completedOnly hprof rfl (shiftRightLogical_eq_ofNat _ shamt),
      regResult_of_completedOnly hprof rfl (shiftRightArith_eq_ofInt _ shamt)⟩

end Sys2Proof.Machine

/-! The register-register ALU instructions (R156 to R165): the results of the immediate forms' operations where the
second source is a register. -/

namespace Sys2Proof.Machine

section results
variable (a b : Word)

/-- The sum modulo 2^32 (R156). -/
theorem add_eq_ofNat : a + b = BitVec.ofNat 32 (a.toNat + b.toNat) := by
  rw [BitVec.ofNat_add, BitVec.ofNat_toNat, BitVec.ofNat_toNat, BitVec.setWidth_eq, BitVec.setWidth_eq]

/-- The difference modulo 2^32, of the signed values (R157). -/
theorem sub_eq_ofInt : a - b = BitVec.ofInt 32 (a.toInt - b.toInt) :=
  BitVec.eq_of_toInt_eq (by rw [BitVec.toInt_sub, BitVec.toInt_ofInt])

/-- A register shifts by its value modulo 32 (R158, R162, R163). -/
@[simp] theorem toNat_shiftAmount : (shiftAmount a).toNat = a.toNat % 32 := by
  rw [shiftAmount, BitVec.extractLsb'_toNat, Nat.shiftRight_zero]
end results

/-- Settles O33: sum, difference and comparisons read as numbers; the bitwise results are the arms' own words. -/
theorem aluRegisterResults : Obligations.AluRegisterResults := by
  refine ⟨decodesAs_add, decodesAs_sub, decodesAs_slt, decodesAs_sltu, decodesAs_xor, decodesAs_or, decodesAs_and, ?_⟩
  rintro s rd rs1 rs2 _ _ hprof rfl rfl
  exact ⟨regResult_of_completedOnly hprof rfl (add_eq_ofNat _ _),
    regResult_of_completedOnly hprof rfl (sub_eq_ofInt _ _),
    regResult_of_completedOnly hprof rfl (boolWord_ltSigned _ _),
    regResult_of_completedOnly hprof rfl (boolWord_ltUnsigned _ _),
    regResult_of_completedOnly hprof rfl rfl, regResult_of_completedOnly hprof rfl rfl,
    regResult_of_completedOnly hprof rfl rfl⟩

/-- Settles O34: the amount is a five-bit number, so each shift is the immediate form's product or quotient by a power
of two. -/
theorem shiftRegisterResults : Obligations.ShiftRegisterResults := by
  refine ⟨decodesAs_sll, decodesAs_srl, decodesAs_sra, ?_⟩
  rintro s rd rs1 rs2 _ _ hprof rfl rfl
  rw [← toNat_shiftAmount]
  exact ⟨regResult_of_completedOnly hprof rfl (shiftLeft_eq_ofNat _ _),
    regResult_of_completedOnly hprof rfl (shiftRightLogical_eq_ofNat _ _),
    regResult_of_completedOnly hprof rfl (shiftRightArith_eq_ofInt _ _)⟩

end Sys2Proof.Machine

/-! Control transfer (R170 to R180): the six conditions as comparisons of numbers, and what an arm that overrides `next_pc`
leaves with `PROFILE = completed`. -/

namespace Sys2Proof.Machine

/-! ### The branch conditions on integers (R9) -/

section conditions
variable {a b : Word}

theorem condEq_iff : condEq a b = true ↔ a = b := by simp [condEq]
theorem condNe_iff : condNe a b = true ↔ a ≠ b := by simp [condNe, condEq]
theorem condLt_iff : condLt a b = true ↔ a.toInt < b.toInt := by simp [condLt, ltSigned]
theorem condGe_iff : condGe a b = true ↔ b.toInt ≤ a.toInt := by simp [condGe, ltSigned]
theorem condLtu_iff : condLtu a b = true ↔ a.toNat < b.toNat := by simp [condLtu, ltUnsigned]
theorem condGeu_iff : condGeu a b = true ↔ b.toNat ≤ a.toNat := by simp [condGeu, ltUnsigned]
end conditions

/-! ### The arms that override `next_pc` (R106) -/

section arms
variable {i : Instr} {s : State}

/-- A jump's arm links and takes its target; the target is a word of the old state, so `rd = rs1` needs no case. -/
theorem regResult_of_jump {rd : RegIdx} {target : Word} (hprof : s.cfg.profile = .completed)
    (hx : exec i s = completedOnly i s (.next ((s.writeReg rd s.seqPc).commit target))) :
    RegResult i s rd (s.pc + 4#32) target :=
  regResult_of_commit (hx.trans (completedOnly_completed hprof))

/-- A branch's arm takes its target exactly where the condition holds (R174). -/
theorem pcResult_of_branch {cond : Word → Word → Bool} {rs1 rs2 : RegIdx} {offset : BitVec 13} {c : Prop} [Decidable c]
    (hprof : s.cfg.profile = .completed) (hx : exec i s = completedOnly i s (branchArm cond rs1 rs2 offset s))
    (hcond : cond (s.readReg rs1) (s.readReg rs2) = true ↔ c) :
    PcResult i s (if c then s.pc + offset.signExtend 32 else s.pc + 4#32) := by
  have hnext : exec i s = branchArm cond rs1 rs2 offset s := hx.trans (completedOnly_completed hprof)
  simp only [branchArm, hcond] at hnext
  exact pcResult_of_commit hnext
end arms

/-- Settles O35: both jumps are a link and a target, and the refused `funct3` values are among the illegal words of
R85. -/
theorem jumpResults : Obligations.JumpResults := by
  refine ⟨decodesAs_jal, decodesAs_jalr, fun w => ?illegal, fun s rd rs1 offset imm hprof =>
    ⟨regResult_of_jump hprof rfl, regResult_of_jump hprof rfl⟩⟩
  case illegal =>
    obtain ⟨-, -, hjalr, -⟩ := illegalWordsRaiseIllegal.2 w
    exact hjalr

/-- Settles O36: the six branches are one arm, at six conditions. -/
theorem branchResults : Obligations.BranchResults := by
  refine ⟨decodesAs_beq, decodesAs_bne, decodesAs_blt, decodesAs_bge, decodesAs_bltu, decodesAs_bgeu, ?_⟩
  rintro s rs1 rs2 offset _ _ _ hprof rfl rfl rfl
  exact ⟨pcResult_of_branch hprof rfl condEq_iff, pcResult_of_branch hprof rfl condNe_iff,
    pcResult_of_branch hprof rfl condLt_iff, pcResult_of_branch hprof rfl condGe_iff,
    pcResult_of_branch hprof rfl condLtu_iff, pcResult_of_branch hprof rfl condGeu_iff⟩

end Sys2Proof.Machine

/-! The stores (R185 to R189): what `MemWrite` answers, and what a store arm makes of either answer with
`PROFILE = completed`. -/

namespace Sys2Proof.Machine

/-! ### The answers of `MemWrite` (R39, R46) -/

section memWrite
variable {s : State} {ea v : Word} {n : Nat}

theorem memWrite_unmapped (halign : DataAligned s ea n) (hout : ¬ InMemory s ea n) :
    s.memWrite ea n v = .error .unmapped :=
  have ⟨_, hunmapped, _⟩ := memWrite_spec s ea n v
  hunmapped halign hout

theorem memWrite_ok (halign : DataAligned s ea n) (hin : InMemory s ea n) :
    s.memWrite ea n v = .ok { s with mem := s.mem.writeBytes ea.toNat (leBytes n (v.setWidth (8 * n)).toNat) } :=
  have ⟨_, _, hok⟩ := memWrite_spec s ea n v
  hok halign hin
end memWrite

/-! ### A store, by what `MemWrite` answers (R185, R189) -/

section arms
variable {i : Instr} {s : State} {n : Nat} {rs1 rs2 : RegIdx} {imm : BitVec 12}

/-- A store whose access is aligned and in memory writes the low bytes of `x[rs2]` and retires. -/
theorem storeResult_of_storeArm (hprof : s.cfg.profile = .completed) (hwf : s.mem.wf = true)
    (hx : exec i s = completedOnly i s (storeArm n rs1 rs2 imm s)) (hn : n ≤ 4)
    (halign : DataAligned s (effAddr rs1 imm s) n) (hin : InMemory s (effAddr rs1 imm s) n) :
    StoreResult i s (effAddr rs1 imm s) n (s.readReg rs2) :=
  storeResult_of_memWrite hn hwf hin
    ((hx.trans (completedOnly_completed hprof)).trans (storeArm_ok (memWrite_ok halign hin)))

/-- A store whose access fails raises the failure with the effective address, and writes no byte (R189). -/
theorem raised_of_memWrite {e : MemFault} (hprof : s.cfg.profile = .completed)
    (hx : exec i s = completedOnly i s (storeArm n rs1 rs2 imm s))
    (h : s.memWrite (effAddr rs1 imm s) n (s.readReg rs2) = .error e) :
    Raised (dataCause e) (effAddr rs1 imm s) s (exec i s) := by
  rw [hx, completedOnly_completed hprof, storeArm_error h]
  exact raise_raised _ _ s
end arms

/-- Settles O26: a byte is aligned at every address, so the access fails only where `ea` is not in memory. -/
theorem storeByteResult : Obligations.StoreByteResult := by
  refine ⟨decodesAs_sb, ?_⟩
  rintro s rs1 rs2 imm _ rfl hprof hwf
  exact ⟨storeResult_of_storeArm hprof hwf rfl (by decide) dataAligned_one,
    fun hout => raised_of_memWrite hprof rfl (memWrite_unmapped dataAligned_one hout)⟩

end Sys2Proof.Machine

/-! The boot load (R236): byte by byte, it is one write of the whole image, or it runs past the end of memory. -/

namespace Sys2Proof.Machine

section bootLoad
variable {s : State} {image : List Byte}

/-- While the bytes fit, each `store8` succeeds, and the stores add up to one write of them all. -/
theorem loadImageFrom_ok {a : Nat} (h : a + image.length ≤ s.cfg.memSize) :
    s.loadImageFrom a image = .ok { s with mem := s.mem.writeBytes a image } := by
  induction image generalizing s a with
  | nil => rfl
  | cons b bs ih =>
    rw [List.length_cons] at h
    have hrest : a + 1 + bs.length ≤ s.cfg.memSize := by omega
    simp only [State.loadImageFrom, store8_ok (show a < s.cfg.memSize by omega)]
    exact ih (s := { s with mem := s.mem.write a b }) hrest

/-- Bytes that begin within memory and do not fit reach the first address past it, and that `store8` fails the load. -/
theorem loadImageFrom_error {a : Nat} (hstart : a ≤ s.cfg.memSize) (h : s.cfg.memSize < a + image.length) :
    s.loadImageFrom a image = .error .unmapped := by
  induction image generalizing s a with
  | nil => exact absurd h (Nat.not_lt.mpr hstart)
  | cons b bs ih =>
    rw [List.length_cons] at h
    rcases Nat.lt_or_ge a s.cfg.memSize with hin | hout
    · have hrest : s.cfg.memSize < a + 1 + bs.length := by omega
      simp only [State.loadImageFrom, store8_ok hin]
      exact ih (s := { s with mem := s.mem.write a b }) hin hrest
    · simp only [State.loadImageFrom, store8_error hout]

theorem loadImage_ok (h : image.length ≤ s.cfg.memSize) :
    s.loadImage image = .ok { s with mem := s.mem.writeBytes 0 image } :=
  loadImageFrom_ok (by rwa [Nat.zero_add])

theorem loadImage_error (h : s.cfg.memSize < image.length) : s.loadImage image = .error .unmapped :=
  loadImageFrom_error (Nat.zero_le _) (by rwa [Nat.zero_add])

/-- A load fails exactly when the image is longer than memory (R236). -/
theorem loadImage_error_iff : (∃ e, s.loadImage image = .error e) ↔ s.cfg.memSize < image.length := by
  refine ⟨fun ⟨e, he⟩ => ?_, fun h => ⟨_, loadImage_error h⟩⟩
  by_contra hfits
  rw [loadImage_ok (Nat.not_lt.mp hfits)] at he
  cases he

/-- A load that succeeds had room for the image, and is one write of it. -/
theorem loadImage_eq_ok {t : State} (h : s.loadImage image = .ok t) :
    image.length ≤ s.cfg.memSize ∧ t = { s with mem := s.mem.writeBytes 0 image } := by
  rcases Nat.lt_or_ge s.cfg.memSize image.length with hlong | hfits
  · rw [loadImage_error hlong] at h
    cases h
  · rw [loadImage_ok hfits] at h
    cases h
    exact ⟨hfits, rfl⟩
end bootLoad

/-- Settles O55: a successful load is one write of the image at address 0, so in a canonical memory the bytes read back
and the addresses past the image are untouched. -/
theorem bootLoadPlacesTheImage : Obligations.BootLoadPlacesTheImage := by
  refine fun s image hwf => ⟨loadImage_error_iff, fun t ht => ?_⟩
  obtain ⟨hfits, rfl⟩ := loadImage_eq_ok ht
  refine ⟨fun k hk => load8_eq_ok.mpr ⟨Nat.lt_of_lt_of_le hk hfits, ?placed⟩, fun a ha => ?past,
    withMem_readReg s _, rfl, rfl, rfl, rfl, rfl⟩
  case placed =>
    have hread := read_writeBytes_inside hwf (a := 0) hk
    rwa [Nat.zero_add] at hread
  case past =>
    have hread : (s.mem.writeBytes 0 image).read a = s.mem.read a := read_writeBytes_outside hwf (by omega)
    simp only [State.load8, hread]

end Sys2Proof.Machine

/-! The round trip between words and instructions (R67 to R87): format by format, the word of an instruction has the
fields that the decoder tests, and the operands are read back from it. -/

namespace Sys2Proof.Machine

/-! ### The tested bits of an encoded word, by format -/

section testedBits
variable (f7 op : BitVec 7) (f3 : BitVec 3) (rs2 rs1 rd : RegIdx)

theorem and_mask_encodeR :
    encodeR f7 rs2 rs1 f3 rd op &&& 0xFE00707F#32 = put 32 f7 25 ||| put 32 f3 12 ||| put 32 op 0 := by
  rw [and_mask_funct7, funct7Of_encodeR, funct3Of_encodeR, opcodeOf_encodeR]

theorem and_mask_encodeI (imm : BitVec 12) :
    encodeI imm rs1 f3 rd op &&& 0x0000707F#32 = put 32 f3 12 ||| put 32 op 0 := by
  rw [and_mask_funct3, funct3Of_encodeI, opcodeOf_encodeI]

theorem and_mask_encodeS (imm : BitVec 12) :
    encodeS imm rs2 rs1 f3 op &&& 0x0000707F#32 = put 32 f3 12 ||| put 32 op 0 := by
  rw [and_mask_funct3, funct3Of_encodeS, opcodeOf_encodeS]

theorem and_mask_encodeB (offset : BitVec 13) :
    encodeB offset rs2 rs1 f3 op &&& 0x0000707F#32 = put 32 f3 12 ||| put 32 op 0 := by
  rw [and_mask_funct3, funct3Of_encodeB, opcodeOf_encodeB]

theorem and_mask_encodeU (imm20 : BitVec 20) : encodeU imm20 rd op &&& 0x0000007F#32 = put 32 op 0 := by
  rw [and_mask_opcode, opcodeOf_encodeU]

theorem and_mask_encodeJ (offset : BitVec 21) : encodeJ offset rd op &&& 0x0000007F#32 = put 32 op 0 := by
  rw [and_mask_opcode, opcodeOf_encodeJ]

theorem and_mask_encodeFence (fm pred succ : BitVec 4) :
    encodeFence fm pred succ rs1 rd &&& 0x0000707F#32 = 0x0000000F#32 := by
  rw [and_mask_funct3, funct3Of_encodeFence, opcodeOf_encodeFence]
  rfl
end testedBits

/-! ### Reading an instruction back from its word -/

/-- The decoder reads from the instruction's word a well-formed instruction, which is the instruction itself if that is
well-formed. (One with an odd offset is not: the word has no place for bit 0.) -/
def ReadBack (i : Instr) : Prop :=
  ∃ j, decodeWord (encode i) = some j ∧ j.wf = true ∧ (i.wf = true → j = i)

section readBack
variable {i : Instr} {mask p : Word} {f : Word → Instr}

/-- The row that the word matches reads the operands `f`. -/
theorem readBack_of_row (h : DecodesAs mask p f) (hp : encode i &&& mask = p) (hwf : (f (encode i)).wf = true)
    (hf : i.wf = true → f (encode i) = i) : ReadBack i :=
  ⟨f (encode i), h (encode i) hp, hwf, hf⟩

/-- The same for an instruction without an offset, which is always well-formed. -/
theorem readBack_of_wf (h : DecodesAs mask p f) (hp : encode i &&& mask = p) (hwf : i.wf = true := by rfl)
    (hf : f (encode i) = i := by simp [encode]) : ReadBack i :=
  readBack_of_row h hp (hf.symm ▸ hwf) fun _ => hf
end readBack

theorem branchOffsetOk_immBOf (w : Word) : branchOffsetOk (immBOf w) = true := by
  rw [branchOffsetOk, immBOf_even, Bool.not_false]

theorem jumpOffsetOk_immJOf (w : Word) : jumpOffsetOk (immJOf w) = true := by
  rw [jumpOffsetOk, immJOf_even, Bool.not_false]

theorem readBack_jal (rd : RegIdx) (offset : BitVec 21) : ReadBack (.jal rd offset) :=
  readBack_of_row decodesAs_jal (and_mask_encodeJ ..) (jumpOffsetOk_immJOf _) fun hwf => by
    simp [encode, immJOf_encodeJ _ _ _ hwf]

/-- A branch, by the constructor `mk` of its operands. -/
theorem readBack_branch {mk : RegIdx → RegIdx → BitVec 13 → Instr} {p : Word} {rs1 rs2 : RegIdx}
    {offset : BitVec 13} (f3 : BitVec 3) (h : DecodesAs 0x0000707F#32 p fun w => mk (rs1Of w) (rs2Of w) (immBOf w))
    (hp : put 32 f3 12 ||| put 32 0x63#7 0 = p := by rfl)
    (henc : ∀ rs1 rs2 o, encode (mk rs1 rs2 o) = encodeB o rs2 rs1 f3 0x63#7 := by exact fun _ _ _ => rfl)
    (hwf : ∀ rs1 rs2 o, (mk rs1 rs2 o).wf = branchOffsetOk o := by exact fun _ _ _ => rfl) :
    ReadBack (mk rs1 rs2 offset) :=
  readBack_of_row h (by rw [henc, and_mask_encodeB, hp]) (by rw [hwf, branchOffsetOk_immBOf]) fun hok => by
    simp [henc, immBOf_encodeB _ _ _ _ _ (hwf .. ▸ hok)]

theorem readBack (i : Instr) : ReadBack i := by
  cases i
  case lui => exact readBack_of_wf decodesAs_lui (and_mask_encodeU ..)
  case auipc => exact readBack_of_wf decodesAs_auipc (and_mask_encodeU ..)
  case jal => exact readBack_jal ..
  case jalr => exact readBack_of_wf decodesAs_jalr (and_mask_encodeI ..)
  case beq => exact readBack_branch 0#3 decodesAs_beq
  case bne => exact readBack_branch 1#3 decodesAs_bne
  case blt => exact readBack_branch 4#3 decodesAs_blt
  case bge => exact readBack_branch 5#3 decodesAs_bge
  case bltu => exact readBack_branch 6#3 decodesAs_bltu
  case bgeu => exact readBack_branch 7#3 decodesAs_bgeu
  case lb => exact readBack_of_wf decodesAs_lb (and_mask_encodeI ..)
  case lh => exact readBack_of_wf decodesAs_lh (and_mask_encodeI ..)
  case lw => exact readBack_of_wf decodesAs_lw (and_mask_encodeI ..)
  case lbu => exact readBack_of_wf decodesAs_lbu (and_mask_encodeI ..)
  case lhu => exact readBack_of_wf decodesAs_lhu (and_mask_encodeI ..)
  case sb => exact readBack_of_wf decodesAs_sb (and_mask_encodeS ..)
  case sh => exact readBack_of_wf decodesAs_sh (and_mask_encodeS ..)
  case sw => exact readBack_of_wf decodesAs_sw (and_mask_encodeS ..)
  case addi => exact readBack_of_wf decodesAs_addi (and_mask_encodeI ..)
  case slti => exact readBack_of_wf decodesAs_slti (and_mask_encodeI ..)
  case sltiu => exact readBack_of_wf decodesAs_sltiu (and_mask_encodeI ..)
  case xori => exact readBack_of_wf decodesAs_xori (and_mask_encodeI ..)
  case ori => exact readBack_of_wf decodesAs_ori (and_mask_encodeI ..)
  case andi => exact readBack_of_wf decodesAs_andi (and_mask_encodeI ..)
  case slli => exact readBack_of_wf decodesAs_slli (and_mask_encodeR ..)
  case srli => exact readBack_of_wf decodesAs_srli (and_mask_encodeR ..)
  case srai => exact readBack_of_wf decodesAs_srai (and_mask_encodeR ..)
  case add => exact readBack_of_wf decodesAs_add (and_mask_encodeR ..)
  case sub => exact readBack_of_wf decodesAs_sub (and_mask_encodeR ..)
  case sll => exact readBack_of_wf decodesAs_sll (and_mask_encodeR ..)
  case slt => exact readBack_of_wf decodesAs_slt (and_mask_encodeR ..)
  case sltu => exact readBack_of_wf decodesAs_sltu (and_mask_encodeR ..)
  case xor => exact readBack_of_wf decodesAs_xor (and_mask_encodeR ..)
  case srl => exact readBack_of_wf decodesAs_srl (and_mask_encodeR ..)
  case sra => exact readBack_of_wf decodesAs_sra (and_mask_encodeR ..)
  case or => exact readBack_of_wf decodesAs_or (and_mask_encodeR ..)
  case and => exact readBack_of_wf decodesAs_and (and_mask_encodeR ..)
  case fence => exact readBack_of_wf decodesAs_fence (and_mask_encodeFence ..)
  case fenceI => exact readBack_of_wf decodesAs_fenceI (and_mask_encodeI ..)
  case ecall => exact readBack_of_wf decodesAs_ecall rfl
  case ebreak => exact readBack_of_wf decodesAs_ebreak rfl
  case csrrw => exact readBack_of_wf decodesAs_csrrw (and_mask_encodeI ..)
  case csrrs => exact readBack_of_wf decodesAs_csrrs (and_mask_encodeI ..)
  case csrrc => exact readBack_of_wf decodesAs_csrrc (and_mask_encodeI ..)
  case csrrwi => exact readBack_of_wf decodesAs_csrrwi (and_mask_encodeI ..)
  case csrrsi => exact readBack_of_wf decodesAs_csrrsi (and_mask_encodeI ..)
  case csrrci => exact readBack_of_wf decodesAs_csrrci (and_mask_encodeI ..)

/-- Settles O1: the operands that the decoder reads back are those of a well-formed instruction. -/
theorem decodeAfterEncode : Obligations.DecodeAfterEncode := by
  intro i hwf
  obtain ⟨j, hdec, -, hj⟩ := readBack i
  rw [hdec, hj hwf]

/-- A decoded instruction is one that was read back, and these are well-formed. -/
theorem wf_of_decodeWord {w : Word} {i : Instr} (h : decodeWord w = some i) : i.wf = true := by
  obtain ⟨j, hdec, hwf, -⟩ := readBack i
  rw [encode_of_decodeWord h, h] at hdec
  cases hdec
  exact hwf

/-- Settles O2: no bit is lost by the decoder's fields, and a decoded offset is even. -/
theorem encodeAfterDecode : Obligations.EncodeAfterDecode :=
  fun _ _ h => ⟨encode_of_decodeWord h, wf_of_decodeWord h⟩

/-- Settles O5: the decoder run on nine words. -/
theorem sampleWordsDecode : Obligations.SampleWordsDecode := by
  unfold Obligations.SampleWordsDecode
  decide

end Sys2Proof.Machine

/-! Steps and runs (R100, R108, R110): everything a step can do, what that leaves of the parameters, the PC, `diag` and the
invariant, and induction along a run. -/

namespace Sys2Proof.Machine

/-! ### Every instruction and every step answers a next state (R242) -/

section raise
variable {c : Cause} {info : Word} {s : State}

/-- With `TRAP_MODE = halt` the latch is set and nothing else (R210). -/
theorem raise_halt (h : s.cfg.trapMode = .halt) :
    raise c info s = .next { s with fault := some { cause := c, faultPc := s.pc, info := info } } := by
  simp only [raise, h]

/-- With `TRAP_MODE = vector` the cause is recorded and the vector entered (R212). -/
theorem raise_vector {v : Word} {codes : CauseCodes} {sink : CauseSink} (h : s.cfg.trapMode = .vector v codes sink) :
    raise c info s = .next { s with
      causeSink := recordCause sink s.causeSink { code := codeOf codes c, faultPc := s.pc, info := info }
      pc := v } := by
  simp only [raise, h]
end raise

theorem raise_total (c : Cause) (info : Word) (s : State) : ∃ t, raise c info s = .next t :=
  have ⟨t, ht, _⟩ := raise_raised c info s
  ⟨t, ht⟩

theorem exec_total (i : Instr) (s : State) : ∃ t, exec i s = .next t := by
  obtain ⟨hraise, hcomplete⟩ := exec_cases i s
  cases hfault : execFault i s with
  | some e =>
    rw [hraise e.1 e.2 hfault]
    exact raise_total e.1 e.2 s
  | none =>
    obtain ⟨t, ht, -⟩ := hcomplete hfault
    exact ⟨t, ht⟩

theorem step_total (s : State) : ∃ t, step s = .next t := by
  by_cases hlive : s.fault = none
  · cases hdec : decodeAt s s.pc with
    | error e =>
      rw [step_error hlive hdec]
      exact raise_total e.1 e.2 s
    | ok i =>
      rw [step_ok hlive hdec]
      exact exec_total i s
  · exact ⟨s, step_halted hlive⟩

/-- Settles O20: a fault is a next state too. -/
theorem everyStepAnswersANextState : Obligations.EveryStepAnswersANextState := ⟨exec_total, step_total⟩

/-! ### What a step can do -/

/-- The three ways from a state to the next: the core is halted, it raises a fault, or it completes the instruction at
the PC. -/
inductive StepOutcome (s t : State) : Prop
  | halted (hhalted : s.fault ≠ none) (hsame : t = s)
  | raised {c : Cause} {info : Word} (hlive : s.fault = none) (hraise : raise c info s = .next t)
  | completed {i : Instr} (hlive : s.fault = none) (hdec : decodeAt s s.pc = .ok i) (hok : execFault i s = none)
      (hexec : exec i s = .next t) (hquiet : Quiet i s t)

theorem stepOutcome {s t : State} (h : step s = .next t) : StepOutcome s t := by
  by_cases hlive : s.fault = none
  · obtain ⟨c, info, -, hraise⟩ | ⟨-, c, info, -, -, hraise⟩ | ⟨i, hdec, hok, hexec, hquiet⟩ := step_cases hlive h
    · exact .raised hlive hraise
    · exact .raised hlive hraise
    · exact .completed hlive hdec hok hexec hquiet
  · rw [step_halted hlive] at h
    cases h
    exact .halted hlive rfl

section step
variable {s t : State}

/-- No step writes a parameter (R7). -/
theorem step_cfg (h : step s = .next t) : t.cfg = s.cfg := by
  cases stepOutcome h with
  | halted _ hsame => rw [hsame]
  | raised _ hraise => exact (raise_next hraise).1
  | completed _ _ _ _ hquiet => exact hquiet.1

/-- Only `EBREAK` appends to `diag` (R21, R138). -/
theorem step_diag (h : step s = .next t) :
    t.diag = s.diag ∨ (decodeAt s s.pc = .ok .ebreak ∧ t.diag = s.diag ++ [s.dump]) := by
  cases stepOutcome h with
  | halted _ hsame => exact .inl (by rw [hsame])
  | raised _ hraise =>
    obtain ⟨-, -, -, hdiag, -⟩ := raise_next hraise
    exact .inl hdiag
  | completed _ hdec _ _ hquiet =>
    obtain ⟨-, -, -, hdiag | ⟨rfl, hdiag⟩, -⟩ := hquiet
    · exact .inl hdiag
    · exact .inr ⟨hdec, hdiag⟩
end step

/-- Settles O51: a fault appends nothing, and of the completed instructions only `EBREAK` appends. -/
theorem diagGrowsByEbreakOnly : Obligations.DiagGrowsByEbreakOnly := fun _ _ => step_diag

/-! ### Runs -/

/-- The first step of a run. -/
theorem step_of_run_succ {n : Nat} {s t : State} (h : Sys2Proof.core.run (n + 1) s = .next t) :
    ∃ u, step s = .next u ∧ Sys2Proof.core.run n u = .next t := by
  obtain ⟨u, hu⟩ := step_total s
  exact ⟨u, hu, (run_succ hu).symm.trans h⟩

/-- What every step keeps, a run keeps. -/
theorem run_keeps {P : State → Prop} (hstep : ∀ s t, P s → step s = .next t → P t) {n : Nat} {s t : State} (hs : P s)
    (h : Sys2Proof.core.run n s = .next t) : P t := by
  induction n generalizing s with
  | zero => cases h; exact hs
  | succ n ih =>
    obtain ⟨u, hu, hrun⟩ := step_of_run_succ h
    exact ih (hstep s u hs hu) hrun

/-- Settles O50: no step writes a parameter. -/
theorem parametersNeverChange : Obligations.ParametersNeverChange := fun _ s _ =>
  run_keeps (P := fun u => u.cfg = s.cfg) (fun _ _ hu h => (step_cfg h).trans hu) rfl

/-- Settles O18: by induction on the number of steps. -/
theorem haltedCoreNeverChanges : Obligations.HaltedCoreNeverChanges := by
  intro n s hhalted
  induction n with
  | zero => rfl
  | succ n ih => rw [run_succ (step_halted hhalted), ih]

/-! ### The invariant -/

theorem inv_iff {s : State} :
    s.inv = true ↔ s.cfg.wf = true ∧ s.mem.wf = true ∧ s.mem.within s.cfg.memSize = true ∧ s.latchOk = true ∧
      s.sinkOk = true ∧ s.diagOk = true := by
  simp only [State.inv, Bool.and_eq_true, and_assoc]

section components
variable {s t : State}

theorem latchOk_of_live (h : s.fault = none) : s.latchOk = true := by rw [State.latchOk, h]

theorem sinkOk_congr (hcfg : t.cfg = s.cfg) (hsink : t.causeSink = s.causeSink) : t.sinkOk = s.sinkOk := by
  rw [State.sinkOk, State.sinkOk, hcfg, hsink]

theorem diagOk_congr (h : t.diag = s.diag) : t.diagOk = s.diagOk := by rw [State.diagOk, State.diagOk, h]

/-- A dump shows x0 as the register file reads it (R12, R138). -/
@[simp] theorem regs_zero_dump : s.dump.regs[0] = 0#32 := by simp [State.dump, State.readReg]

theorem diagOk_append_dump (h : t.diag = s.diag ++ [s.dump]) : t.diagOk = s.diagOk := by
  simp [State.diagOk, h]

/-- A fault keeps the invariant: with `halt` the latch takes the PC slot's address, with `vector` the sink takes a record
within its room. -/
theorem inv_of_raise {c : Cause} {info : Word} (hinv : s.inv = true) (hlive : s.fault = none)
    (h : raise c info s = .next t) : t.inv = true := by
  obtain ⟨hcfg, -, hmem, hdiag, hmode⟩ := raise_next h
  obtain ⟨hwf, hcanon, hin, -, hsink, hdumps⟩ := inv_iff.mp hinv
  rw [inv_iff, hcfg, hmem, diagOk_congr hdiag]
  refine ⟨hwf, hcanon, hin, ?latch, ?sink, hdumps⟩
  all_goals obtain ⟨hhalt, hfault, hpc, hkeep⟩ | ⟨v, codes, sink, hvector, hfault, -, hrecord⟩ := hmode
  case latch.inl => simp [State.latchOk, hfault, hcfg, hhalt, hpc]
  case latch.inr => exact latchOk_of_live (hfault.trans hlive)
  case sink.inl => rwa [sinkOk_congr hcfg hkeep]
  case sink.inr =>
    simp only [State.sinkOk, hvector] at hsink
    simpa only [State.sinkOk, hcfg, hvector, hrecord] using sinkFits_recordCause hsink _

/-- A completed instruction keeps the invariant: it writes bytes inside memory only, and dumps x0 as 0. -/
theorem inv_of_quiet {i : Instr} (hinv : s.inv = true) (hlive : s.fault = none) (h : Quiet i s t) : t.inv = true := by
  obtain ⟨hcfg, hfault, hsinkKeep, hdiag, -, hmem⟩ := h
  obtain ⟨hwf, hcanon, hin, -, hsink, hdumps⟩ := inv_iff.mp hinv
  rw [inv_iff, hcfg, sinkOk_congr hcfg hsinkKeep]
  refine ⟨hwf, ?canonical, ?within, latchOk_of_live (hfault.trans hlive), hsink, ?dumps⟩
  case dumps =>
    obtain hkeep | ⟨-, happend⟩ := hdiag
    · rwa [diagOk_congr hkeep]
    · rwa [diagOk_append_dump happend]
  all_goals obtain hkeep | ⟨a, bs, hwrite, hbound⟩ := hmem
  case canonical.inl => rwa [hkeep]
  case canonical.inr => exact hwrite ▸ wf_writeBytes hcanon a bs
  case within.inl => rwa [hkeep]
  case within.inr => exact hwrite ▸ within_writeBytes hin hbound
end components

/-- Settles O47: a halted core keeps it by doing nothing; a fault and a completed instruction keep each component. -/
theorem stepKeepsInvariant : Obligations.StepKeepsInvariant := by
  intro s t hinv h
  cases stepOutcome h with
  | halted _ hsame => rwa [hsame]
  | raised hlive hraise => exact inv_of_raise hinv hlive hraise
  | completed hlive _ _ _ hquiet => exact inv_of_quiet hinv hlive hquiet

/-- Settles O48: the default parameters are legal, and nothing is listed, latched, recorded or dumped. -/
theorem resetMeetsInvariant : Obligations.ResetMeetsInvariant :=
  inv_iff.mpr ⟨by decide, wf_reset, rfl, rfl, rfl, rfl⟩

/-! ### Safe runs (R110, R210) -/

section safeRun
variable {s t : State}

/-- A completed step runs the instruction at the PC. -/
theorem Completes.quiet (h : Completes s t) : ∃ i, decodeAt s s.pc = .ok i ∧ Quiet i s t := by
  obtain ⟨hlive, hpend, hstep⟩ := h
  obtain ⟨i, u, hdec, hu, hquiet⟩ := step_of_no_pendingFault hlive hpend
  obtain rfl : t = u := by simpa [hstep] using hu
  exact ⟨i, hdec, hquiet⟩
end safeRun

/-- Settles O56: by induction on the number of steps, each of which completes. -/
theorem safeRunsAreRunsOfTheCore : Obligations.SafeRunsAreRunsOfTheCore := by
  intro n s t hlive hinv h
  induction n generalizing s with
  | zero => cases h; exact ⟨rfl, hlive, rfl, hinv⟩
  | succ n ih =>
    obtain ⟨u, hcomp, hrest⟩ := h
    obtain ⟨i, -, -, hfault, hsink, -⟩ := hcomp.quiet
    obtain ⟨-, -, hstep⟩ := hcomp
    obtain ⟨hrun, hlive', hsink', hinv'⟩ := ih u (hfault.trans hlive) (stepKeepsInvariant s u hinv hstep) hrest
    exact ⟨(run_succ hstep).trans hrun, hlive', hsink'.trans hsink, hinv'⟩

end Sys2Proof.Machine

/-! One machine under two choices of the parameters (R7, D2, D6): what completes under one completes under every choice
that refuses no more, so safe runs carry over step for step. -/

namespace Sys2Proof.Machine

/-! ### What a fetch and a decoding rest on -/

section decoding
variable {s : State} {a w : Word} {i : Instr} {c : Config}

theorem fetchWord_ok_iff :
    fetchWord s a = .ok w ↔
      a.toNat % 4 = 0 ∧ a.toNat + 4 ≤ s.cfg.memSize ∧ BitVec.ofNat 32 (leNat (s.mem.readBytes a.toNat 4)) = w := by
  rw [fetchWord_eq]
  split_ifs with halign hout
  · simp [halign]
  · simp [Nat.not_le.mpr hout]
  · simp [not_not.mp halign, Nat.not_lt.mp hout]

/-- An instruction is decoded from a fetched word (R102). -/
theorem exists_word_of_decodeAt (h : decodeAt s a = .ok i) : ∃ w, fetchWord s a = .ok w ∧ decodeWord w = some i := by
  cases hfetch : fetchWord s a with
  | error e => rw [decodeAt_of_fetchWord_error hfetch] at h; cases h
  | ok w => exact ⟨w, rfl, (decodeAt_ok_iff hfetch).mp h⟩

/-- A larger memory has the same word at an address that can be fetched (R49). -/
theorem decodeAt_withCfg (hmem : s.cfg.memSize ≤ c.memSize) (h : decodeAt s a = .ok i) :
    decodeAt { s with cfg := c } a = .ok i := by
  obtain ⟨w, hfetch, hdec⟩ := exists_word_of_decodeAt h
  obtain ⟨halign, hin, hw⟩ := fetchWord_ok_iff.mp hfetch
  have hfetch' : fetchWord { s with cfg := c } a = .ok w := fetchWord_ok_iff.mpr ⟨halign, Nat.le_trans hin hmem, hw⟩
  exact (decodeAt_ok_iff hfetch').mpr hdec

theorem pendingFault_of_decodeAt (h : decodeAt s s.pc = .ok i) : pendingFault s = execFault i s := by
  obtain ⟨c, info, hdec, -⟩ | ⟨j, hdec, hpend⟩ := pendingFault_cases s
  · rw [h] at hdec; cases hdec
  · rw [h] at hdec; cases hdec; exact hpend
end decoding

/-! ### The instructions that complete (R200, R203) -/

/-- An instruction raises nothing where its profile lets it run, it is one that can complete, and its data access is
allowed and in memory. -/
theorem execFault_eq_none_iff {i : Instr} {s : State} :
    execFault i s = none ↔
      ¬ (s.cfg.profile = .documented ∧ i.tier ≠ .S) ∧ isCsr i = false ∧ i ≠ .ecall ∧
        ∀ n ea, dataAccess i s = some (n, ea) → DataAligned s ea n ∧ InMemory s ea n := by
  by_cases hprof : s.cfg.profile = .documented ∧ i.tier ≠ .S
  · simp [execFault, hprof]
  by_cases hcsr : isCsr i = true
  · simp [execFault, hprof, hcsr]
  by_cases hecall : i = .ecall
  · rw [execFault, if_neg hprof, if_neg hcsr, if_pos hecall]
    simp [hecall]
  cases hdata : dataAccess i s with
  | none => simp [execFault, hprof, hcsr, hecall, hdata]
  | some access =>
    obtain ⟨n, ea⟩ := access
    simp only [Bool.not_eq_true] at hcsr
    have hnone : execFault i s = none ↔ DataAligned s ea n ∧ InMemory s ea n := by
      obtain ⟨hchecked, hodd, hfault⟩ | ⟨-, hout, hfault⟩ | ⟨halign, hin, hfault⟩ :=
        execFault_data hdata hprof hcsr hecall
      · simp [hfault, DataAligned, hchecked, hodd]
      · simp [hfault, hout]
      · simp [hfault, halign, hin]
    simp [hnone, hprof, hcsr, hecall]

/-! ### A choice of the parameters that refuses no more -/

/-- Whatever parameters `c` let an instruction do, `c'` lets it do too. The trap mode plays no part: it decides what a fault
does and not whether there is one. -/
structure Relaxes (c c' : Config) : Prop where
  profile : c'.profile = .documented → c.profile = .documented
  dataAlign : c'.dataAlign = .checked → c.dataAlign = .checked
  memSize : c.memSize ≤ c'.memSize

section relaxes
variable {s t : State} {i : Instr} {c : Config} {n : Nat}

theorem dataAligned_of_relaxes {ea : Word} (hr : Relaxes s.cfg c) (h : DataAligned s ea n) :
    DataAligned { s with cfg := c } ea n := by
  refine dataAligned_of_not fun ⟨hchecked, hodd⟩ => ?_
  obtain hun | hmod := h
  · rw [hr.dataAlign hchecked] at hun; cases hun
  · exact hodd hmod

theorem execFault_of_relaxes (hr : Relaxes s.cfg c) (h : execFault i s = none) :
    execFault i { s with cfg := c } = none := by
  obtain ⟨hprof, hcsr, hecall, hdata⟩ := execFault_eq_none_iff.mp h
  refine execFault_eq_none_iff.mpr ⟨fun ⟨hdoc, ht⟩ => hprof ⟨hr.profile hdoc, ht⟩, hcsr, hecall, fun n ea hacc => ?_⟩
  obtain ⟨halign, hin⟩ := hdata n ea hacc
  exact ⟨dataAligned_of_relaxes hr halign, Nat.le_trans hin hr.memSize⟩

/-- A step that completes is a step that completes, to the same state, under parameters that refuse no more. -/
theorem Completes.relax (hr : Relaxes s.cfg c) (h : Completes s t) :
    Completes { s with cfg := c } { t with cfg := c } := by
  obtain ⟨i, hdec, -⟩ := h.quiet
  obtain ⟨hlive, hpend, hstep⟩ := h
  have hdec' : decodeAt { s with cfg := c } s.pc = .ok i := decodeAt_withCfg hr.memSize hdec
  have hok : execFault i s = none := (pendingFault_of_decodeAt hdec).symm.trans hpend
  have hok' := execFault_of_relaxes hr hok
  obtain ⟨u, hu, -, hother⟩ := (exec_cases i s).2 hok
  obtain rfl : t = u := by simpa [← step_ok hlive hdec, hstep] using hu
  exact ⟨hlive, (pendingFault_of_decodeAt hdec').trans hok',
    (step_ok (s := { s with cfg := c }) hlive hdec').trans (hother c hok')⟩

theorem SafeRun.cfg (h : SafeRun n s t) : t.cfg = s.cfg := by
  induction n generalizing s with
  | zero => cases h; rfl
  | succ n ih =>
    obtain ⟨u, ⟨-, -, hstep⟩, hrest⟩ := h
    exact (ih hrest).trans (step_cfg hstep)

/-- A safe run is a safe run under parameters that refuse no more: by induction on its length. -/
theorem SafeRun.relax (hr : Relaxes s.cfg c) (h : SafeRun n s t) :
    SafeRun n { s with cfg := c } { t with cfg := c } := by
  induction n generalizing s with
  | zero => cases h; rfl
  | succ n ih =>
    obtain ⟨u, hcomp, hrest⟩ := h
    obtain ⟨-, -, hstep⟩ := id hcomp
    exact ⟨_, hcomp.relax hr, ih (step_cfg hstep ▸ hr) hrest⟩

/-- The same for a change `f` of the parameters: a run ends with those it began with. -/
theorem SafeRun.relax_map {f : Config → Config} (hr : Relaxes s.cfg (f s.cfg)) (h : SafeRun n s t) :
    SafeRun n { s with cfg := f s.cfg } { t with cfg := f t.cfg } := by
  rw [h.cfg]
  exact h.relax hr
end relaxes

/-- Settles O57: unchecked accesses refuse less than checked ones. -/
theorem checkedRunsAreUncheckedRuns : Obligations.CheckedRunsAreUncheckedRuns := fun _ _ _ _ h =>
  h.relax_map (f := fun c => { c with dataAlign := .unchecked }) ⟨id, nofun, le_rfl⟩

/-- Settles O58: the completed profile refuses nothing. -/
theorem documentedRunsAreCompletedRuns : Obligations.DocumentedRunsAreCompletedRuns := fun _ _ _ _ h =>
  h.relax_map (f := fun c => { c with profile := .completed }) ⟨nofun, id, le_rfl⟩

/-- Settles O59: a larger memory refuses less. -/
theorem safeRunsIgnoreTheMemorySize : Obligations.SafeRunsIgnoreTheMemorySize := fun _ m _ _ hm h =>
  h.relax_map (f := fun c => { c with memSize := m }) ⟨id, id, hm⟩

/-- Settles O60: the trap mode refuses nothing. -/
theorem safeRunsIgnoreTheTrapMode : Obligations.SafeRunsIgnoreTheTrapMode := fun _ m _ _ h =>
  h.relax_map (f := fun c => { c with trapMode := m }) ⟨id, id, le_rfl⟩

end Sys2Proof.Machine

/-! The diagnostic output (R21): no instruction reads it, so two machines that differ in it alone answer states that differ
in it alone. -/

namespace Sys2Proof.Machine

/-- The same machine with another diagnostic output. -/
def State.withDiag (d : List DiagDump) (s : State) : State := { s with diag := d }

theorem sameButDiag_withDiag (s : State) (d : List DiagDump) : SameButDiag s (s.withDiag d) :=
  ⟨rfl, rfl, rfl, rfl, rfl, rfl⟩

theorem eq_withDiag {s s' : State} (h : SameButDiag s s') : s' = s.withDiag s'.diag := by
  obtain ⟨hcfg, hgpr, hpc, hmem, hfault, hsink⟩ := h
  cases s'
  simp_all [State.withDiag]

/-- Both answer a next state, the second with some other diagnostic output. -/
def Alike (r r' : Result) : Prop := ∃ t d, r = .next t ∧ r' = .next (t.withDiag d)

section alike
variable {s : State} {d : List DiagDump}

theorem writeReg_withDiag (rd : RegIdx) (v : Word) :
    (s.withDiag d).writeReg rd v = (s.writeReg rd v).withDiag d := by
  unfold State.writeReg
  split <;> rfl

/-- The two dumps of an `EBREAK` are appended to different outputs. -/
theorem alike_ebreak : Alike (execEbreak s) (execEbreak (s.withDiag d)) := ⟨_, _, rfl, rfl⟩

theorem alike_retire : Alike (retire s) (retire (s.withDiag d)) := ⟨_, _, rfl, rfl⟩

theorem alike_raise {c : Cause} {info : Word} : Alike (raise c info s) (raise c info (s.withDiag d)) := by
  cases hmode : s.cfg.trapMode with
  | halt => exact ⟨_, d, raise_halt hmode, raise_halt (s := s.withDiag d) hmode⟩
  | vector v codes sink => exact ⟨_, d, raise_vector hmode, raise_vector (s := s.withDiag d) hmode⟩

theorem alike_write {rd : RegIdx} {v p : Word} :
    Alike (.next ((s.writeReg rd v).commit p)) (.next (((s.withDiag d).writeReg rd v).commit p)) :=
  ⟨_, d, rfl, by rw [writeReg_withDiag]; rfl⟩

theorem alike_retire_write {rd : RegIdx} {v : Word} :
    Alike (retire (s.writeReg rd v)) (retire ((s.withDiag d).writeReg rd v)) := by
  rw [writeReg_withDiag]
  exact alike_retire

theorem alike_completedOnly {i : Instr} {r r' : Result} (h : Alike r r') :
    Alike (completedOnly i s r) (completedOnly i (s.withDiag d) r') := by
  cases hprof : s.cfg.profile with
  | completed => rwa [completedOnly_completed hprof, completedOnly_completed (s := s.withDiag d) hprof]
  | documented =>
    rw [completedOnly_documented hprof, completedOnly_documented (s := s.withDiag d) hprof]
    exact alike_raise

theorem alike_branchArm {cond : Word → Word → Bool} {rs1 rs2 : RegIdx} {offset : BitVec 13} :
    Alike (branchArm cond rs1 rs2 offset s) (branchArm cond rs1 rs2 offset (s.withDiag d)) := ⟨_, _, rfl, rfl⟩

theorem alike_loadArm {n : Nat} {ext : BitVec (8 * n) → Word} {rd rs1 : RegIdx} {imm : BitVec 12} :
    Alike (loadArm n ext rd rs1 imm s) (loadArm n ext rd rs1 imm (s.withDiag d)) := by
  cases h : s.memRead (effAddr rs1 imm s) n with
  | error e =>
    rw [loadArm_error h, loadArm_error (s := s.withDiag d) h]
    exact alike_raise
  | ok v =>
    rw [loadArm_ok h, loadArm_ok (s := s.withDiag d) h]
    exact alike_retire_write

theorem alike_storeArm {n : Nat} {rs1 rs2 : RegIdx} {imm : BitVec 12} :
    Alike (storeArm n rs1 rs2 imm s) (storeArm n rs1 rs2 imm (s.withDiag d)) := by
  obtain ⟨hunaligned, hunmapped, hok⟩ := memWrite_spec (s.withDiag d) (effAddr rs1 imm s) n (s.readReg rs2)
  obtain ⟨hchecked, hodd, h⟩ | ⟨halign, hout, h⟩ | ⟨halign, hin, h⟩ :=
    memWrite_cases s (effAddr rs1 imm s) n (s.readReg rs2)
  · rw [storeArm_error h, storeArm_error (s := s.withDiag d) (hunaligned hchecked hodd)]
    exact alike_raise
  · rw [storeArm_error h, storeArm_error (s := s.withDiag d) (hunmapped halign hout)]
    exact alike_raise
  · rw [storeArm_ok h, storeArm_ok (s := s.withDiag d) (hok halign hin)]
    exact alike_retire
end alike

/-- Every arm reads registers, the PC and memory only. -/
theorem alike_exec (i : Instr) (s : State) (d : List DiagDump) : Alike (exec i s) (exec i (s.withDiag d)) := by
  cases i
  case lui => exact alike_retire_write
  case fence | fenceI => exact alike_retire
  case ebreak => exact alike_ebreak
  case jal | jalr => exact alike_completedOnly alike_write
  case beq | bne | blt | bge | bltu | bgeu => exact alike_completedOnly alike_branchArm
  case lb | lh | lw | lbu | lhu => exact alike_loadArm
  case sb | sh | sw => exact alike_completedOnly alike_storeArm
  case ecall | csrrw | csrrs | csrrc | csrrwi | csrrsi | csrrci => exact alike_completedOnly alike_raise
  case auipc | addi | slti | sltiu | xori | ori | andi | slli | srli | srai | add | sub | sll | slt | sltu | xor | srl |
      sra | or | and =>
    exact alike_completedOnly alike_retire_write

theorem alike_step (s : State) (d : List DiagDump) : Alike (step s) (step (s.withDiag d)) := by
  by_cases hlive : s.fault = none
  · cases hdec : decodeAt s s.pc with
    | error e =>
      rw [step_error hlive hdec, step_error (s := s.withDiag d) hlive hdec]
      exact alike_raise
    | ok i =>
      rw [step_ok hlive hdec, step_ok (s := s.withDiag d) hlive hdec]
      exact alike_exec i s d
  · exact ⟨s, d, step_halted hlive, step_halted hlive⟩

theorem step_sameButDiag {s s' t : State} (h : SameButDiag s s') (hstep : step s = .next t) :
    ∃ t', step s' = .next t' ∧ SameButDiag t t' := by
  rw [eq_withDiag h]
  obtain ⟨u, d, hu, hu'⟩ := alike_step s s'.diag
  obtain rfl : t = u := by simpa [hstep] using hu
  exact ⟨_, hu', sameButDiag_withDiag t d⟩

/-- Settles O52: the two machines step together, by induction on the number of steps. -/
theorem diagNeverInfluencesTheRun : Obligations.DiagNeverInfluencesTheRun := by
  intro n s s' t h hrun
  induction n generalizing s s' with
  | zero => cases hrun; exact ⟨s', rfl, h⟩
  | succ n ih =>
    obtain ⟨u, hu, hrest⟩ := step_of_run_succ hrun
    obtain ⟨u', hu', hsame⟩ := step_sameButDiag h hu
    obtain ⟨t', hrun', ht'⟩ := ih u u' hsame hrest
    exact ⟨t', (run_succ hu').trans hrun', ht'⟩

end Sys2Proof.Machine

/-! The field builder (R62 to R64): a range added to the builder is a field put at its offset, on numbers and on bits, and
the immediates of the decoder are the fields that the builder puts together. -/

namespace Sys2Proof.Machine

/-! ### On numbers -/

/-- Below an offset and from it up, an `or` is a sum. -/
theorem toNat_or_shiftLeft {acc x : Word} {off n : Nat} (hacc : acc.toNat < 2 ^ off) (hx : x.toNat < 2 ^ n)
    (hfit : off + n ≤ 32) : (acc ||| x <<< off).toNat = acc.toNat + 2 ^ off * x.toNat := by
  have hlt : x.toNat <<< off < 2 ^ 32 := by
    rw [Nat.shiftLeft_eq, Nat.mul_comm]
    calc 2 ^ off * x.toNat < 2 ^ off * 2 ^ n := Nat.mul_lt_mul_of_pos_left hx (Nat.two_pow_pos off)
      _ = 2 ^ (off + n) := (Nat.pow_add ..).symm
      _ ≤ 2 ^ 32 := Nat.pow_le_pow_right (by decide) hfit
  rw [BitVec.toNat_or, BitVec.toNat_shiftLeft, Nat.mod_eq_of_lt hlt, Nat.or_comm,
    ← Nat.shiftLeft_add_eq_or_of_lt hacc, Nat.shiftLeft_eq, Nat.mul_comm, Nat.add_comm]

/-- Settles O9: the range is shorter than its width says, so it lands above the bits that are there and below the new
offset. -/
theorem fieldBuilderStacksRanges : Obligations.FieldBuilderStacksRanges := by
  intro b w lo hi count hle hhi hacc hfit
  have hrange : (extractBits w lo hi).toNat = w.toNat / 2 ^ lo % 2 ^ (hi - lo + 1) := toNat_extractBits w hle hhi
  have hlt : (extractBits w lo hi).toNat < 2 ^ (hi - lo + 1) := hrange ▸ Nat.mod_lt _ (Nat.two_pow_pos _)
  have hsum : (b.addBits w lo hi).acc.toNat = b.acc.toNat + 2 ^ b.off * (extractBits w lo hi).toNat :=
    toNat_or_shiftLeft hacc hlt hfit
  refine ⟨hrange ▸ hsum, rfl, ?fits, rfl, rfl⟩
  rw [hsum]
  calc b.acc.toNat + 2 ^ b.off * (extractBits w lo hi).toNat
      < 2 ^ b.off * ((extractBits w lo hi).toNat + 1) := by rw [Nat.mul_add]; omega
    _ ≤ 2 ^ b.off * 2 ^ (hi - lo + 1) := Nat.mul_le_mul_left _ hlt
    _ = 2 ^ (b.addBits w lo hi).off := (Nat.pow_add ..).symm

/-! ### On fields (R68 to R72) -/

/-- A range of `n` bits, moved to an offset, is the slice put there. -/
theorem extractBits_shiftLeft {w : Word} {lo hi n off : Nat} (hn : hi - lo + 1 = n) (hle : lo ≤ hi) (hhi : hi < 32) :
    extractBits w lo hi <<< off = put 32 (w.extractLsb' lo n) off := by
  have hslice : extractBits w lo hi = (w.extractLsb' lo n).setWidth 32 := by
    apply BitVec.eq_of_toNat_eq
    have hpow : 2 ^ n ≤ 2 ^ 32 := Nat.pow_le_pow_right (by decide) (by omega)
    rw [toNat_extractBits w hle hhi, hn, BitVec.toNat_setWidth, BitVec.extractLsb'_toNat, Nat.shiftRight_eq_div_pow,
      Nat.mod_eq_of_lt (Nat.lt_of_lt_of_le (Nat.mod_lt _ (Nat.two_pow_pos n)) hpow)]
  rw [hslice, put]

theorem setWidth_put {m n k : Nat} (f : BitVec m) (lo : Nat) (h : k ≤ n) : (put n f lo).setWidth k = put k f lo := by
  apply BitVec.eq_of_getLsbD_eq
  intro i hi
  simp only [BitVec.getLsbD_setWidth, getLsbD_put, hi, show i < n by omega, decide_true, Bool.true_and]

theorem put_zero_self {n : Nat} (f : BitVec n) : put n f 0 = f := by
  rw [put, BitVec.setWidth_eq, BitVec.shiftLeft_zero]

/-- The immediate of format U is put at bit 12, above twelve zeros (R69). -/
theorem immU_eq_append (imm20 : BitVec 20) : immU imm20 = imm20 ++ 0#12 := by
  apply BitVec.eq_of_getLsbD_eq
  intro i hi
  rw [immU, getLsbD_put, BitVec.getLsbD_append]
  by_cases h : i < 12
  · simp [h]
  · simp [h, hi, Nat.not_lt.mp h]

theorem or_reverse {n : Nat} (a b c d : BitVec n) : a ||| b ||| c ||| d = d ||| c ||| b ||| a := by ac_rfl

/-- Settles O6: what the builder makes is, cut to its offset, the parts of the immediate put together, from the lowest
up. -/
theorem immediatesMatchFieldBuilder : Obligations.ImmediatesMatchFieldBuilder := by
  intro w
  simp (disch := decide) only [FieldBuilder.start, FieldBuilder.skipBits, FieldBuilder.addBits, FieldBuilder.sext,
    FieldBuilder.zext, sextField, extractBits_shiftLeft rfl, BitVec.setWidth_or, setWidth_put, BitVec.zero_or]
  exact ⟨congrArg imm12 (put_zero_self _).symm, rfl, congrArg imm12 (BitVec.or_comm ..), congrArg immB (or_reverse ..),
    congrArg immJ (or_reverse ..)⟩

end Sys2Proof.Machine

/-! Memory read back (R33, R40, R42): the value of the bytes just written, in a load and in a fetch, and the canonical form
as a normal form. -/

namespace Sys2Proof.Machine

/-! ### A load after a store (R42) -/

section readBackMemory
variable {s t : State} {n a : Nat} {v : BitVec n}

theorem storeUnaligned_eq_ok (h : s.storeUnaligned n a v = .ok t) :
    a + n / 8 ≤ s.cfg.memSize ∧ t = { s with mem := s.mem.writeBytes a (leBytes (n / 8) v.toNat) } := by
  rcases Nat.lt_or_ge s.cfg.memSize (a + n / 8) with hout | hin
  · rw [storeUnaligned_error hout] at h; cases h
  · rw [storeUnaligned_ok hin] at h; cases h; exact ⟨hin, rfl⟩

/-- A checked store that succeeds is the unchecked one (R38). -/
theorem storeUnaligned_of_storeAligned (h : s.storeAligned n a v = .ok t) : s.storeUnaligned n a v = .ok t := by
  by_cases halign : a % (n / 8) = 0
  · rwa [storeAligned_of_aligned halign] at h
  · rw [storeAligned_of_misaligned halign] at h; cases h

/-- The number read where a value of whole bytes was written is the value. -/
theorem leNat_readBytes_writeBytes {m : Memory} (hwf : m.wf = true) (hn : 8 ∣ n) :
    leNat ((m.writeBytes a (leBytes (n / 8) v.toNat)).readBytes a (n / 8)) = v.toNat := by
  have hbytes := readBytes_writeBytes hwf a (leBytes (n / 8) v.toNat)
  rw [length_leBytes] at hbytes
  rw [hbytes, leNat_leBytes, pow_bytes_of_width hn, Nat.mod_eq_of_lt v.isLt]

theorem loadUnaligned_of_storeUnaligned (hwf : s.mem.wf = true) (hn : 8 ∣ n) (h : s.storeUnaligned n a v = .ok t) :
    t.loadUnaligned n a = .ok v := by
  obtain ⟨hin, rfl⟩ := storeUnaligned_eq_ok h
  rw [loadUnaligned_ok (by exact hin), leNat_readBytes_writeBytes hwf hn, BitVec.ofNat_toNat, BitVec.setWidth_eq]

/-- A store leaves the bytes outside it alone. -/
theorem load8_of_storeUnaligned (hwf : s.mem.wf = true) (h : s.storeUnaligned n a v = .ok t) {c : Nat}
    (hc : c < a ∨ a + n / 8 ≤ c) : t.load8 c = s.load8 c := by
  obtain ⟨-, rfl⟩ := storeUnaligned_eq_ok h
  have hread : (s.mem.writeBytes a (leBytes (n / 8) v.toNat)).read c = s.mem.read c :=
    read_writeBytes_outside hwf (by rwa [length_leBytes])
  simp only [State.load8, hread]

theorem load8_of_store8 {b : Byte} (hwf : s.mem.wf = true) (h : s.store8 a b = .ok t) :
    t.load8 a = .ok b ∧ ∀ c, c ≠ a → t.load8 c = s.load8 c := by
  rcases Nat.lt_or_ge a s.cfg.memSize with hin | hout
  · rw [store8_ok hin] at h
    cases h
    refine ⟨load8_eq_ok.mpr ⟨hin, by rw [read_write hwf, if_pos rfl]⟩, fun c hc => ?_⟩
    simp only [State.load8, read_write hwf, if_neg hc]
  · rw [store8_error hout] at h; cases h
end readBackMemory

/-- Settles O13: a successful store of either kind is one write of the value's bytes, which a load composes again. -/
theorem loadAfterStoreReturnsValue : Obligations.LoadAfterStoreReturnsValue := by
  refine ⟨fun s t a b => load8_of_store8, fun s t n a v hwf hn hstore => ?_⟩
  have h : s.storeUnaligned n a v = .ok t := hstore.elim id storeUnaligned_of_storeAligned
  have hload : t.loadUnaligned n a = .ok v := loadUnaligned_of_storeUnaligned hwf (eight_dvd_of_width hn) h
  exact ⟨hload, fun halign => (loadAligned_of_aligned halign).trans hload, fun _ => load8_of_storeUnaligned hwf h⟩

/-! ### The top of the address space (R40) -/

theorem memSize_le_of_wf {c : Config} (h : c.wf = true) : c.memSize ≤ 4294967296 := by
  rw [Config.wf, Bool.and_eq_true] at h
  exact of_decide_eq_true h.1

/-- Settles O14: a legal memory ends at `2^32` or before, and the byte addresses of an access are integers. -/
theorem noAccessWrapsToZero : Obligations.NoAccessWrapsToZero := by
  intro s n a v hwf hpast
  have hout : s.cfg.memSize < a + n / 8 := Nat.lt_of_le_of_lt (memSize_le_of_wf hwf) hpast
  exact ⟨loadUnaligned_error hout, storeUnaligned_error hout, fun halign =>
    ⟨(loadAligned_of_aligned halign).trans (loadUnaligned_error hout),
      (storeAligned_of_aligned halign).trans (storeUnaligned_error hout)⟩⟩

/-! ### The canonical form is a normal form (R23) -/

section canonical
variable {m m' : Memory} {lo c d a : Nat} {x y : Byte}

theorem wfFrom_cons_iff :
    Memory.wfFrom lo ((c, x) :: m) = true ↔ lo ≤ c ∧ x ≠ Memory.unlisted ∧ Memory.wfFrom (c + 1) m = true := by
  simp only [Memory.wfFrom, Bool.and_eq_true, decide_eq_true_eq, and_assoc]

theorem read_head : Memory.read ((c, x) :: m) c = x := by simp [Memory.read]

theorem read_tail (h : c < a) : Memory.read ((c, x) :: m) a = Memory.read m a := by
  rw [Memory.read, if_neg (by omega), if_neg (by omega)]

/-- A memory whose listed addresses begin above `c` does not read what another lists at `c`. -/
theorem read_head_ne (hx : x ≠ Memory.unlisted) (hm' : Memory.wfFrom lo m' = true) (h : c < lo) :
    Memory.read ((c, x) :: m) c ≠ Memory.read m' c := by
  rwa [read_head, read_of_lt hm' h]

theorem eq_of_read_eq (hm : Memory.wfFrom lo m = true) (hm' : Memory.wfFrom lo m' = true)
    (h : ∀ a, Memory.read m a = Memory.read m' a) : m = m' := by
  induction m generalizing lo m' with
  | nil =>
    obtain _ | ⟨⟨d, y⟩, m'⟩ := m'
    · rfl
    · obtain ⟨-, hy, -⟩ := wfFrom_cons_iff.mp hm'
      exact absurd (h d).symm (read_head_ne hy (lo := d + 1) rfl (Nat.lt_succ_self d))
  | cons cell m ih =>
    obtain ⟨c, x⟩ := cell
    obtain ⟨-, hx, htail⟩ := wfFrom_cons_iff.mp hm
    obtain _ | ⟨⟨d, y⟩, m'⟩ := m'
    · exact absurd (h c) (read_head_ne hx (lo := c + 1) rfl (Nat.lt_succ_self c))
    · obtain ⟨-, hy, htail'⟩ := wfFrom_cons_iff.mp hm'
      obtain rfl : c = d := by
        rcases Nat.lt_trichotomy c d with hlt | heq | hgt
        · exact absurd (h c) (read_head_ne hx (wfFrom_cons_iff.mpr ⟨le_rfl, hy, htail'⟩) hlt)
        · exact heq
        · exact absurd (h d).symm (read_head_ne hy (wfFrom_cons_iff.mpr ⟨le_rfl, hx, htail⟩) hgt)
      obtain rfl : x = y := by
        calc x = Memory.read ((c, x) :: m) c := read_head.symm
          _ = Memory.read ((c, y) :: m') c := h c
          _ = y := read_head
      rw [ih htail htail' fun a => ?_]
      rcases Nat.lt_or_ge c a with hlt | hge
      · rw [← read_tail hlt, h a, read_tail hlt]
      · rw [read_of_lt htail (Nat.lt_succ_of_le hge), read_of_lt htail' (Nat.lt_succ_of_le hge)]
end canonical

/-- Settles O15: the first listed address is the first that reads other than an unlisted one, so the lists agree cell by
cell. -/
theorem canonicalMemoriesWithEqualBytesAreEqual : Obligations.CanonicalMemoriesWithEqualBytesAreEqual :=
  fun _ _ => eq_of_read_eq

/-! ### A fetch after a write (R54, R236) -/

/-- Settles O17: the four bytes placed at the PC are the word that is fetched, decoded and run. -/
theorem placedWordIsRun : Obligations.PlacedWordIsRun := by
  intro s w i hlive hwf halign hin hdec
  have hbytes : tableWordBytes 32 w.toNat = leBytes (32 / 8) w.toNat := by
    rw [tableWordBytes, Nat.mod_eq_of_lt w.isLt]
  have hfetch : fetchWord (s.withFetchWord 32 w.toNat) s.pc = .ok w := by
    rw [State.withFetchWord, hbytes]
    refine fetchWord_ok_iff.mpr ⟨halign, hin, ?_⟩
    rw [placeAtPc_mem, show 4 = 32 / 8 from rfl, leNat_readBytes_writeBytes hwf (by decide), BitVec.ofNat_toNat,
      BitVec.setWidth_eq]
  exact step_ok hlive ((decodeAt_ok_iff hfetch).mpr hdec)

end Sys2Proof.Machine

/-! The stores of two and four bytes (R187, R188), and the fetch of a stored word. -/

namespace Sys2Proof.Machine

theorem memWrite_unaligned {s : State} {ea v : Word} {n : Nat} (hchecked : s.cfg.dataAlign = .checked)
    (h : ea.toNat % n ≠ 0) : s.memWrite ea n v = .error .unaligned :=
  have ⟨hunaligned, _, _⟩ := memWrite_spec s ea n v
  hunaligned hchecked h

/-- What a store arm of `n` bytes does with `PROFILE = completed`, by the three answers of `MemWrite`. -/
theorem storeArm_results {i : Instr} {s : State} {n : Nat} {rs1 rs2 : RegIdx} {imm : BitVec 12} {ea : Word}
    (hx : exec i s = completedOnly i s (storeArm n rs1 rs2 imm s)) (hn : n ≤ 4) (hea : ea = effAddr rs1 imm s)
    (hprof : s.cfg.profile = .completed) (hwf : s.mem.wf = true) :
    (DataAligned s ea n → InMemory s ea n → StoreResult i s ea n (s.readReg rs2)) ∧
    (s.cfg.dataAlign = .checked → ea.toNat % n ≠ 0 → Raised .unaligned ea s (exec i s)) ∧
    (DataAligned s ea n → ¬ InMemory s ea n → Raised .unmapped ea s (exec i s)) := by
  subst hea
  exact ⟨storeResult_of_storeArm hprof hwf hx hn,
    fun hchecked hodd => raised_of_memWrite hprof hx (memWrite_unaligned hchecked hodd),
    fun halign hout => raised_of_memWrite hprof hx (memWrite_unmapped halign hout)⟩

/-- Settles O27: a store arm of two bytes. -/
theorem storeHalfwordResult : Obligations.StoreHalfwordResult :=
  ⟨decodesAs_sh, fun _ _ _ _ _ => storeArm_results rfl (by decide)⟩

/-- Settles O28: a store arm of four bytes. -/
theorem storeWordResult : Obligations.StoreWordResult :=
  ⟨decodesAs_sw, fun _ _ _ _ _ => storeArm_results rfl (by decide)⟩

/-- A word is its four bytes, the last most significant (R33). -/
theorem append_bytes_word (v : Word) :
    v.extractLsb' 24 8 ++ v.extractLsb' 16 8 ++ v.extractLsb' 8 8 ++ v.extractLsb' 0 8 = v := by
  simp (disch := decide) only [BitVec.extractLsb'_append_extractLsb'_eq_extractLsb', BitVec.extractLsb'_eq_self]

/-- Settles O41: the bytes that `SW` leaves are the ones the fetch puts together. -/
theorem storedWordIsFetched : Obligations.StoredWordIsFetched := by
  rintro s rs1 rs2 imm _ rfl hprof hwf halign hin
  obtain ⟨-, hsw⟩ := storeWordResult
  obtain ⟨hstored, -, -⟩ := hsw s rs1 rs2 imm _ rfl hprof hwf
  obtain ⟨t, hexec, -, -, -, hbytes, -⟩ := hstored (.inr halign) hin
  refine ⟨t, hexec, ?_⟩
  rw [fetchWord_of_load8 halign (hbytes 0 (by decide)) (hbytes 1 (by decide)) (hbytes 2 (by decide))
    (hbytes 3 (by decide))]
  exact congrArg Except.ok (append_bytes_word _)

end Sys2Proof.Machine

/-! Fences and `EBREAK` (R136 to R138): arms that complete in every state. -/

namespace Sys2Proof.Machine

/-- Settles O29: both arms are a bare retire. -/
theorem fencesOnlyAdvanceThePc : Obligations.FencesOnlyAdvanceThePc :=
  ⟨decodesAs_fence, decodesAs_fenceI, fun _ _ _ _ _ _ _ => ⟨pcResult_of_commit rfl, pcResult_of_commit rfl⟩⟩

/-- The record of a dump holds every register as it is read (R21). -/
@[simp] theorem regs_dump (s : State) (r : RegIdx) : s.dump.regs[r.toNat]'r.isLt = s.readReg r := by
  simp [State.dump]

/-- Settles O30: the record appended is the dump of the state before the PC advances. -/
theorem ebreakAppendsOneDump : Obligations.EbreakAppendsOneDump :=
  ⟨decodesAs_ebreak, fun s => ⟨(s.emit s.dump).commit (s.pc + 4#32), s.dump, rfl, rfl, rfl, regs_dump s, fun _ => rfl,
    fun _ => rfl, rfl, rfl, rfl, rfl⟩⟩

end Sys2Proof.Machine

/-! The instructions that raise, in every state or in the documented profile only (R109, R121, R190, R197): `execFault` names
the fault, and `exec` raises it. -/

namespace Sys2Proof.Machine

section raising
variable {i : Instr} {s : State} {c : Cause} {info : Word}

theorem exec_of_execFault (h : execFault i s = some (c, info)) : exec i s = raise c info s :=
  (exec_cases i s).1 c info h

theorem raised_of_execFault (h : execFault i s = some (c, info)) : Raised c info s (exec i s) :=
  exec_of_execFault h ▸ raise_raised c info s

/-- The profile is looked at first (R203). -/
theorem execFault_documented (hprof : s.cfg.profile = .documented) (ht : i.tier ≠ .S) :
    execFault i s = some (.unimplemented, encode i) := if_pos ⟨hprof, ht⟩

theorem tier_of_isCsr (h : isCsr i = true) : i.tier ≠ .S := by
  cases i
  case csrrw | csrrs | csrrc | csrrwi | csrrsi | csrrci => exact (nofun : Tier.N ≠ .S)
  all_goals cases h

/-- A live step that fetched `w` raises the fault of the instruction in `w`, whose encoding is `w`. -/
theorem step_raised_of_decodeWord {w : Word} (hlive : s.fault = none) (hfetch : fetchWord s s.pc = .ok w)
    (hdec : decodeWord w = some i) (h : execFault i s = some (c, encode i)) : Raised c w s (step s) := by
  rw [step_ok hlive ((decodeAt_ok_iff hfetch).mpr hdec), ← encode_of_decodeWord hdec]
  exact raised_of_execFault h
end raising

/-- Settles O22: `imm_u` is the field above twelve zeros. -/
theorem upperImmediateResults : Obligations.UpperImmediateResults := by
  refine ⟨decodesAs_lui, decodesAs_auipc, fun s rd imm20 => ?_⟩
  rw [← immU_eq_append]
  exact ⟨regResult_of_retire rfl, fun hprof => regResult_of_completedOnly hprof rfl rfl,
    fun hprof => raised_of_execFault (execFault_documented hprof nofun)⟩

/-- Settles O38: no CSR exists, so the fault is the same for all six and every field. -/
theorem csrInstructionsRaiseIllegal : Obligations.CsrInstructionsRaiseIllegal := by
  refine ⟨decodesAs_csrrw, decodesAs_csrrs, decodesAs_csrrc, decodesAs_csrrwi, decodesAs_csrrsi, decodesAs_csrrci,
    fun s rd csr f i hi => ?_, fun s w i hprof hlive hfetch hdec hcsr =>
      step_raised_of_decodeWord hlive hfetch hdec (execFault_csr hcsr hprof)⟩
  have hcsr : isCsr i = true := by
    simp only [List.mem_cons, List.not_mem_nil, or_false] at hi
    obtain rfl | rfl | rfl | rfl | rfl | rfl := hi <;> rfl
  exact ⟨fun hprof => raised_of_execFault (execFault_csr hcsr hprof),
    fun hprof => raised_of_execFault (execFault_documented hprof (tier_of_isCsr hcsr))⟩

/-- Settles O39: the word recorded is the encoding of `ECALL`, which has no operands. -/
theorem ecallRaisesEnvironmentCall : Obligations.EcallRaisesEnvironmentCall :=
  ⟨decodesAs_ecall, fun _ hprof => raised_of_execFault (execFault_ecall hprof)⟩

/-! ### The two profiles (R109, D2) -/

section profiles
variable {s t : State} {i : Instr}

/-- A fault does the same under every choice of the parameters with the same trap mode. -/
theorem raise_withCfg {c : Cause} {info : Word} {cfg : Config} (hmode : cfg.trapMode = s.cfg.trapMode)
    (h : raise c info s = .next t) : raise c info { s with cfg := cfg } = .next { t with cfg := cfg } := by
  cases hs : s.cfg.trapMode with
  | halt =>
    rw [raise_halt hs] at h
    cases h
    exact raise_halt (s := { s with cfg := cfg }) (hmode.trans hs)
  | vector v codes sink =>
    rw [raise_vector hs] at h
    cases h
    exact raise_vector (s := { s with cfg := cfg }) (hmode.trans hs)

/-- A tier S instruction never asks for the profile. -/
theorem execFault_withProfile (ht : i.tier = .S) (p : Profile) : execFault i (s.withProfile p) = execFault i s := by
  simp only [execFault, ht, ne_eq, not_true_eq_false, and_false, if_false]
  rfl

theorem exec_withProfile (ht : i.tier = .S) (p : Profile) (h : exec i s = .next t) :
    exec i (s.withProfile p) = .next (t.withProfile p) := by
  obtain ⟨hraise, hcomplete⟩ := exec_cases i s
  cases hfault : execFault i s with
  | some e =>
    have hs := (hraise e.1 e.2 hfault).symm.trans h
    rw [exec_of_execFault ((execFault_withProfile ht p).trans hfault), State.withProfile, State.withProfile,
      (raise_next hs).1]
    exact raise_withCfg rfl hs
  | none =>
    obtain ⟨u, hu, hquiet, hother⟩ := hcomplete hfault
    obtain rfl : t = u := by simpa [h] using hu
    rw [State.withProfile, State.withProfile, hquiet.1]
    exact hother _ ((execFault_withProfile ht p).trans hfault)
end profiles

/-- Settles O40: the profile is the first thing a tier N or U arm looks at, and no other arm looks at it. -/
theorem documentedProfileRaisesUnimplemented : Obligations.DocumentedProfileRaisesUnimplemented :=
  ⟨fun _ _ hprof ht => raised_of_execFault (execFault_documented hprof ht),
    fun _ _ _ hprof hlive hfetch hdec ht =>
      step_raised_of_decodeWord hlive hfetch hdec (execFault_documented hprof ht),
    fun s _ _ ht => exec_withProfile (s := s.withProfile .completed) ht .documented, fun _ _ => rfl⟩

/-! ### Which faults an instruction can raise (R201) -/

/-- A latch that an instruction leaves set holds the cause of its fault: a completed one leaves the latch clear, and so does
a fault with `TRAP_MODE = vector`. -/
theorem execFault_of_latch {i : Instr} {s t : State} {r : FaultRecord} (hlive : s.fault = none)
    (hexec : exec i s = .next t) (hr : t.fault = some r) : ∃ info, execFault i s = some (r.cause, info) := by
  obtain ⟨hraise, hcomplete⟩ := exec_cases i s
  cases hfault : execFault i s with
  | some e =>
    obtain ⟨c, info⟩ := e
    obtain ⟨-, -, -, -, ⟨-, hlatch, -⟩ | ⟨v, codes, sink, -, hlatch, -⟩⟩ :=
      raise_next ((hraise c info hfault).symm.trans hexec)
    · obtain rfl : ⟨c, s.pc, info⟩ = r := Option.some.inj (hlatch.symm.trans hr)
      exact ⟨info, rfl⟩
    · simp [hlatch, hlive] at hr
  | none =>
    obtain ⟨u, hu, ⟨-, hlatch, -⟩, -⟩ := hcomplete hfault
    obtain rfl : t = u := by simpa [hexec] using hu
    simp [hlatch, hlive] at hr

/-- An instruction that is neither a CSR instruction nor `ECALL` raises nothing but the fault of its data access. -/
theorem execFault_dataAccess {i : Instr} {s : State} {c : Cause} {info : Word} (hprof : s.cfg.profile = .completed)
    (hcsr : isCsr i = false) (hecall : i ≠ .ecall) (h : execFault i s = some (c, info)) :
    ∃ n ea, dataAccess i s = some (n, ea) ∧
      (c = .unmapped ∨ c = .unaligned ∧ n ≠ 1 ∧ s.cfg.dataAlign = .checked) := by
  have hruns : ¬ (s.cfg.profile = .documented ∧ i.tier ≠ .S) := by simp [hprof]
  cases hdata : dataAccess i s with
  | none => simp [execFault, hprof, hcsr, hecall, hdata] at h
  | some access =>
    obtain ⟨n, ea⟩ := access
    refine ⟨n, ea, rfl, ?_⟩
    obtain ⟨hchecked, hodd, hfault⟩ | ⟨-, -, hfault⟩ | ⟨-, -, hfault⟩ := execFault_data hdata hruns hcsr hecall
    all_goals rw [h] at hfault; cases hfault
    · exact .inr ⟨rfl, fun hn => hodd (hn ▸ Nat.mod_one _), hchecked⟩
    · exact .inl rfl

/-- Settles O44: the cause in the latch is the one `execFault` names. -/
theorem faultsPerInstruction : Obligations.FaultsPerInstruction := by
  intro s t i ⟨cause, faultPc, word⟩ hprof hlive hexec hr
  obtain ⟨info, hfault⟩ := execFault_of_latch hlive hexec hr
  refine ⟨fun hcsr => ?csr, fun hi => ?ecall, fun hcsr hecall => execFault_dataAccess hprof hcsr hecall hfault⟩
  case csr =>
    rw [execFault_csr hcsr hprof] at hfault
    cases hfault
    rfl
  case ecall =>
    rw [hi, execFault_ecall hprof] at hfault
    cases hfault
    rfl

/-! ### The OPEN trap mode (R212) -/

/-- Settles O45: the state after the fault, written out; what the next step does is a live step's law. -/
theorem vectorModeEntersTheVector : Obligations.VectorModeEntersTheVector := by
  rintro s v codes sink c info _ hlive hmode hpend rfl
  refine ⟨_, (step_of_pendingFault hlive hpend).trans (raise_vector hmode), rfl, hlive, fun _ => rfl, rfl, rfl, rfl,
    ?_, ?_, ?_, ?_, fun j hdec => step_ok hlive hdec⟩
  · rintro rfl; exact recordCause_newest_one _ _
  · rintro n rfl; exact recordCause_newest_succ n _ _
  · rintro n rfl; exact recordCause_oldest n _ _
  · rintro rfl; exact recordCause_every _ _

end Sys2Proof.Machine

/-! The parity of the PC (R18, R171): the PC advances by 4, a well-formed offset is even, `JALR` clears bit 0, and
`TRAP_VECTOR` is a multiple of 4. -/

namespace Sys2Proof.Machine

/-! ### Even words -/

section even
variable {a b : Word}

theorem even_iff : a.toNat % 2 = 0 ↔ a.getLsbD 0 = false := by
  rw [BitVec.getLsbD, Nat.testBit_zero, decide_eq_false_iff_not]
  omega

theorem even_add (ha : a.toNat % 2 = 0) (hb : b.toNat % 2 = 0) : (a + b).toNat % 2 = 0 := by
  rw [BitVec.toNat_add]
  omega

theorem even_seqPc {s : State} (h : s.pc.toNat % 2 = 0) : s.seqPc.toNat % 2 = 0 := even_add h (by decide)

theorem even_jalTarget {offset : BitVec 21} {s : State} (hok : jumpOffsetOk offset = true) (h : s.pc.toNat % 2 = 0) :
    (jalTarget offset s).toNat % 2 = 0 := by
  have hbit : offset.getLsbD 0 = false := by simpa only [jumpOffsetOk, Bool.not_eq_true'] using hok
  exact even_add h (even_iff.mpr (by rw [immJ, BitVec.getLsbD_signExtend, hbit]; rfl))

theorem even_branchTarget {offset : BitVec 13} {s : State} (hok : branchOffsetOk offset = true)
    (h : s.pc.toNat % 2 = 0) : (branchTarget offset s).toNat % 2 = 0 := by
  have hbit : offset.getLsbD 0 = false := by simpa only [branchOffsetOk, Bool.not_eq_true'] using hok
  exact even_add h (even_iff.mpr (by rw [immB, BitVec.getLsbD_signExtend, hbit]; rfl))

theorem even_jalrTarget {rs1 : RegIdx} {imm : BitVec 12} {s : State} : (jalrTarget rs1 imm s).toNat % 2 = 0 :=
  even_iff.mpr (by rw [jalrTarget, BitVec.getLsbD_and]; exact Bool.and_false _)
end even

/-! ### Control transfers (R171) -/

/-- A control transfer that completes changes no byte and nothing but a register and the PC, and keeps the PC even where it is
well-formed. -/
def Transfers (i : Instr) (s : State) : Prop :=
  ∃ t, exec i s = .next t ∧ SameMem s t ∧ SameRest s t ∧ (i.wf = true → s.pc.toNat % 2 = 0 → t.pc.toNat % 2 = 0)

section transfers
variable {i : Instr} {s : State} {p : Word}

theorem transfers_of_regResult {rd : RegIdx} {v : Word} (h : RegResult i s rd v p)
    (hp : i.wf = true → s.pc.toNat % 2 = 0 → p.toNat % 2 = 0) : Transfers i s := by
  obtain ⟨t, hexec, -, rfl, hmem, hrest⟩ := h
  exact ⟨t, hexec, hmem, hrest, hp⟩

theorem transfers_of_branch {cond : Word → Word → Bool} {rs1 rs2 : RegIdx} {offset : BitVec 13}
    (hprof : s.cfg.profile = .completed) (hx : exec i s = completedOnly i s (branchArm cond rs1 rs2 offset s))
    (hwf : i.wf = branchOffsetOk offset) : Transfers i s := by
  obtain ⟨t, hexec, -, hpc, hmem, hrest⟩ := pcResult_of_commit (hx.trans (completedOnly_completed hprof))
  refine ⟨t, hexec, hmem, hrest, fun hok heven => ?_⟩
  rw [hpc]
  split
  · exact even_branchTarget (hwf.symm.trans hok) heven
  · exact even_seqPc heven

theorem transfers_of_isControlTransfer (hprof : s.cfg.profile = .completed) (h : isControlTransfer i = true) :
    Transfers i s := by
  cases i
  case jal => exact transfers_of_regResult (regResult_of_jump hprof rfl) fun hok heven => even_jalTarget hok heven
  case jalr => exact transfers_of_regResult (regResult_of_jump hprof rfl) fun _ _ => even_jalrTarget
  case beq | bne | blt | bge | bltu | bgeu => exact transfers_of_branch hprof rfl rfl
  all_goals cases h
end transfers

/-- Settles O37: the transfer completes and the core stays live, so a misaligned PC is the next fetch's fault. -/
theorem misalignedTargetFaultsOneStepLater : Obligations.MisalignedTargetFaultsOneStepLater := by
  intro s i hprof hlive hi
  obtain ⟨t, hexec, hmem, hrest, heven⟩ := transfers_of_isControlTransfer hprof hi
  obtain ⟨-, hfault, -⟩ := id hrest
  exact ⟨t, hexec, hmem, hrest, fun hodd =>
    step_raised_of_fetchWord_error (hfault.trans hlive) (fetchWord_of_misaligned hodd), heven⟩

/-! ### Every step (R18) -/

theorem trapVector_mod_four {c : Config} {v : Word} {codes : CauseCodes} {sink : CauseSink} (hwf : c.wf = true)
    (hmode : c.trapMode = .vector v codes sink) : v.toNat % 4 = 0 := by
  simp only [Config.wf, hmode, Bool.and_eq_true, decide_eq_true_eq] at hwf
  exact hwf.2.1

theorem tier_of_isControlTransfer {i : Instr} (h : isControlTransfer i = true) : i.tier ≠ .S := by
  cases i
  case jal | jalr | beq | bne | blt | bge | bltu | bgeu => exact (nofun : Tier.N ≠ .S)
  all_goals cases h

theorem wf_of_decodeAt {s : State} {a : Word} {i : Instr} (h : decodeAt s a = .ok i) : i.wf = true := by
  obtain ⟨w, -, hdec⟩ := exists_word_of_decodeAt h
  exact wf_of_decodeWord hdec

/-- Settles O49: a fault keeps the PC or enters the vector, and the decoder answers well-formed control transfers only. -/
theorem pcStaysEven : Obligations.PcStaysEven := by
  intro s t hwf heven h
  cases stepOutcome h with
  | halted _ hsame => rwa [hsame]
  | raised _ hraise =>
    obtain ⟨-, -, -, -, ⟨-, -, hpc, -⟩ | ⟨v, codes, sink, hmode, -, rfl, -⟩⟩ := raise_next hraise
    · rwa [hpc]
    · have hvector := trapVector_mod_four hwf hmode
      omega
  | @completed i _ hdec hok hexec hquiet =>
    by_cases hi : isControlTransfer i = true
    · have hprof := completed_of_execFault hok (tier_of_isControlTransfer hi)
      obtain ⟨u, hu, -, -, hkeeps⟩ := transfers_of_isControlTransfer hprof hi
      obtain rfl : t = u := by simpa [hexec] using hu
      exact hkeeps (wf_of_decodeAt hdec) heven
    · obtain ⟨-, -, -, -, hseq, -⟩ := hquiet
      rw [hseq (Bool.eq_false_of_not_eq_true hi)]
      exact even_seqPc heven

end Sys2Proof.Machine

/-! Reset and construction (R24, R230): the registers hold `RESET_GPR`, and memory the bytes of `MEM_INIT` that lie in it. -/

namespace Sys2Proof.Machine

/-! ### Placing `MEM_INIT` byte by byte -/

section place
variable {size : Nat} {m : Memory} {cells : List Host.Cell}

/-- Placing one byte, if it lies in memory. -/
theorem wf_place_one (hm : m.wf = true) (a : Nat) (b : Byte) : (if a < size then m.write a b else m).wf = true := by
  split
  · exact wf_write hm a b
  · exact hm

/-- An address that is not listed keeps its byte. -/
theorem read_place_of_not_mem (hm : m.wf = true) {a : Nat} (ha : a ∉ cells.map Prod.fst) :
    (Memory.place size m cells).read a = m.read a := by
  induction cells generalizing m with
  | nil => rfl
  | cons cell cells ih =>
    obtain ⟨c, b⟩ := cell
    simp only [List.map_cons, List.mem_cons, not_or] at ha
    rw [Memory.place, ih (wf_place_one hm c b) ha.2]
    split
    · rw [read_write hm, if_neg ha.1]
    · rfl

/-- An address that is listed once and lies in memory gets its byte. -/
theorem read_place_of_mem (hm : m.wf = true) (hnodup : (cells.map Prod.fst).Nodup) {a : Nat} {b : Byte}
    (hmem : (a, b) ∈ cells) (ha : a < size) : (Memory.place size m cells).read a = b := by
  induction cells generalizing m with
  | nil => cases hmem
  | cons cell cells ih =>
    obtain ⟨c, x⟩ := cell
    obtain ⟨hc, hnodup'⟩ := List.nodup_cons.mp hnodup
    rw [Memory.place]
    obtain heq | htail := List.mem_cons.mp hmem
    · obtain ⟨rfl, rfl⟩ := Prod.mk.inj heq
      rw [read_place_of_not_mem (wf_place_one hm a b) hc, if_pos ha, read_write hm, if_pos rfl]
    · exact ih (wf_place_one hm c x) hnodup' htail

theorem within_place (hm : m.within size = true) : (Memory.place size m cells).within size = true := by
  induction cells generalizing m with
  | nil => exact hm
  | cons cell cells ih =>
    obtain ⟨c, b⟩ := cell
    rw [Memory.place]
    split
    · exact ih (within_write hm ‹_› b)
    · exact ih hm
end place

/-- Register `k + 1` is stored at index `k` (R11). -/
theorem readReg_succ (s : State) (k : Fin 31) : s.readReg (BitVec.ofNat 5 (k.val + 1)) = s.gpr[k.val] := by
  have hk : (BitVec.ofNat 5 (k.val + 1)).toNat = k.val + 1 := by
    rw [BitVec.toNat_ofNat, Nat.mod_eq_of_lt (by omega)]
  have hne : BitVec.ofNat 5 (k.val + 1) ≠ 0#5 := fun h => by simpa [hk] using congrArg BitVec.toNat h
  simp only [State.readReg, if_neg hne, hk, Nat.add_sub_cancel]

/-- A constructed machine meets the invariant where its parameters are legal. -/
theorem inv_construct {cfg : Config} (hwf : cfg.wf = true) (g : Vector Word 31) (cells : List Host.Cell) :
    (State.construct cfg g cells).inv = true := by
  refine inv_iff.mpr ⟨hwf, wf_place rfl cells, within_place rfl, latchOk_of_live rfl, ?sink, rfl⟩
  cases hmode : cfg.trapMode <;> simp [State.sinkOk, State.construct, hmode]

/-- Settles O54: the fields are those given, and each byte is placed once. -/
theorem constructionGivesTheParameters : Obligations.ConstructionGivesTheParameters := by
  rintro cfg g cells _ hnodup rfl
  refine ⟨rfl, rfl, rfl, rfl, readReg_succ _, fun c hc hlt => ?listed, fun a hlt ha => ?unlisted,
    fun a hout => load8_error hout, fun hwf => inv_construct hwf g cells⟩
  case listed => exact load8_eq_ok.mpr ⟨hlt, read_place_of_mem rfl hnodup hc hlt⟩
  case unlisted => exact load8_eq_ok.mpr ⟨hlt, read_place_of_not_mem rfl ha⟩

/-- Settles O53: the reset state lists no byte and holds 0 in every register. -/
theorem resetValues : Obligations.ResetValues := by
  refine ⟨fun r => ?registers, rfl, fun a ha => load8_eq_ok.mpr ⟨ha, rfl⟩, rfl, rfl⟩
  simp [State.readReg, State.reset]

end Sys2Proof.Machine
